-- ==== Sys2Proof/Word.lean ====
section
/-! DEFINITION. The word types of the block (`00_scope.md` R8, R9; `20_memory.md` R60). -/

namespace Sys2Proof

/-- A byte: 8 bits, an unsigned value 0 to 255 (R8). Logical and physical bytes alike (R9). -/
abbrev Byte := BitVec 8

/-- 16 bits: the header field `size`, `RXCAP`, `RXCNT`, `IDX`. -/
abbrev Half := BitVec 16

/-- 32 bits: the host's data word, `DATA`, `TXVAL`, `CKSUM`. -/
abbrev Word := BitVec 32

/-- A host location number, `0x00000` to `0x3FFFF` (R60). -/
abbrev Loc := BitVec 18

end Sys2Proof
end

