-- ==== Sys2Proof/Config.lean ====
section
/-! DEFINITION. What one implementation fixes (`00_scope.md` R7), and the free values the spec leaves open. -/

namespace Sys2Proof

/-- The nine command codes `CC_*` (`45_host_session_reference.md` R216). Open parameters; the block never interprets them
(`30_encoding.md` R99). -/
structure CommandCodes where
  flashBegin : Byte
  flashData : Byte
  flashEnd : Byte
  memBegin : Byte
  memEnd : Byte
  memData : Byte
  sync : Byte
  writeReg : Byte
  readReg : Byte
  deriving DecidableEq, Repr

/-- The nine codes in the order the spec lists their names. -/
def CommandCodes.toList (c : CommandCodes) : List Byte :=
  [c.flashBegin, c.flashData, c.flashEnd, c.memBegin, c.memEnd, c.memData, c.sync, c.writeReg, c.readReg]

/-- The open parameters of the block (R7, D14, D17, D29), fixed for one machine. -/
structure Config where
  /-- `TXBUF_DEPTH`, 1 to 65535. -/
  txbufDepth : Nat
  /-- `RXBUF_DEPTH`, 1 to 65535. -/
  rxbufDepth : Nat
  /-- `RX_TIMEOUT_MS`, a positive number that fits the 15 bits of `TMR`. -/
  rxTimeoutMs : Nat
  /-- `CC_FLASH_BEGIN` ... `CC_READ_REG`. -/
  cc : CommandCodes
  deriving DecidableEq, Repr

namespace Config

/-- The ranges `92_eei_decisions.md` gives the open parameters; the nine codes are pairwise different. -/
def wf (c : Config) : Bool :=
  decide (1 ≤ c.txbufDepth ∧ c.txbufDepth ≤ 65535) && decide (1 ≤ c.rxbufDepth ∧ c.rxbufDepth ≤ 65535) &&
    decide (1 ≤ c.rxTimeoutMs ∧ c.rxTimeoutMs < 32768) && decide c.cc.toList.Nodup

/-- The defaults of R7. DESIGN CHOICE (log 3): the depths and the code numbers are the spec's suggestion, not a source's. -/
def default : Config where
  txbufDepth := 1040
  rxbufDepth := 1040
  rxTimeoutMs := 20000
  cc := ⟨0x02, 0x03, 0x04, 0x05, 0x06, 0x07, 0x08, 0x09, 0x0A⟩

/-- `DELIM`, the frame delimiter (R7). -/
def delim : Byte := 0xC0
/-- `ESC`, the escape byte (R7). -/
def esc : Byte := 0xDB
/-- `ESC_DELIM`, the second byte that stands for `DELIM` (R7). -/
def escDelim : Byte := 0xDC
/-- `ESC_ESC`, the second byte that stands for `ESC` (R7). -/
def escEsc : Byte := 0xDD
/-- `CK_INIT`, the initial checksum (R7). -/
def ckInit : Word := 0x000000EF

/-- FREE VALUE (log 2; `10_state.md` R51, U7): the byte `TXBUF[i]` holds after the reset number `epoch` until the host
writes it. -/
opaque freeTxByte : Nat → Nat → Byte

/-- FREE VALUE (log 2; `10_state.md` R51, U7): the byte `RXBUF[i]` holds after the reset number `epoch` until RECV
writes it. -/
opaque freeRxByte : Nat → Nat → Byte

end Config

end Sys2Proof
end

