-- ==== Sys2Proof/Syntax.lean ====
section
/-! DEFINITION. The rows of `spec/opcode_table.json`, each a constructor of `Instr`, and the packet header record
(`30_encoding.md` R90, R96, R104, R112). -/

namespace Sys2Proof

/-- The eight logical bytes of a packet header in wire order (`30_encoding.md` R96): the record `HDRB` holds
(`10_state.md` R23). -/
structure HdrBytes where
  h0 : Byte
  h1 : Byte
  h2 : Byte
  h3 : Byte
  h4 : Byte
  h5 : Byte
  h6 : Byte
  h7 : Byte
  deriving DecidableEq, Repr

/-- One constructor for each row of the opcode table, in the table's order. -/
inductive Instr where
  -- format CMD: the sixteen operation codes (R104)
  | nop
  | encb
  | decb
  | txdelim
  | send
  | recv
  | rspchk
  | rxflush
  | ckinit
  | ckupd
  | ckchk
  | reservedB
  | reservedC
  | reservedD
  | reservedE
  | reservedF
  -- formats W1 and W2: the wire symbols (R90)
  | lit (b : Byte)
  | wireEnd
  | escEnd
  | escEsc
  | escBad (t : Byte)
  -- format H8: the packet header (R96)
  | header (direction command : Byte) (size : Half) (value : Word)
  -- format CC: the command codes (R216)
  | ccFlashBegin
  | ccFlashData
  | ccFlashEnd
  | ccMemBegin
  | ccMemEnd
  | ccMemData
  | ccSync
  | ccWriteReg
  | ccReadReg
  deriving DecidableEq, Repr

end Sys2Proof
end

