-- ==== Sys2Proof/WellFormed.lean ====
section
/-! DEFINITION. Which terms of `Instr` the opcode table admits: the two rows with a constraint (`30_encoding.md` R90). -/

namespace Sys2Proof

/-- `LIT(b)`: any byte except `0xC0` and `0xDB` (R90). -/
def checkLit (b : Byte) : Bool := b != Config.delim && b != Config.esc

/-- `ESC_BAD(t)`: any second byte except `0xDC` and `0xDD` (R90, R105). -/
def checkEscBad (t : Byte) : Bool := t != Config.escDelim && t != Config.escEsc

/-- Every other row admits every value of its fields. -/
def Instr.wellFormed : Instr → Bool
  | .nop | .encb | .decb | .txdelim | .send | .recv | .rspchk | .rxflush | .ckinit | .ckupd | .ckchk => true
  | .reservedB | .reservedC | .reservedD | .reservedE | .reservedF => true
  | .lit b => checkLit b
  | .wireEnd | .escEnd | .escEsc => true
  | .escBad t => checkEscBad t
  | .header _ _ _ _ => true
  | .ccFlashBegin | .ccFlashData | .ccFlashEnd | .ccMemBegin | .ccMemEnd | .ccMemData => true
  | .ccSync | .ccWriteReg | .ccReadReg => true

end Sys2Proof
end

