-- ==== Sys2Proof/Decode.lean ====
section
/-! DEFINITION. The three encodings of the block (`30_encoding.md`): wire symbols and frames, the packet header, the
command word; the decoder, total on any bytes, and the encoder. -/

namespace Sys2Proof

/-! ## Wire symbols and frames (R90 to R95) -/

/-- `enc`: one logical byte as physical bytes (R92). -/
def enc (b : Byte) : List Byte :=
  if b = Config.delim then [Config.esc, Config.escDelim]
  else if b = Config.esc then [Config.esc, Config.escEsc]
  else [b]

/-- `encs`: a byte sequence as physical bytes (R92). -/
def encs : List Byte → List Byte
  | [] => []
  | b :: s => enc b ++ encs s

/-- The answers of the decoding function (R93). -/
inductive Dec where
  | ok (b : Byte) (rest : List Byte)
  | err (rest : List Byte)
  | more
  deriving DecidableEq, Repr

/-- The logical byte an escape pair stands for, by its second byte; `none` for a framing error (R90, R93). -/
def unpair (t : Byte) : Option Byte :=
  if t = Config.escDelim then some Config.delim else if t = Config.escEsc then some Config.esc else none

/-- `dec1`: the first logical byte of a physical sequence (R93). -/
def dec1 : List Byte → Dec
  | [] => .more
  | p :: r =>
    if p = Config.esc then
      match r with
      | [] => .more
      | t :: r' =>
        match unpair t with
        | some b => .ok b r'
        | none => .err r'
    else .ok p r

/-- `dec1` applied `n` times: the `n` logical bytes and the physical bytes behind them; `none` where one of the results is
`Err` or `More` (R93, `42_packet_rx.md` R170). -/
def decN : Nat → List Byte → Option (List Byte × List Byte)
  | 0, q => some ([], q)
  | n + 1, q =>
    match dec1 q with
    | .ok b q' =>
      match decN n q' with
      | some (s, r) => some (b :: s, r)
      | none => none
    | .err _ => none
    | .more => none

/-- How many bytes of a sequence need an escape: the `k` of R95 and R147. -/
def escapes (s : List Byte) : Nat := s.countP (fun b => b = Config.delim ∨ b = Config.esc)

/-! ## The packet header (R96, R97) -/

namespace HdrBytes

/-- Header byte `i`, for `i` from 0 to 7. -/
def get (h : HdrBytes) : Nat → Byte
  | 0 => h.h0
  | 1 => h.h1
  | 2 => h.h2
  | 3 => h.h3
  | 4 => h.h4
  | 5 => h.h5
  | 6 => h.h6
  | _ => h.h7

/-- Write header byte `i`, for `i` from 0 to 7. -/
def set (h : HdrBytes) (i : Nat) (b : Byte) : HdrBytes :=
  match i with
  | 0 => { h with h0 := b }
  | 1 => { h with h1 := b }
  | 2 => { h with h2 := b }
  | 3 => { h with h3 := b }
  | 4 => { h with h4 := b }
  | 5 => { h with h5 := b }
  | 6 => { h with h6 := b }
  | _ => { h with h7 := b }

/-- The eight bytes in wire order. -/
def toList (h : HdrBytes) : List Byte := [h.h0, h.h1, h.h2, h.h3, h.h4, h.h5, h.h6, h.h7]

/-- `direction = h[0]` (R97). -/
def direction (h : HdrBytes) : Byte := h.h0

/-- `command = h[1]` (R97). -/
def command (h : HdrBytes) : Byte := h.h1

/-- `size = {h[3], h[2]}`, little-endian (R97). -/
def size (h : HdrBytes) : Half := h.h3 ++ h.h2

/-- `value = {h[7], h[6], h[5], h[4]}`, little-endian (R97). -/
def value (h : HdrBytes) : Word := h.h7 ++ h.h6 ++ h.h5 ++ h.h4

/-- Serialisation, the inverse of the four fields (R97; `TXH` of `41_packet_tx.md` R142). -/
def ofFields (direction command : Byte) (size : Half) (value : Word) : HdrBytes where
  h0 := direction
  h1 := command
  h2 := size.extractLsb' 0 8
  h3 := size.extractLsb' 8 8
  h4 := value.extractLsb' 0 8
  h5 := value.extractLsb' 8 8
  h6 := value.extractLsb' 16 8
  h7 := value.extractLsb' 24 8

/-- Eight bytes, and no other number, are a header. -/
def ofList : List Byte → Option HdrBytes
  | [a, b, c, d, e, f, g, h] => some ⟨a, b, c, d, e, f, g, h⟩
  | _ => none

end HdrBytes

/-- `frame(H, P)`: delimiter, escaped header and payload, delimiter (R94). -/
def frame (h : HdrBytes) (p : List Byte) : List Byte :=
  Config.delim :: (encs (h.toList ++ p) ++ [Config.delim])

/-! ## The decoder -/

/-- A word in one of the formats of the opcode table (R112). -/
inductive Encoded where
  /-- Format CMD: the 32-bit value of a host write to location 0 (R103). -/
  | cmd (v : Word)
  /-- Formats W1 and W2: physical bytes, byte 0 first on the wire (R90). -/
  | wire (bytes : List Byte)
  /-- Format H8: logical bytes, byte 0 first (R96). -/
  | hdr (bytes : List Byte)
  /-- Format CC: a value of the header field `command` (R99, R216). -/
  | code (b : Byte)
  deriving DecidableEq, Repr

/-- Why bytes are no instruction. -/
inductive DecodeError where
  /-- No byte at all. -/
  | noBytes
  /-- A lone escape byte: the second byte of the symbol has yet to come (R91). -/
  | truncatedSymbol
  /-- Bytes beyond the end of one symbol (R91). -/
  | trailingBytes
  /-- Not eight bytes (R96). -/
  | headerLength
  /-- A byte that is none of the nine codes (R99). -/
  | notACommandCode
  deriving DecidableEq, Repr

/-- The operation of a 4-bit code (R104). The last row is code `0xF`, the only value left of four bits. -/
def decodeOp (op : BitVec 4) : Instr :=
  match op.toNat with
  | 0x0 => .nop
  | 0x1 => .encb
  | 0x2 => .decb
  | 0x3 => .txdelim
  | 0x4 => .send
  | 0x5 => .recv
  | 0x6 => .rspchk
  | 0x7 => .rxflush
  | 0x8 => .ckinit
  | 0x9 => .ckupd
  | 0xA => .ckchk
  | 0xB => .reservedB
  | 0xC => .reservedC
  | 0xD => .reservedD
  | 0xE => .reservedE
  | _ => .reservedF

/-- The code in bits 3:0 of a command word; bits 31:4 are ignored (R103). -/
def opField (v : Word) : BitVec 4 := v.extractLsb' 0 4

/-- One whole wire symbol (R90, R91). -/
def decodeSymbol : List Byte → Except DecodeError Instr
  | [] => .error .noBytes
  | [p] =>
    if p = Config.esc then .error .truncatedSymbol
    else if p = Config.delim then .ok .wireEnd
    else .ok (.lit p)
  | [p, t] =>
    if p = Config.esc then
      if t = Config.escDelim then .ok .escEnd
      else if t = Config.escEsc then .ok .escEsc
      else .ok (.escBad t)
    else .error .trailingBytes
  | _ :: _ :: _ :: _ => .error .trailingBytes

/-- Eight logical bytes as a header (R96, R97): every bit pattern is one. -/
def decodeHeader (bytes : List Byte) : Except DecodeError Instr :=
  match HdrBytes.ofList bytes with
  | some h => .ok (.header h.direction h.command h.size h.value)
  | none => .error .headerLength

/-- The command code a byte is, if it is one (R216). -/
def decodeCode (c : CommandCodes) (b : Byte) : Except DecodeError Instr :=
  if b = c.flashBegin then .ok .ccFlashBegin
  else if b = c.flashData then .ok .ccFlashData
  else if b = c.flashEnd then .ok .ccFlashEnd
  else if b = c.memBegin then .ok .ccMemBegin
  else if b = c.memEnd then .ok .ccMemEnd
  else if b = c.memData then .ok .ccMemData
  else if b = c.sync then .ok .ccSync
  else if b = c.writeReg then .ok .ccWriteReg
  else if b = c.readReg then .ok .ccReadReg
  else .error .notACommandCode

/-- The decoder: total, rejecting by name. -/
def decode (c : Config) : Encoded → Except DecodeError Instr
  | .cmd v => .ok (decodeOp (opField v))
  | .wire bytes => decodeSymbol bytes
  | .hdr bytes => decodeHeader bytes
  | .code b => decodeCode c.cc b

/-! ## The encoder -/

/-- The command word of a code, bits 31:4 zero, as the notation of R110 writes it. -/
def cmdWord (op : BitVec 4) : Word := op.setWidth 32

/-- The words of an instruction, from the encoding tables R90, R96, R104, R216. -/
def encode (c : Config) : Instr → Encoded
  | .nop => .cmd (cmdWord 0x0)
  | .encb => .cmd (cmdWord 0x1)
  | .decb => .cmd (cmdWord 0x2)
  | .txdelim => .cmd (cmdWord 0x3)
  | .send => .cmd (cmdWord 0x4)
  | .recv => .cmd (cmdWord 0x5)
  | .rspchk => .cmd (cmdWord 0x6)
  | .rxflush => .cmd (cmdWord 0x7)
  | .ckinit => .cmd (cmdWord 0x8)
  | .ckupd => .cmd (cmdWord 0x9)
  | .ckchk => .cmd (cmdWord 0xA)
  | .reservedB => .cmd (cmdWord 0xB)
  | .reservedC => .cmd (cmdWord 0xC)
  | .reservedD => .cmd (cmdWord 0xD)
  | .reservedE => .cmd (cmdWord 0xE)
  | .reservedF => .cmd (cmdWord 0xF)
  | .lit b => .wire [b]
  | .wireEnd => .wire [Config.delim]
  | .escEnd => .wire [Config.esc, Config.escDelim]
  | .escEsc => .wire [Config.esc, Config.escEsc]
  | .escBad t => .wire [Config.esc, t]
  | .header direction command size value => .hdr (HdrBytes.ofFields direction command size value).toList
  | .ccFlashBegin => .code c.cc.flashBegin
  | .ccFlashData => .code c.cc.flashData
  | .ccFlashEnd => .code c.cc.flashEnd
  | .ccMemBegin => .code c.cc.memBegin
  | .ccMemEnd => .code c.cc.memEnd
  | .ccMemData => .code c.cc.memData
  | .ccSync => .code c.cc.sync
  | .ccWriteReg => .code c.cc.writeReg
  | .ccReadReg => .code c.cc.readReg

/-! ## The table's numbering -/

/-- The word of `nbits` bits that `spec/opcode_table.json` numbers as `w` (log 9): a command word for 32 bits, a header
with logical byte 0 in bits 7:0 for 64 bits, a two-byte symbol with byte 0 in bits 15:8 for 16 bits (the table's patterns
are written byte 0 leftmost). Eight bits are a command code where the default parameters name one, else a one-byte
symbol. -/
def tableWord (nbits w : Nat) : Option Encoded :=
  if w < 2 ^ nbits then
    match nbits with
    | 32 => some (.cmd (BitVec.ofNat 32 w))
    | 64 => some (.hdr ((List.range 8).map fun i => BitVec.ofNat 8 (w / 256 ^ i)))
    | 16 => some (.wire [BitVec.ofNat 8 (w / 256), BitVec.ofNat 8 w])
    | 8 =>
      if BitVec.ofNat 8 w ∈ Config.default.cc.toList then some (.code (BitVec.ofNat 8 w))
      else some (.wire [BitVec.ofNat 8 w])
    | _ => none
  else none

/-- What the decoder reads from a table word. -/
def decodeTableWord (nbits w : Nat) : Option Instr :=
  match tableWord nbits w with
  | some e =>
    match decode Config.default e with
    | .ok i => some i
    | .error _ => none
  | none => none

end Sys2Proof
end

