-- ==== Sys2Proof/Machine/State.lean ====
section
/-! DEFINITION. The state of the block and of its environment (`10_state.md` R20 to R51), the reasons a step can stop,
and the state after reset. -/

namespace Sys2Proof.Machine

/-- The sequencer's phase `PH` (`10_state.md` R40). -/
inductive Phase where
  | idle
  | enc
  | dec
  | dlm
  | sOpen
  | sHdr
  | sPay
  | sClose
  | rWait
  | rHdr
  | rPay
  | flush
  deriving DecidableEq, Repr

/-- The outcome `ERR` of the last completed operation (`10_state.md` R28); code 7 is never produced. -/
inductive Err where
  | none
  | framing
  | timeout
  | bufsmall
  | proto
  | channel
  | badcmd
  deriving DecidableEq, Repr

/-- One event of a run, other than what the block does by itself (`10_state.md` R41). -/
inductive Event where
  /-- `HostWrite(a, v)`, `20_memory.md` R62. -/
  | hostWrite (a : Loc) (v : Word)
  /-- `HostRead(a)`, `20_memory.md` R61. -/
  | hostRead (a : Loc)
  /-- `Arrive(b)`, R47. -/
  | arrive (b : Byte)
  /-- `Tick`, R46. -/
  | tick
  /-- `ChanFault`, R45. -/
  | chanFault
  /-- `Reset`, R51. -/
  | reset
  /-- The turn of the block: its one enabled step (`TxPut`, `RxTake`, `FlushEnd`), if it has one (R41). -/
  | block
  deriving DecidableEq, Repr

/-- Buffer contents: the bytes written since reset by index, indices strictly rising (log 18). -/
abbrev Memory := List Host.Cell

/-- The canonical form of a buffer: indices strictly rising. An unlisted index holds no written byte, so no entry equals
what an unlisted index holds. -/
def Memory.wf : Memory → Bool
  | [] => true
  | [_] => true
  | (a, _) :: (b, v) :: m => decide (a < b) && Memory.wf ((b, v) :: m)

/-- The whole state: the block (R20), the serial channel (R48, R49), the configuration (R7), and the model's own fields
`hostLog`, `inputs`, `epoch`. -/
structure State where
  /-- The open parameters, fixed for one machine (`00_scope.md` R7). -/
  cfg : Config
  /-- `DATA`, R21. -/
  data : Word
  /-- `TXDIR`, R22. -/
  txdir : Byte
  /-- `TXCMD`, R22. -/
  txcmd : Byte
  /-- `TXSIZE`, R22. -/
  txsize : Half
  /-- `TXVAL`, R22. -/
  txval : Word
  /-- `RXCAP`, R24. -/
  rxcap : Half
  /-- `HDRB[0..7]`, R23. -/
  hdrb : HdrBytes
  /-- `RXCNT`, R25. -/
  rxcnt : Half
  /-- `CKSUM`, R37. -/
  cksum : Word
  /-- `TMR`, R36. -/
  tmr : BitVec 15
  /-- `DONE`, R27. -/
  done : Bool
  /-- `ERR`, R28. -/
  err : Err
  /-- `RXV`, R29. -/
  rxv : Bool
  /-- `CKOK`, R30. -/
  ckok : Bool
  /-- `RSPOK`, R31. -/
  rspok : Bool
  /-- `OVR`, R32. -/
  ovr : Bool
  /-- `CHF`, R33. -/
  chf : Bool
  /-- `TXBUF`, R38. -/
  txbuf : Memory
  /-- `RXBUF`, R39. -/
  rxbuf : Memory
  /-- `OP`, R40. -/
  op : BitVec 4
  /-- `PH`, R40. -/
  ph : Phase
  /-- `IDX`, R40. -/
  idx : Half
  /-- `ESCP`, R40. -/
  escp : Bool
  /-- `RXQ`, R48, oldest first. -/
  rxq : List Byte
  /-- `TXLOG`, R49, oldest first. -/
  txlog : List Byte
  /-- MODEL'S OWN (log 5): the values host reads returned, oldest first. -/
  hostLog : List Word
  /-- MODEL'S OWN (log 1): the coming events, oldest first. -/
  inputs : List Event
  /-- MODEL'S OWN (log 2): how many `Reset` events have happened; selects the free buffer contents. -/
  epoch : Nat
  deriving DecidableEq, Repr

/-- What stops the machine. None of these is reached from a state that meets the invariant `Invariant` of Safety.lean; the
spec has no rule for them (`20_memory.md` R77, log 11). -/
inductive Fault where
  /-- Raised by a step of SEND or RECV that would use a header index above 7; safe. -/
  | headerIndex
  /-- Raised by a step of SEND that would read `TXBUF` at or beyond `TXBUF_DEPTH`; safe. -/
  | txbufIndex
  /-- Raised by a step of RECV that would write `RXBUF` at or beyond `RXBUF_DEPTH`; safe. -/
  | rxbufIndex
  deriving DecidableEq, Repr

/-- Why an instruction has no meaning. -/
inductive Refusal where
  /-- Raised only by an arm of `exec` whose instruction has no meaning yet, with its mnemonic; safe. -/
  | notModelled (mnemonic : String)
  deriving DecidableEq, Repr

/-- The state after `Reset` (`10_state.md` R51). The environment's part (`rxq`, `txlog`), the configuration and the
model's own fields, for which `Reset` gives nothing, are DESIGN CHOICE (log 2, 3, 4, 5). -/
def State.reset : State where
  cfg := Config.default
  data := 0
  txdir := 0
  txcmd := 0
  txsize := 0
  txval := 0
  rxcap := 0
  hdrb := ⟨0, 0, 0, 0, 0, 0, 0, 0⟩
  rxcnt := 0
  cksum := Config.ckInit
  tmr := 0
  done := false
  err := .none
  rxv := false
  ckok := false
  rspok := false
  ovr := false
  chf := false
  txbuf := []
  rxbuf := []
  op := 0
  ph := .idle
  idx := 0
  escp := false
  rxq := []
  txlog := []
  hostLog := []
  inputs := []
  epoch := 0

end Sys2Proof.Machine
end

