-- ==== Sys2Proof/Machine/Flags.lean ====
section
/-! DEFINITION. Flags: the derived flags `BUSY` and `RXAV`, the `STATUS` view, the outcome codes, and the two result
predicates `CKOK` and `RSPOK` (`10_state.md` R26 to R34). -/

namespace Sys2Proof.Machine

/-- `BUSY`, 1 while an operation is in progress: `PH != IDLE` (R26, R40). -/
def State.busy (s : State) : Bool := s.ph != .idle

/-- `RXAV`, the live value of `SerAvail()` (R34). -/
def State.rxav (s : State) : Bool := !s.rxq.isEmpty

/-- The 3-bit outcome codes (R28). -/
def Err.code : Err → BitVec 3
  | .none => 0
  | .framing => 1
  | .timeout => 2
  | .bufsmall => 3
  | .proto => 4
  | .channel => 5
  | .badcmd => 6

/-- The `STATUS` view (R26): bit 0 `BUSY`, 1 `DONE`, 4:2 `ERR`, 5 `RXV`, 6 `CKOK`, 7 `RSPOK`, 8 `OVR`, 9 `CHF`,
10 `RXAV`, 31:11 zero. -/
def State.status (s : State) : Word :=
  0#21 ++ BitVec.ofBool s.rxav ++ BitVec.ofBool s.chf ++ BitVec.ofBool s.ovr ++ BitVec.ofBool s.rspok ++
    BitVec.ofBool s.ckok ++ BitVec.ofBool s.rxv ++ s.err.code ++ BitVec.ofBool s.done ++ BitVec.ofBool s.busy

/-- The comparison of CKCHK, over all 32 bits (`43_checksum.md` R196). -/
def State.cksumMatches (s : State) : Bool := s.cksum == s.data

/-- The response acceptance predicate of RSPCHK (`42_packet_rx.md` R175), given the byte `RXBUF[0]` holds (log 22). -/
def State.responseAccepted (s : State) (first : Byte) : Bool :=
  s.rxv && s.hdrb.direction == 1 && s.hdrb.command == s.data.extractLsb' 0 8 && decide (1 ≤ s.hdrb.size.toNat) &&
    first == 0

end Sys2Proof.Machine
end

