-- ==== Sys2Proof/Machine/Ops.lean ====
section
/-! DEFINITION. The operations every instruction shares: the buffers, acceptance and completion of an operation (what
stands for taking an exception and returning from one), the serial channel, command dispatch. -/

namespace Sys2Proof.Machine

/-! ## Buffers -/

/-- The byte written last at an index, if any. -/
def Memory.lookup : Memory → Nat → Option Byte
  | [], _ => none
  | (k, b) :: m, a => if a = k then some b else Memory.lookup m a

/-- Write one byte, keeping the indices strictly rising. -/
def Memory.store : Memory → Nat → Byte → Memory
  | [], a, b => [(a, b)]
  | (k, c) :: m, a, b =>
    if a < k then (a, b) :: (k, c) :: m
    else if a = k then (a, b) :: m
    else (k, c) :: Memory.store m a b

/-- `TXBUF[i]`: what was written since reset, else the free byte of this epoch (R38, R51, log 2). -/
def State.txByte (s : State) (i : Nat) : Byte := (s.txbuf.lookup i).getD (Config.freeTxByte s.epoch i)

/-- `RXBUF[i]`: what was written since reset, else the free byte of this epoch (R39, R51, log 2). -/
def State.rxByte (s : State) (i : Nat) : Byte := (s.rxbuf.lookup i).getD (Config.freeRxByte s.epoch i)

/-! ## Acceptance and completion -/

/-- `Accept(op)` (R42). It is also how the host returns from a failed completion (`60_exceptions.md` R261). -/
def accept (op : BitVec 4) (s : State) : State :=
  { s with op := op, done := false, err := .none, escp := false, idx := 0 }

/-- `Complete(e)` (R43). With `e` other than `NONE` it is the failed completion, what stands for taking an exception
(`60_exceptions.md` R260). -/
def complete (e : Err) (s : State) : State :=
  { s with err := e, done := true, ph := .idle, escp := false }

/-! ## The serial channel -/

/-- `SerPut(b)` (`20_memory.md` R65). -/
def serPut (b : Byte) (s : State) : State := { s with txlog := s.txlog ++ [b] }

/-! ## Command dispatch -/

/-- A write of the code `op` to `CMD`: dropped with `OVR` while busy (`20_memory.md` R62, `44_control_ops.md` R208), else
accepted, and `start` runs in the same step (`10_state.md` R44). -/
def command (op : BitVec 4) (start : State → State) (s : State) : State :=
  if s.busy then { s with ovr := true } else start (accept op s)

/-- The dispatch of a channel operation: after acceptance `CHF` is tested before anything else (`10_state.md` R44,
`60_exceptions.md` R259). -/
def channelCommand (op : BitVec 4) (start : State → State) (s : State) : State :=
  command op (fun t => if t.chf then complete .channel t else start t) s

end Sys2Proof.Machine
end

