-- ==== Sys2Proof/Machine/Operands.lean ====
section
/-! DEFINITION. Operands: the header bytes SEND sends, the host's view of every location, and the host's plain writes
(`20_memory.md` R61 to R63). -/

namespace Sys2Proof.Machine

/-- The logical byte ENCB encodes and CKUPD folds, `DATA[7:0]` (`10_state.md` R21). -/
def State.dataByte (s : State) : Byte := s.data.extractLsb' 0 8

/-- The header SEND sends; `TXH(i)` is its byte `i` (`41_packet_tx.md` R142). -/
def State.txHeader (s : State) : HdrBytes := HdrBytes.ofFields s.txdir s.txcmd s.txsize s.txval

/-- The payload SEND sends, `TXBUF[0 .. TXSIZE-1]` (R140). -/
def State.txPayload (s : State) : List Byte := (List.range s.txsize.toNat).map s.txByte

/-- The payload RECV has stored, `RXBUF[0 .. RXCNT-1]` (`10_state.md` R25). -/
def State.rxPayload (s : State) : List Byte := (List.range s.rxcnt.toNat).map s.rxByte

/-- `HostRead(a)`: the value a location reads as (R61, R63). -/
def hostRead (s : State) (a : Loc) : Word :=
  match a.toNat with
  | 0x00 => 0
  | 0x01 => s.status
  | 0x02 => s.data
  | 0x03 => s.txdir.setWidth 32
  | 0x04 => s.txcmd.setWidth 32
  | 0x05 => s.txsize.setWidth 32
  | 0x06 => s.txval
  | 0x07 => s.rxcap.setWidth 32
  | 0x08 => s.hdrb.direction.setWidth 32
  | 0x09 => s.hdrb.command.setWidth 32
  | 0x0A => s.hdrb.size.setWidth 32
  | 0x0B => s.hdrb.value
  | 0x0C => s.rxcnt.setWidth 32
  | 0x0D => s.cksum
  | 0x0E => s.tmr.setWidth 32
  | n =>
    if 0x10000 ≤ n ∧ n < 0x10000 + s.cfg.txbufDepth then (s.txByte (n - 0x10000)).setWidth 32
    else if 0x20000 ≤ n ∧ n < 0x20000 + s.cfg.rxbufDepth then (s.rxByte (n - 0x20000)).setWidth 32
    else 0

/-- What a host write to a location other than `CMD` stores while the block is idle (R62): a read/write register takes
the value truncated to its width, a `TXBUF` location its low byte; every other location is read-only or unmapped. -/
def storeLoc (a : Loc) (v : Word) (s : State) : State :=
  match a.toNat with
  | 0x02 => { s with data := v }
  | 0x03 => { s with txdir := v.setWidth 8 }
  | 0x04 => { s with txcmd := v.setWidth 8 }
  | 0x05 => { s with txsize := v.setWidth 16 }
  | 0x06 => { s with txval := v }
  | 0x07 => { s with rxcap := v.setWidth 16 }
  | n =>
    if 0x10000 ≤ n ∧ n < 0x10000 + s.cfg.txbufDepth then
      { s with txbuf := s.txbuf.store (n - 0x10000) (v.setWidth 8) }
    else s

/-- `HostWrite(a, v)` for every location but `CMD` (R62): dropped with `OVR` while busy, whatever the location. -/
def hostStore (a : Loc) (v : Word) (s : State) : State :=
  if s.busy then { s with ovr := true } else storeLoc a v s

end Sys2Proof.Machine
end

