-- ==== Sys2Proof/Machine/Checksum.lean ====
section
/-! DEFINITION. The checksum function and the operations CKINIT, CKUPD, CKCHK (`43_checksum.md`). The unit is the XOR
fold, not a CRC-32 (`90_conflicts.md` C1). -/

namespace Sys2Proof.Machine

/-- One byte folded into the running value, zero-extended (R190, R193, D19). -/
def ckFold (c : Word) (b : Byte) : Word := c ^^^ b.setWidth 32

/-- `ck(S)` (R190). -/
def checksum (bytes : List Byte) : Word := bytes.foldl ckFold Config.ckInit

/-- CKINIT (R191). -/
def execCkinit (s : State) : Host.Outcome State Fault Refusal :=
  .next (command 0x8 (fun t => complete .none { t with cksum := Config.ckInit }) s)

/-- CKUPD (R193). -/
def execCkupd (s : State) : Host.Outcome State Fault Refusal :=
  .next (command 0x9 (fun t => complete .none { t with cksum := ckFold t.cksum t.dataByte }) s)

/-- CKCHK (R196): a mismatch is `CKOK = 0`, not an error. -/
def execCkchk (s : State) : Host.Outcome State Fault Refusal :=
  .next (command 0xA (fun t => complete .none { t with ckok := t.cksumMatches }) s)

end Sys2Proof.Machine
end

