-- ==== Sys2Proof/Machine/Codec.lean ====
section
/-! DEFINITION. The framing codec operations ENCB, DECB, TXDELIM and the transmit escaper (`40_framing_codec.md`). The
receive unescaper stands in PacketRx.lean beside its three users. -/

namespace Sys2Proof.Machine

/-- The transmit escaper (R120): one `TxPut` for the logical byte `cur`; `advance` is the operation's "this logical byte
is done". -/
def txEscape (cur : Byte) (advance : State → State) (s : State) : State :=
  if s.escp then
    advance { serPut (if cur = Config.delim then Config.escDelim else Config.escEsc) s with escp := false }
  else if cur = Config.delim ∨ cur = Config.esc then { serPut Config.esc s with escp := true }
  else advance (serPut cur s)

/-- The `TxPut` step of ENCB (R124). -/
def encbPut (s : State) : State := txEscape s.dataByte (complete .none) s

/-- The `TxPut` step of TXDELIM (R131). -/
def delimPut (s : State) : State := complete .none (serPut Config.delim s)

/-- ENCB (R124): starts in phase `ENC`. -/
def execEncb (s : State) : Host.Outcome State Fault Refusal :=
  .next (channelCommand 0x1 (fun t => { t with ph := .enc }) s)

/-- DECB (R127): starts in phase `DEC`. -/
def execDecb (s : State) : Host.Outcome State Fault Refusal :=
  .next (channelCommand 0x2 (fun t => { t with ph := .dec }) s)

/-- TXDELIM (R131): starts in phase `DLM`. -/
def execTxdelim (s : State) : Host.Outcome State Fault Refusal :=
  .next (channelCommand 0x3 (fun t => { t with ph := .dlm }) s)

end Sys2Proof.Machine
end

