-- ==== Sys2Proof/Machine/CommandCodes.lean ====
section
/-! DEFINITION. The nine command codes as the host gives them to the block: a write of the code to `TXCMD`, the header
field `command` of the packet to send (`10_state.md` R22, `30_encoding.md` R99, `45_host_session_reference.md` R216,
log 8). The block never interprets the code. -/

namespace Sys2Proof.Machine

/-- `WR TXCMD, code` (`20_memory.md` R62, R63). -/
def loadCommandCode (code : Byte) (s : State) : Host.Outcome State Fault Refusal :=
  .next (hostStore 0x04 (code.setWidth 32) s)

/-- `CC_FLASH_BEGIN` (R216). -/
def execCcFlashBegin (s : State) : Host.Outcome State Fault Refusal := loadCommandCode s.cfg.cc.flashBegin s

/-- `CC_FLASH_DATA` (R216). -/
def execCcFlashData (s : State) : Host.Outcome State Fault Refusal := loadCommandCode s.cfg.cc.flashData s

/-- `CC_FLASH_END` (R216). -/
def execCcFlashEnd (s : State) : Host.Outcome State Fault Refusal := loadCommandCode s.cfg.cc.flashEnd s

/-- `CC_MEM_BEGIN` (R216). -/
def execCcMemBegin (s : State) : Host.Outcome State Fault Refusal := loadCommandCode s.cfg.cc.memBegin s

/-- `CC_MEM_END` (R216). -/
def execCcMemEnd (s : State) : Host.Outcome State Fault Refusal := loadCommandCode s.cfg.cc.memEnd s

/-- `CC_MEM_DATA` (R216). -/
def execCcMemData (s : State) : Host.Outcome State Fault Refusal := loadCommandCode s.cfg.cc.memData s

/-- `CC_SYNC` (R216). -/
def execCcSync (s : State) : Host.Outcome State Fault Refusal := loadCommandCode s.cfg.cc.sync s

/-- `CC_WRITE_REG` (R216). -/
def execCcWriteReg (s : State) : Host.Outcome State Fault Refusal := loadCommandCode s.cfg.cc.writeReg s

/-- `CC_READ_REG` (R216). -/
def execCcReadReg (s : State) : Host.Outcome State Fault Refusal := loadCommandCode s.cfg.cc.readReg s

end Sys2Proof.Machine
end

