-- ==== Sys2Proof/Machine/Control.lean ====
section
/-! DEFINITION. The control operations: NOP and the five reserved codes (`44_control_ops.md` R205, R207). -/

namespace Sys2Proof.Machine

/-- NOP (R205): acceptance and a completion with `NONE`. -/
def execNop (s : State) : Host.Outcome State Fault Refusal :=
  .next (command 0x0 (complete .none) s)

/-- Reserved code `0xB` (R207): completes with `BADCMD`; `OP` holds the code. -/
def execReservedB (s : State) : Host.Outcome State Fault Refusal :=
  .next (command 0xB (complete .badcmd) s)

/-- Reserved code `0xC` (R207). -/
def execReservedC (s : State) : Host.Outcome State Fault Refusal :=
  .next (command 0xC (complete .badcmd) s)

/-- Reserved code `0xD` (R207). -/
def execReservedD (s : State) : Host.Outcome State Fault Refusal :=
  .next (command 0xD (complete .badcmd) s)

/-- Reserved code `0xE` (R207). -/
def execReservedE (s : State) : Host.Outcome State Fault Refusal :=
  .next (command 0xE (complete .badcmd) s)

/-- Reserved code `0xF` (R207). -/
def execReservedF (s : State) : Host.Outcome State Fault Refusal :=
  .next (command 0xF (complete .badcmd) s)

end Sys2Proof.Machine
end

