-- ==== Sys2Proof/Machine/PacketRx.lean ====
section
/-! DEFINITION. The packet receive operations RECV, RSPCHK, RXFLUSH (`42_packet_rx.md`), the receive unescaper
(`40_framing_codec.md` R121) and the block step `RxTake`. -/

namespace Sys2Proof.Machine

/-- RECV, start (R161): `BADCMD` when `RXCAP > RXBUF_DEPTH`, else the receive window opens. -/
def recvStart (t : State) : State :=
  if t.rxcap.toNat > t.cfg.rxbufDepth then complete .badcmd t
  else { t with rxv := false, rxcnt := 0, tmr := 0, ph := .rWait }

/-- RECV (R160). -/
def execRecv (s : State) : Host.Outcome State Fault Refusal :=
  .next (channelCommand 0x5 recvStart s)

/-- RSPCHK (R175): `RSPOK` takes the predicate, and its failure is `PROTO`. -/
def rspchkRun (t : State) : State :=
  let ok := t.responseAccepted (t.rxByte 0)
  complete (if ok then .none else .proto) { t with rspok := ok }

/-- RSPCHK (R175): instant, not affected by `CHF`. -/
def execRspchk (s : State) : Host.Outcome State Fault Refusal :=
  .next (command 0x6 rspchkRun s)

/-- RXFLUSH (R178): starts in phase `FLUSH`. -/
def execRxflush (s : State) : Host.Outcome State Fault Refusal :=
  .next (channelCommand 0x7 (fun t => { t with ph := .flush }) s)

/-- The capacity check, at the eighth header byte, `HDRB` complete (R166). -/
def headerReceived (s : State) : State :=
  if s.hdrb.size.toNat > s.rxcap.toNat then complete .bufsmall s
  else if s.hdrb.size = 0 then complete .none { s with rxv := true }
  else { s with ph := .rPay, idx := 0 }

/-- `Deliver(b)` in `R_HDR` (R165, R166). -/
def deliverHeader (b : Byte) (s : State) : Host.Outcome State Fault Refusal :=
  if s.idx.toNat < 7 then .next { s with hdrb := s.hdrb.set s.idx.toNat b, idx := s.idx + 1 }
  else if s.idx.toNat = 7 then .next (headerReceived { s with hdrb := s.hdrb.set 7 b })
  else .fault .headerIndex

/-- Store payload byte `IDX` and count it (R167). The bytes at and above `RXCNT` keep what they held (`10_state.md` R39,
log 20). -/
def storePayload (b : Byte) (s : State) : State :=
  { s with rxbuf := s.rxbuf.store s.idx.toNat b, rxcnt := s.idx + 1 }

/-- `Deliver(b)` in `R_PAY` (R167); the buffer has no byte at `RXBUF_DEPTH` or beyond (`20_memory.md` R77). -/
def deliverPayload (b : Byte) (s : State) : Host.Outcome State Fault Refusal :=
  if s.idx.toNat < s.cfg.rxbufDepth then
    if s.idx.toNat + 1 = s.hdrb.size.toNat then .next (complete .none { storePayload b s with rxv := true })
    else .next { storePayload b s with idx := s.idx + 1 }
  else .fault .rxbufIndex

/-- `Deliver(b)` of the operation in progress: DECB (R127), or RECV's header and payload (R165 to R167). The other phases
await no logical byte. -/
def deliver (b : Byte) (s : State) : Host.Outcome State Fault Refusal :=
  match s.ph with
  | .dec => .next (complete .none { s with data := b.setWidth 32 })
  | .rHdr => deliverHeader b s
  | .rPay => deliverPayload b s
  | .idle | .enc | .dlm | .sOpen | .sHdr | .sPay | .sClose | .rWait | .flush => .next s

/-- The second byte of an escape pair taken (R121, the case `ESCP == 1`). -/
def unescapePair (t : Byte) (s : State) : Host.Outcome State Fault Refusal :=
  match unpair t with
  | some b => deliver b { s with escp := false }
  | none => .next (complete .framing { s with escp := false })

/-- The receive unescaper (R121): one physical byte `p` taken. -/
def unescape (p : Byte) (s : State) : Host.Outcome State Fault Refusal :=
  if s.escp then unescapePair p s
  else if p = Config.esc then .next { s with escp := true }
  else deliver p s

/-- The first byte of RECV, compared raw (R163). -/
def firstByte (c : Byte) (s : State) : State :=
  if c = Config.delim then { s with ph := .rHdr, idx := 0 } else complete .framing s

/-- What the block does with the physical byte `p` at the head of the receive stream, `s` being the state with the byte
already removed: `RxTake` in the phases that have it (`10_state.md` R40), and in every other phase the byte waits in
`RXQ` (R47). -/
def receive (p : Byte) (s : State) : Host.Outcome State Fault Refusal :=
  match s.ph with
  | .rWait => .next (firstByte p s)
  | .dec | .rHdr | .rPay => unescape p s
  | .flush => .next s
  | .idle | .enc | .dlm | .sOpen | .sHdr | .sPay | .sClose => .next { s with rxq := p :: s.rxq }

end Sys2Proof.Machine
end

