-- ==== Sys2Proof/Machine/PacketTx.lean ====
section
/-! DEFINITION. The packet transmit operation SEND (`41_packet_tx.md`) and the block step `TxPut` of every transmit
phase. -/

namespace Sys2Proof.Machine

/-- SEND, start (R141): `BADCMD` when `TXSIZE > TXBUF_DEPTH`, else phase `S_OPEN`. -/
def sendStart (t : State) : State :=
  if t.txsize.toNat > t.cfg.txbufDepth then complete .badcmd t else { t with ph := .sOpen }

/-- SEND (R140). -/
def execSend (s : State) : Host.Outcome State Fault Refusal :=
  .next (channelCommand 0x4 sendStart s)

/-- The opening delimiter (R143). -/
def openPut (s : State) : State := { serPut Config.delim s with ph := .sHdr, idx := 0 }

/-- `Advance` in `S_HDR` (R143). -/
def hdrAdvance (s : State) : State :=
  if s.idx.toNat < 7 then { s with idx := s.idx + 1 }
  else if s.txsize = 0 then { s with ph := .sClose, idx := 0 }
  else { s with ph := .sPay, idx := 0 }

/-- `Advance` in `S_PAY` (R144). -/
def payAdvance (s : State) : State :=
  if s.idx.toNat + 1 < s.txsize.toNat then { s with idx := s.idx + 1 } else { s with ph := .sClose }

/-- The `TxPut` step of `S_HDR`; a header has no byte beyond 7 (R142). -/
def hdrPut (s : State) : Host.Outcome State Fault Refusal :=
  if s.idx.toNat ≤ 7 then .next (txEscape (s.txHeader.get s.idx.toNat) hdrAdvance s) else .fault .headerIndex

/-- The `TxPut` step of `S_PAY`; the buffer has no byte at `TXBUF_DEPTH` or beyond (`20_memory.md` R77). -/
def payPut (s : State) : Host.Outcome State Fault Refusal :=
  if s.idx.toNat < s.cfg.txbufDepth then .next (txEscape (s.txByte s.idx.toNat) payAdvance s) else .fault .txbufIndex

/-- The closing delimiter (R145). -/
def closePut (s : State) : State := complete .none (serPut Config.delim s)

end Sys2Proof.Machine
end

