-- ==== Sys2Proof/Machine/Wire.lean ====
section
/-! DEFINITION. The wire symbols and the packet header as the block's receiver meets them (`30_encoding.md` R90 to R97,
R105 to R107). The meaning of a symbol or a header is what the block does with it at the head of the receive stream, `s`
being the state behind it (log 6, log 7). -/

namespace Sys2Proof.Machine

/-- An escape pair `0xDB t`: in the phases that unescape, `t` completes the pair (R121). In `R_WAIT` the first byte alone
is taken and is no delimiter, so `t` stays in `RXQ` (R163). `FLUSH` discards both. In every other phase both wait. -/
def receivePair (t : Byte) (s : State) : Host.Outcome State Fault Refusal :=
  match s.ph with
  | .rWait => .next (complete .framing { s with rxq := t :: s.rxq })
  | .dec | .rHdr | .rPay => unescapePair t s
  | .flush => .next s
  | .idle | .enc | .dlm | .sOpen | .sHdr | .sPay | .sClose => .next { s with rxq := Config.esc :: t :: s.rxq }

/-- `LIT(b)` (R90): the physical byte `b`. -/
def execLit (b : Byte) (s : State) : Host.Outcome State Fault Refusal := receive b s

/-- `END` (R90): the opening delimiter in `R_WAIT`; inside a frame the logical byte `0xC0` (R106). -/
def execWireEnd (s : State) : Host.Outcome State Fault Refusal := receive Config.delim s

/-- `ESC_END` (R90): the logical byte `0xC0`. -/
def execEscEnd (s : State) : Host.Outcome State Fault Refusal := receivePair Config.escDelim s

/-- `ESC_ESC` (R90): the logical byte `0xDB`. -/
def execEscEsc (s : State) : Host.Outcome State Fault Refusal := receivePair Config.escEsc s

/-- `ESC_BAD(t)` (R105): a framing error, both bytes consumed. -/
def execEscBad (t : Byte) (s : State) : Host.Outcome State Fault Refusal := receivePair t s

/-- `HEADER` (R96, R97): the eight header bytes decoded. While RECV awaits the header they fill `HDRB` and the capacity is
checked (R165, R166). In every other phase no header is awaited and its physical bytes wait in `RXQ`. -/
def execHeader (direction command : Byte) (size : Half) (value : Word) (s : State) : Host.Outcome State Fault Refusal :=
  match s.ph with
  | .rHdr =>
    .next (headerReceived
      { s with hdrb := HdrBytes.ofFields direction command size value, escp := false, idx := 7 })
  | .idle | .enc | .dec | .dlm | .sOpen | .sHdr | .sPay | .sClose | .rWait | .rPay | .flush =>
    .next { s with rxq := encs (HdrBytes.ofFields direction command size value).toList ++ s.rxq }

end Sys2Proof.Machine
end

