-- ==== Sys2Proof/Machine/Dispatch.lean ====
section
/-! DEFINITION. The meaning of each instruction, one arm per constructor. -/

namespace Sys2Proof.Machine

def exec (i : Instr) (s : State) : Host.Outcome State Fault Refusal :=
  match i with
  | .nop => Sys2Proof.Machine.execNop s
  | .encb => Sys2Proof.Machine.execEncb s
  | .decb => Sys2Proof.Machine.execDecb s
  | .txdelim => Sys2Proof.Machine.execTxdelim s
  | .send => Sys2Proof.Machine.execSend s
  | .recv => Sys2Proof.Machine.execRecv s
  | .rspchk => Sys2Proof.Machine.execRspchk s
  | .rxflush => Sys2Proof.Machine.execRxflush s
  | .ckinit => Sys2Proof.Machine.execCkinit s
  | .ckupd => Sys2Proof.Machine.execCkupd s
  | .ckchk => Sys2Proof.Machine.execCkchk s
  | .reservedB => Sys2Proof.Machine.execReservedB s
  | .reservedC => Sys2Proof.Machine.execReservedC s
  | .reservedD => Sys2Proof.Machine.execReservedD s
  | .reservedE => Sys2Proof.Machine.execReservedE s
  | .reservedF => Sys2Proof.Machine.execReservedF s
  | .lit b => Sys2Proof.Machine.execLit b s
  | .wireEnd => Sys2Proof.Machine.execWireEnd s
  | .escEnd => Sys2Proof.Machine.execEscEnd s
  | .escEsc => Sys2Proof.Machine.execEscEsc s
  | .escBad t => Sys2Proof.Machine.execEscBad t s
  | .header direction command size value => Sys2Proof.Machine.execHeader direction command size value s
  | .ccFlashBegin => Sys2Proof.Machine.execCcFlashBegin s
  | .ccFlashData => Sys2Proof.Machine.execCcFlashData s
  | .ccFlashEnd => Sys2Proof.Machine.execCcFlashEnd s
  | .ccMemBegin => Sys2Proof.Machine.execCcMemBegin s
  | .ccMemEnd => Sys2Proof.Machine.execCcMemEnd s
  | .ccMemData => Sys2Proof.Machine.execCcMemData s
  | .ccSync => Sys2Proof.Machine.execCcSync s
  | .ccWriteReg => Sys2Proof.Machine.execCcWriteReg s
  | .ccReadReg => Sys2Proof.Machine.execCcReadReg s

end Sys2Proof.Machine
end

