-- ==== Sys2Proof/Machine/Events.lean ====
section
/-! DEFINITION. The steps of the model that are not the acceptance of an instruction: the block's own step, and the
events of the host and the environment (`10_state.md` R41, R45 to R47, R51; `60_exceptions.md` R258). -/

namespace Sys2Proof.Machine

/-- The block takes its one enabled step, byte by byte: `TxPut` in a transmit phase, `RxTake` in a receive phase when
`RXQ` is not empty, `FlushEnd` in `FLUSH` when it is (R40, R41). Where no step is enabled nothing changes (log 17). -/
def blockStep (s : State) : Host.Outcome State Fault Refusal :=
  match s.ph with
  | .idle => .next s
  | .enc => .next (encbPut s)
  | .dlm => .next (delimPut s)
  | .sOpen => .next (openPut s)
  | .sHdr => hdrPut s
  | .sPay => payPut s
  | .sClose => .next (closePut s)
  | .dec | .rWait | .rHdr | .rPay =>
    match s.rxq with
    | [] => .next s
    | p :: q => receive p { s with rxq := q }
  | .flush =>
    match s.rxq with
    | [] => .next (complete .none s)
    | p :: q => receive p { s with rxq := q }

/-- `Arrive(b)` (R47). -/
def arrive (b : Byte) (s : State) : State := { s with rxq := s.rxq ++ [b] }

/-- `Tick` (R46): counts only in `R_WAIT` with `RXQ` empty; the tick that reaches the window ends RECV (log 15, log 21). -/
def tick (s : State) : State :=
  if s.ph = .rWait ∧ s.rxq = [] then
    if (s.tmr + 1).toNat = s.cfg.rxTimeoutMs then complete .timeout { s with tmr := s.tmr + 1 }
    else { s with tmr := s.tmr + 1 }
  else s

/-- `ChanFault` (R45). -/
def chanFault (s : State) : State :=
  if s.busy then complete .channel { s with chf := true } else { s with chf := true }

/-- `Reset` (R51, `70_reset_and_hazards.md` R280): every element of the block takes its reset value, the buffers become
unspecified (a new epoch of free contents), `RXQ` and `TXLOG` stay. -/
def resetBlock (s : State) : State :=
  { State.reset with
    cfg := s.cfg, rxq := s.rxq, txlog := s.txlog, hostLog := s.hostLog, inputs := s.inputs, epoch := s.epoch + 1 }

/-- One event that is not the acceptance of an instruction. A host write here is one to a location other than `CMD`:
`fetch` takes the writes to `CMD`. -/
def perform (e : Event) (s : State) : Host.Outcome State Fault Refusal :=
  match e with
  | .hostWrite a v => .next (hostStore a v s)
  | .hostRead a => .next { s with hostLog := s.hostLog ++ [hostRead s a] }
  | .arrive b => .next (arrive b s)
  | .tick => .next (tick s)
  | .chanFault => .next (chanFault s)
  | .reset => .next (resetBlock s)
  | .block => blockStep s

/-- The next event of the run, or the block's own step when the environment does nothing (log 1). -/
def quietStep (s : State) : Host.Outcome State Fault Refusal :=
  match s.inputs with
  | [] => blockStep s
  | e :: rest => perform e { s with inputs := rest }

end Sys2Proof.Machine
end

