-- ==== Sys2Proof/Machine/Fetch.lean ====
section
/-! DEFINITION. Which instruction the next step runs, and the state behind its words. A command word comes from the
host's write to `CMD` (`10_state.md` R35, R44), a command code from its write to `TXCMD` (R22), a wire symbol from the
head of `RXQ` (`30_encoding.md` R91), a header from the eight logical bytes RECV has decoded (R96). -/

namespace Sys2Proof.Machine

/-- An instruction with the state behind its words; `none` where the decoder refuses. -/
def decoded (c : Config) (e : Encoded) (behind : State) : Option (Instr × State) :=
  match decode c e with
  | .ok i => some (i, behind)
  | .error _ => none

/-- What a host write carries: a command word at `CMD`, a command code at `TXCMD` (log 8). -/
def fetchHost (a : Loc) (v : Word) (s : State) : Option (Instr × State) :=
  if a = 0x00 then decoded s.cfg (.cmd v) s
  else if a = 0x04 then decoded s.cfg (.code (v.setWidth 8)) s
  else none

/-- The logical byte a wire symbol delivers, if it delivers one (R90). -/
def logicalByte : Instr → Option Byte
  | .lit b => some b
  | .wireEnd => some Config.delim
  | .escEnd => some Config.delim
  | .escEsc => some Config.esc
  | _ => none

/-- The symbol whose last physical byte is `p`: a pair when the escape byte has been taken. In `R_WAIT` a byte is
compared raw (`42_packet_rx.md` R163). -/
def symbolAt (s : State) (p : Byte) : Encoded :=
  if s.escp ∧ s.ph ≠ .rWait then .wire [Config.esc, p] else .wire [p]

/-- A symbol that completes the eighth header byte completes the header, which is what the step runs (log 7). -/
def withHeader (s : State) (f : Instr × State) : Option (Instr × State) :=
  if s.ph = .rHdr ∧ s.idx = 7 then
    match logicalByte f.1 with
    | some b => decoded s.cfg (.hdr (s.hdrb.set 7 b).toList) f.2
    | none => some f
  else some f

/-- The symbol or header the block's step completes, if it completes one. A lone escape byte completes none, and RXFLUSH
decodes nothing (R178). -/
def fetchWire (s : State) : Option (Instr × State) :=
  match s.ph, s.rxq with
  | .dec, p :: q | .rWait, p :: q | .rHdr, p :: q | .rPay, p :: q =>
    (decoded s.cfg (symbolAt s p) { s with rxq := q }).bind (withHeader s)
  | _, _ => none

/-- The instruction the next step runs, with the state its meaning starts from; `none` where the step runs none. -/
def fetch (s : State) : Option (Instr × State) :=
  match s.inputs with
  | [] => fetchWire s
  | .block :: rest => fetchWire { s with inputs := rest }
  | .hostWrite a v :: rest => fetchHost a v { s with inputs := rest }
  | _ :: _ => none

/-! ## Placing a word where the next step fetches it (log 10) -/

/-- `s` in the phase of a DECB or RECV in progress, its turn next. -/
def awaiting (ph : Phase) (op : BitVec 4) (s : State) : State :=
  { s with ph := ph, op := op, done := false, err := .none, chf := false, inputs := .block :: s.inputs }

/-- Physical bytes of one symbol, all but the last already taken, the last at the head of `RXQ`. -/
def placeSymbol (bytes : List Byte) (s : State) : State :=
  match bytes with
  | [p] => { s with escp := false, rxq := p :: s.rxq }
  | [_, t] => { s with escp := true, rxq := t :: s.rxq }
  | _ => s

/-- Put a word where `fetch` reads it: a command word or code as the host's next write; a symbol as what a DECB in
progress takes next; a header as what a RECV in progress is about to complete, seven of its bytes stored. -/
def placeWord (e : Encoded) (s : State) : State :=
  match e with
  | .cmd v => { s with inputs := .hostWrite 0x00 v :: s.inputs }
  | .code b => { s with inputs := .hostWrite 0x04 (b.setWidth 32) :: s.inputs }
  | .wire bytes => placeSymbol bytes (awaiting .dec 0x2 s)
  | .hdr bytes =>
    match HdrBytes.ofList bytes with
    | some h =>
      placeSymbol (enc h.h7) { awaiting .rHdr 0x5 s with hdrb := h.set 7 s.hdrb.h7, idx := 7, rxv := false, rxcnt := 0 }
    | none => s

end Sys2Proof.Machine
end

