-- ==== Sys2Proof/Machine/Step.lean ====
section
/-! DEFINITION. One step of the model (`10_state.md` R41). -/

namespace Sys2Proof.Machine

/-- One step: the fetched instruction's meaning, or the event or byte step that runs none. -/
def step (s : State) : Host.Outcome State Fault Refusal :=
  match fetch s with
  | some (i, behind) => exec i behind
  | none => quietStep s

/-- `s` with the table word placed where `step` fetches its next instruction. -/
def State.withFetchWord (s : State) (nbits w : Nat) : State :=
  match tableWord nbits w with
  | some e => placeWord e s
  | none => s

end Sys2Proof.Machine
end

