-- ==== Sys2Proof/Machine/HostScript.lean ====
section
/-! DEFINITION. The host's script notation and its pseudo-operations as event lists (`30_encoding.md` R110, R111), and
the exchange of `45_host_session_reference.md` R232. Outside the block: the machine reads none of these. -/

namespace Sys2Proof.Machine.Script

/-- `WR loc, value`. -/
def wr (a : Loc) (v : Word) : Event := .hostWrite a v

/-- `<MNEMONIC>`: `WR CMD, op` with bits 31:4 zero. -/
def issue (op : BitVec 4) : Event := .hostWrite 0x00 (cmdWord op)

/-- `STEP n`, and `RUN` for `n` large enough: turns of the block; a turn with no enabled step changes nothing. -/
def turns (n : Nat) : List Event := List.replicate n .block

/-- `ARRIVE b0 b1 ...`. -/
def arriveAll (bytes : List Byte) : List Event := bytes.map .arrive

/-- `TICK n`. -/
def ticks (n : Nat) : List Event := List.replicate n .tick

/-- `LDTX off, b0 b1 ...`. -/
def ldtx (off : Nat) : List Byte → List Event
  | [] => []
  | b :: bytes => wr (BitVec.ofNat 18 (0x10000 + off)) (b.setWidth 32) :: ldtx (off + 1) bytes

/-- `SENDPKT dir, cmd, val, b0 ...` without its `WAIT`. -/
def sendPkt (dir cmd : Byte) (val : Word) (bytes : List Byte) : List Event :=
  ldtx 0 bytes ++
    [wr 0x03 (dir.setWidth 32), wr 0x04 (cmd.setWidth 32), wr 0x05 (BitVec.ofNat 32 bytes.length), wr 0x06 val, issue 0x4]

/-- `RECVPKT cap` without its `WAIT`. -/
def recvPkt (cap : Half) : List Event := [wr 0x07 (cap.setWidth 32), issue 0x5]

/-- `WR DATA, b; CKUPD` for each byte. -/
def ckFoldAll (bytes : List Byte) : List Event := bytes.flatMap fun b => [wr 0x02 (b.setWidth 32), issue 0x9]

/-- `CKBLK b0 ...`. -/
def ckBlk (bytes : List Byte) : List Event := issue 0x8 :: ckFoldAll bytes

/-- `EXPECT cmd`. -/
def expect (cmd : Byte) : List Event := [wr 0x02 (cmd.setWidth 32), issue 0x6]

/-- `WR DATA, b; ENCB; WAIT` for each byte: two turns are enough for one byte. -/
def encAll (bytes : List Byte) : List Event :=
  bytes.flatMap fun b => wr 0x02 (b.setWidth 32) :: issue 0x1 :: turns 2

/-- Frame wrapping by hand (`40_framing_codec.md` R134). -/
def frameByHand (h : HdrBytes) (p : List Byte) : List Event :=
  issue 0x3 :: .block :: (encAll (h.toList ++ p) ++ [issue 0x3, .block])

/-- One request and its response as the host performs it (R232), each `WAIT` given as a number of turns; the target's
bytes come in between. -/
def exchange (dir cmd : Byte) (val : Word) (payload : List Byte) (cap : Half) (answer : List Byte) (wait : Nat) :
    List Event :=
  issue 0x7 :: turns wait ++ sendPkt dir cmd val payload ++ turns wait ++ arriveAll answer ++ recvPkt cap ++
    turns wait ++ expect cmd

end Sys2Proof.Machine.Script
end

