-- ==== Sys2Proof/Machine/Session.lean ====
section
/-! DEFINITION. Host software, outside the block (`00_scope.md` R4): the payload layouts, the Flash Planner and the states
of the Bootloader Session, as reference functions (`45_host_session_reference.md`). The machine reads none of these
(log 23). -/

namespace Sys2Proof.Machine.Session

/-- A 32-bit field, least significant byte at the lower index (R224). -/
def le32 (v : Word) : List Byte :=
  [v.extractLsb' 0 8, v.extractLsb' 8 8, v.extractLsb' 16 8, v.extractLsb' 24 8]

/-- The `SYNC` payload (R222). -/
def syncPayload : List Byte := [0x07, 0x07, 0x12, 0x20] ++ List.replicate 32 0x55

/-- The `FLASH_BEGIN` payload (R224). -/
def flashBeginPayload (eraseSize numPackets packetSize offset : Word) : List Byte :=
  le32 eraseSize ++ le32 numPackets ++ le32 packetSize ++ le32 offset

/-- The `FLASH_DATA` payload (R226). -/
def flashDataPayload (seq : Word) (raw : List Byte) : List Byte :=
  le32 (BitVec.ofNat 32 raw.length) ++ le32 seq ++ le32 0 ++ le32 0 ++ raw

/-- The header `value` of a `FLASH_DATA` request (R226). -/
def flashDataValue (raw : List Byte) : Word := checksum raw

/-- The `FLASH_END` payload: 0 asks for a reboot (R227, R228). -/
def flashEndPayload (reboot : Bool) : List Byte := le32 (if reboot then 0 else 1)

/-- `ceil(a / b)` on unsigned numbers (R235, D34). -/
def ceilDiv (a b : Nat) : Nat := (a + b - 1) / b

/-- `FLASH_WRITE_SIZE` (R223). -/
def flashWriteSize : Nat := 1024

/-- `num_data_packets` (R223). -/
def numDataPackets (size : Nat) : Nat := ceilDiv size flashWriteSize

/-- `sector_size` (R235). -/
def sectorSize : Nat := 4096

/-- `head_sectors` for an offset (R235). -/
def headSectors (offset : Nat) : Nat := 16 - offset / sectorSize % 16

/-- `erase_size(offset, size)`, its first branch kept as the document gives it (R235, R236). -/
def eraseSize (offset size : Nat) : Nat :=
  let numSectors := ceilDiv size sectorSize
  if numSectors < 2 * headSectors offset then ceilDiv numSectors (2 * sectorSize)
  else (numSectors - headSectors offset) * sectorSize

/-- The states of the session (R219); its `Reset` is not the block's event. -/
inductive Stage where
  | reset
  | synchronizing
  | erasing
  | writing (seq : Nat)
  | finalizing
  | done
  | failed
  deriving DecidableEq, Repr

/-- The session after one exchange of a flashing of `packets` data packets (R219, R221, R223, R225, R227, R240): any
failure is terminal. -/
def Stage.after (packets : Nat) (ok : Bool) : Stage → Stage
  | .reset => if ok then .synchronizing else .failed
  | .synchronizing => if ok then .erasing else .failed
  | .erasing => if ok then (if packets = 0 then .finalizing else .writing 0) else .failed
  | .writing seq => if ok then (if seq + 1 < packets then .writing (seq + 1) else .finalizing) else .failed
  | .finalizing => if ok then .done else .failed
  | .done => .done
  | .failed => .failed

end Sys2Proof.Machine.Session
end

