-- ==== Sys2Proof/Safety.lean ====
section
/-! DEFINITION. What a good state is: the invariant every step keeps, the phase transition table, runs, and the events an
operation tolerates. -/

namespace Sys2Proof.Machine

/-- Every index a buffer lists lies inside it. -/
def Memory.below (m : Memory) (depth : Nat) : Bool := m.all fun c => decide (c.1 < depth)

/-- The operation code whose operation owns a phase (`10_state.md` R40); `none` for `IDLE`. -/
def Phase.opcode : Phase → Option (BitVec 4)
  | .idle => none
  | .enc => some 0x1
  | .dec => some 0x2
  | .dlm => some 0x3
  | .sOpen | .sHdr | .sPay | .sClose => some 0x4
  | .rWait | .rHdr | .rPay => some 0x5
  | .flush => some 0x7

/-- The phases of SEND (R40). -/
def Phase.ofSend : Phase → Bool
  | .sOpen | .sHdr | .sPay | .sClose => true
  | _ => false

/-- The phases of RECV (R40). -/
def Phase.ofRecv : Phase → Bool
  | .rWait | .rHdr | .rPay => true
  | _ => false

/-- The transmit phases: those with a `TxPut` step (R40). -/
def Phase.transmits : Phase → Bool
  | .enc | .dlm | .sOpen | .sHdr | .sPay | .sClose => true
  | _ => false

/-- A byte the wire escapes (`30_encoding.md` R92). -/
def needsEscape (b : Byte) : Bool := b == Config.delim || b == Config.esc

/-- Where an escape may be pending (R40, `40_framing_codec.md` R120, R121): never when idle; on the transmit side only
inside the pair of a byte that needs one; on the receive side only where bytes are unescaped. -/
def State.escpLegal (s : State) : Bool :=
  match s.ph with
  | .enc => needsEscape s.dataByte
  | .sHdr => needsEscape (s.txHeader.get s.idx.toNat)
  | .sPay => needsEscape (s.txByte s.idx.toNat)
  | .dec | .rHdr | .rPay => true
  | .idle | .dlm | .sOpen | .sClose | .rWait | .flush => false

/-- The invariant of the machine: what every step keeps and reset has. -/
structure Invariant (s : State) : Prop where
  /-- The configuration is in the ranges of R7. -/
  cfg_wf : s.cfg.wf = true
  /-- The buffers keep their canonical form, inside their depth. -/
  txbuf_wf : s.txbuf.wf = true
  txbuf_below : s.txbuf.below s.cfg.txbufDepth = true
  rxbuf_wf : s.rxbuf.wf = true
  rxbuf_below : s.rxbuf.below s.cfg.rxbufDepth = true
  /-- Bits 31:8 of `CKSUM` are 0 (`10_state.md` R37). -/
  cksum_byte : s.cksum.toNat < 256
  /-- `TMR` stays in its range (R36). -/
  tmr_range : s.tmr.toNat ≤ s.cfg.rxTimeoutMs
  /-- `BUSY = 1, DONE = 1` never occurs (R27). -/
  busy_not_done : s.busy = true → s.done = false
  /-- `ERR` is cleared at acceptance and written at completion (R26). -/
  busy_no_err : s.busy = true → s.err = .none
  /-- `OP` is the operation in progress (R40). -/
  op_owns_phase : s.ph.opcode = none ∨ s.ph.opcode = some s.op
  /-- No channel operation runs on a faulted channel (R33, R45). -/
  busy_no_chf : s.busy = true → s.chf = false
  /-- `ESCP` (R40). -/
  escp_legal : s.escp = true → s.escpLegal = true
  /-- SEND was accepted with a size that fits (`41_packet_tx.md` R141), and nothing has changed it (`20_memory.md` R75). -/
  send_fits : s.ph.ofSend = true → s.txsize.toNat ≤ s.cfg.txbufDepth
  send_hdr : s.ph = .sHdr → s.idx.toNat ≤ 7
  send_pay : s.ph = .sPay → s.idx.toNat < s.txsize.toNat
  /-- RECV was accepted with a capacity that fits (`42_packet_rx.md` R161), and has received no packet yet (R29). -/
  recv_fits : s.ph.ofRecv = true → s.rxcap.toNat ≤ s.cfg.rxbufDepth
  recv_not_valid : s.ph.ofRecv = true → s.rxv = false
  recv_wait : s.ph = .rWait → s.tmr.toNat < s.cfg.rxTimeoutMs ∧ s.rxcnt = 0
  recv_hdr : s.ph = .rHdr → s.idx.toNat ≤ 7 ∧ s.rxcnt = 0
  recv_pay : s.ph = .rPay →
    s.idx.toNat < s.hdrb.size.toNat ∧ s.hdrb.size.toNat ≤ s.rxcap.toNat ∧ s.rxcnt = s.idx
  /-- A whole packet is held while `RXV` is 1 (`10_state.md` R25, R26). -/
  rxv_whole : s.rxv = true → s.rxcnt = s.hdrb.size

/-! ## Whose turn it is -/

/-- The state the block's own step starts from, when the next step is the block's turn; `none` when it is an event's. -/
def State.turn (s : State) : Option State :=
  match s.inputs with
  | [] => some s
  | .block :: rest => some { s with inputs := rest }
  | _ :: _ => none

/-- The next step is `Reset`. -/
def State.resets (s : State) : Prop := ∃ rest, s.inputs = .reset :: rest

/-- The next step is a host write to `CMD` that is accepted with the code `op` (`10_state.md` R44). -/
def State.accepts (s : State) (op : BitVec 4) : Prop :=
  s.busy = false ∧ ∃ v rest, s.inputs = .hostWrite 0x00 v :: rest ∧ opField v = op

/-- The next step is a host write of `v` to the location `a`, and it is not dropped (`20_memory.md` R62). -/
def State.writes (s : State) (a : Loc) (v : Word) : Prop :=
  s.busy = false ∧ ∃ rest, s.inputs = .hostWrite a v :: rest

/-! ## The phase transition table (`44_control_ops.md` R210) -/

/-- The phase after a command is accepted. -/
def phaseAccepted (s : State) (op : BitVec 4) : Phase :=
  if s.chf then .idle
  else match op.toNat with
    | 0x1 => .enc
    | 0x2 => .dec
    | 0x3 => .dlm
    | 0x4 => if s.txsize.toNat ≤ s.cfg.txbufDepth then .sOpen else .idle
    | 0x5 => if s.rxcap.toNat ≤ s.cfg.rxbufDepth then .rWait else .idle
    | 0x7 => .flush
    | _ => .idle

/-- Whether a `TxPut` for the logical byte `cur` finishes it: a literal, or the second byte of its pair. -/
def State.finishes (s : State) (cur : Byte) : Bool := s.escp || !needsEscape cur

/-- What a taken physical byte does in a phase that unescapes: `none` the escape byte, `some none` a bad pair, `some
(some b)` the logical byte `b`. -/
def State.takes (s : State) (p : Byte) : Option (Option Byte) :=
  if s.escp then some (unpair p) else if p = Config.esc then none else some (some p)

/-- The phase after a `RxTake` of `p`. -/
def phaseTaken (s : State) (p : Byte) : Phase :=
  match s.ph with
  | .rWait => if p = Config.delim then .rHdr else .idle
  | .flush => .flush
  | .dec => if s.takes p = none then .dec else .idle
  | .rHdr =>
    match s.takes p with
    | none => .rHdr
    | some none => .idle
    | some (some _) =>
      if s.idx.toNat < 7 then .rHdr
      else if s.hdrb.size.toNat > s.rxcap.toNat then .idle
      else if s.hdrb.size = 0 then .idle
      else .rPay
  | .rPay =>
    match s.takes p with
    | none => .rPay
    | some none => .idle
    | some (some _) => if s.idx.toNat + 1 < s.hdrb.size.toNat then .rPay else .idle
  | ph => ph

/-- The phase after the block's turn. -/
def phaseTurn (s : State) : Phase :=
  match s.ph with
  | .idle => .idle
  | .enc => if s.finishes s.dataByte then .idle else .enc
  | .dlm => .idle
  | .sOpen => .sHdr
  | .sHdr =>
    if ¬ s.finishes (s.txHeader.get s.idx.toNat) ∨ s.idx.toNat < 7 then .sHdr
    else if s.txsize = 0 then .sClose else .sPay
  | .sPay =>
    if ¬ s.finishes (s.txByte s.idx.toNat) ∨ s.idx.toNat + 1 < s.txsize.toNat then .sPay else .sClose
  | .sClose => .idle
  | .dec | .rWait | .rHdr | .rPay =>
    match s.rxq with
    | [] => s.ph
    | p :: _ => phaseTaken s p
  | .flush => if s.rxq = [] then .idle else .flush

/-- The phase after an event. -/
def phaseAfter (s : State) : Event → Phase
  | .hostWrite a v => if s.ph = .idle ∧ a = 0x00 then phaseAccepted s (opField v) else s.ph
  | .hostRead _ => s.ph
  | .arrive _ => s.ph
  | .tick =>
    if s.ph = .rWait ∧ s.rxq = [] ∧ s.tmr.toNat + 1 = s.cfg.rxTimeoutMs then .idle else s.ph
  | .chanFault => .idle
  | .reset => .idle
  | .block => phaseTurn s

/-! ## Runs -/

/-- `n` steps of the machine. -/
def stepRun : Nat → State → Host.Outcome State Fault Refusal
  | 0, s => .next s
  | n + 1, s =>
    match step s with
    | .next t => stepRun n t
    | .fault f => .fault f
    | .refused r => .refused r

/-! ## Events in between -/

/-- An event a running operation tolerates: everything but `ChanFault` and `Reset` (`41_packet_tx.md` R147,
`42_packet_rx.md` R170). -/
def Event.harmless : Event → Bool
  | .chanFault | .reset => false
  | .hostWrite _ _ | .hostRead _ | .arrive _ | .tick | .block => true

/-- A write of the host. -/
def Event.isWrite : Event → Bool
  | .hostWrite _ _ => true
  | .hostRead _ | .arrive _ | .tick | .chanFault | .reset | .block => false

/-- The bytes that arrive in a list of events, in order. -/
def arrivals : List Event → List Byte
  | [] => []
  | .arrive b :: es => b :: arrivals es
  | .hostWrite _ _ :: es | .hostRead _ :: es | .tick :: es | .chanFault :: es | .reset :: es | .block :: es => arrivals es

/-- `s` with another environment: coming events, queue, and what the host and the ticks alone change while an operation
runs (`OVR`, the reads' values, `TMR`). -/
def State.withEnv (s : State) (inputs : List Event) (rxq : List Byte) (ovr : Bool) (hostLog : List Word)
    (tmr : BitVec 15) : State :=
  { s with inputs := inputs, rxq := rxq, ovr := ovr, hostLog := hostLog, tmr := tmr }

end Sys2Proof.Machine
end

