-- ==== Sys2Proof/Certificates/Slice0/Obligations.lean ====
section
/-! DEFINITION. The statements about the block. An equality `… = .next { s with … }` says the result and the whole frame:
every element not named keeps its value. -/

open Sys2Proof Sys2Proof.Machine

/-! ## Decoding and stepping -/

/-- A step runs the decoded instruction, from the state behind its words (`10_state.md` section 7, `30_encoding.md`
sections 1 and 3). Which instruction a host write to `TXCMD`, a wire symbol or a header is to the step is the model's
choice: log 6, log 7, log 8. -/
def Obligations.StepRunsTheDecodedInstruction : Prop :=
  ∀ s : State,
    (∀ v rest i, s.inputs = .hostWrite 0x00 v :: rest → decode s.cfg (.cmd v) = .ok i →
      step s = exec i { s with inputs := rest }) ∧
    (∀ v rest i, s.inputs = .hostWrite 0x04 v :: rest → decode s.cfg (.code (v.setWidth 8)) = .ok i →
      step s = exec i { s with inputs := rest }) ∧
    (∀ t p q i, s.turn = some t → t.ph = .rWait → t.rxq = p :: q → decode t.cfg (.wire [p]) = .ok i →
      step s = exec i { t with rxq := q }) ∧
    (∀ t p q i, s.turn = some t → t.ph = .dec ∨ t.ph = .rHdr ∨ t.ph = .rPay → t.rxq = p :: q →
      decode t.cfg (.wire (if t.escp then [Config.esc, p] else [p])) = .ok i →
      (t.ph = .rHdr → t.idx = 7 → logicalByte i = none) → step s = exec i { t with rxq := q }) ∧
    (∀ t p q i b j, s.turn = some t → t.ph = .rHdr → t.idx = 7 → t.rxq = p :: q →
      decode t.cfg (.wire (if t.escp then [Config.esc, p] else [p])) = .ok i → logicalByte i = some b →
      decode t.cfg (.hdr (t.hdrb.set 7 b).toList) = .ok j → step s = exec j { t with rxq := q })

/-- The machine that decodes symbols and headers and runs them does, step for step, what the byte-level rules say
(`10_state.md` sections 7 and 8, `40_framing_codec.md` section 1); log 6, log 7. -/
def Obligations.DecodedStepsEqualByteSteps : Prop :=
  ∀ s : State,
    step s =
      match s.inputs with
      | [] => blockStep s
      | .hostWrite a v :: rest =>
        if a = 0x00 then exec (decodeOp (opField v)) { s with inputs := rest }
        else .next (hostStore a v { s with inputs := rest })
      | e :: rest => perform e { s with inputs := rest }

/-- Words written out from the encoding tables R90, R96, R104. Two clauses rest on the model's choices: the table word
(byte 0 in bits 15:8, log 9) and the command code (the default parameters, log 3). -/
def Obligations.SampleWordsDecode : Prop :=
  decode Config.default (.cmd 0x00000004) = .ok .send ∧
  decode Config.default (.cmd 0xFFFFFFF8) = .ok .ckinit ∧
  decode Config.default (.cmd 0x0000000D) = .ok .reservedD ∧
  decode Config.default (.wire [0xC0]) = .ok .wireEnd ∧
  decode Config.default (.wire [0x41]) = .ok (.lit 0x41) ∧
  decode Config.default (.wire [0xDB]) = .error .truncatedSymbol ∧
  decode Config.default (.wire [0xDB, 0xDC]) = .ok .escEnd ∧
  decode Config.default (.wire [0xDB, 0xDD]) = .ok .escEsc ∧
  decode Config.default (.wire [0xDB, 0xC0]) = .ok (.escBad 0xC0) ∧
  decode Config.default (.hdr [0x01, 0x08, 0xC0, 0x01, 0x44, 0x33, 0x22, 0x11]) =
    .ok (.header 0x01 0x08 0x01C0 0x11223344) ∧
  decode Config.default (.code 0x08) = .ok .ccSync ∧
  decodeTableWord 16 0xDBDD = some .escEsc

/-- Decoding undoes encoding, for every instruction and every legal set of parameters (`30_encoding.md` sections 1 to 3). -/
def Obligations.DecodeUndoesEncode : Prop :=
  ∀ (c : Config) (i : Instr), c.wf = true → i.wellFormed = true → decode c (encode c i) = .ok i

/-- A word that decodes is a well-formed instruction's word, but for the ignored bits 31:4 of a command word
(`30_encoding.md` sections 1 to 4). -/
def Obligations.DecodedWordsReencode : Prop :=
  ∀ (c : Config) (e : Encoded) (i : Instr), decode c e = .ok i →
    i.wellFormed = true ∧
    encode c i = (match e with | .cmd v => .cmd (cmdWord (opField v)) | .wire b => .wire b | .hdr b => .hdr b | .code b => .code b)

/-! ## Laws of the codec, the header and the checksum -/

/-- `40_framing_codec.md` section 5, law (a): decoding what encoding produced gives it back, with whatever follows left
over. The spec marks the law as derived. -/
def Obligations.CodecRoundTrip : Prop :=
  ∀ s r : List Byte, decN s.length (encs s ++ r) = some (s, r)

/-- `40_framing_codec.md` section 5, laws (b), (c), (d). The spec marks them as derived. -/
def Obligations.EncodingIsCompleteShortInjective : Prop :=
  (∀ s : List Byte, Config.delim ∉ encs s) ∧
  (∀ s l r : List Byte, encs s = l ++ Config.esc :: r →
    ∃ t r', r = t :: r' ∧ (t = Config.escDelim ∨ t = Config.escEsc)) ∧
  (∀ s : List Byte, s.length ≤ (encs s).length ∧ (encs s).length ≤ 2 * s.length) ∧
  (∀ s t : List Byte, encs (s ++ t) = encs s ++ encs t) ∧
  (∀ s t : List Byte, encs s = encs t → s = t)

/-- `30_encoding.md` section 1, the length of a frame; the spec marks it as derived. -/
def Obligations.FrameLength : Prop :=
  ∀ (h : HdrBytes) (p : List Byte),
    (frame h p).length = 2 + 8 + p.length + escapes (h.toList ++ p) ∧
    10 + p.length ≤ (frame h p).length ∧ (frame h p).length ≤ 2 + 2 * (8 + p.length) ∧
    (∃ inner, frame h p = Config.delim :: (inner ++ [Config.delim]) ∧ Config.delim ∉ inner ∧
      ∀ l r, inner = l ++ Config.esc :: r → ∃ t r', r = t :: r' ∧ (t = Config.escDelim ∨ t = Config.escEsc))

/-- R97: the little-endian assembly of the header fields, and its inverse. -/
def Obligations.HeaderFieldsLittleEndian : Prop :=
  (∀ h : HdrBytes,
    h.direction = h.get 0 ∧ h.command = h.get 1 ∧
    h.size.toNat = (h.get 2).toNat + 256 * (h.get 3).toNat ∧
    h.value.toNat =
      (h.get 4).toNat + 2 ^ 8 * (h.get 5).toNat + 2 ^ 16 * (h.get 6).toNat + 2 ^ 24 * (h.get 7).toNat ∧
    HdrBytes.ofFields h.direction h.command h.size h.value = h) ∧
  (∀ (d c : Byte) (z : Half) (v : Word),
    (HdrBytes.ofFields d c z v).toList =
      [d, c, z.extractLsb' 0 8, z.extractLsb' 8 8, v.extractLsb' 0 8, v.extractLsb' 8 8, v.extractLsb' 16 8,
        v.extractLsb' 24 8] ∧
    (HdrBytes.ofFields d c z v).direction = d ∧ (HdrBytes.ofFields d c z v).command = c ∧
    (HdrBytes.ofFields d c z v).size = z ∧ (HdrBytes.ofFields d c z v).value = v) ∧
  (∀ (d c : Byte) (v : Word),
    encs [(HdrBytes.ofFields d c 0x00C0 v).get 2, (HdrBytes.ofFields d c 0x00C0 v).get 3] = [0xDB, 0xDC, 0x00])

/-- R190: the checksum of a byte sequence (the spec's decision D19 widens a byte with zeros). -/
def Obligations.ChecksumFunction : Prop :=
  checksum [] = 0x000000EF ∧
  (∀ (s : List Byte) (b : Byte), checksum (s ++ [b]) = checksum s ^^^ b.setWidth 32) ∧
  (∀ s : List Byte, checksum s = 0x000000EF ^^^ (s.foldl (fun a b => a ^^^ b) (0 : Byte)).setWidth 32)

/-- `43_checksum.md` section 5; the spec marks the laws as derived. -/
def Obligations.ChecksumLaws : Prop :=
  (∀ s t : List Byte, checksum (s ++ t) = checksum s ^^^ checksum t ^^^ 0xEF) ∧
  (∀ s : List Byte, (checksum s).toNat ≤ 0xFF) ∧
  (∀ s t : List Byte, s.Perm t → checksum s = checksum t) ∧
  (∀ (s t : List Byte) (b c : Byte), b ≠ c → checksum (s ++ b :: t) ≠ checksum (s ++ c :: t))

/-! ## Commands: acceptance, results, starts -/

/-- R205. -/
def Obligations.NopResult : Prop :=
  ∀ s : State, s.busy = false →
    exec .nop s = .next { s with op := 0x0, done := true, err := .none, ph := .idle, escp := false, idx := 0 } ∧
    decode s.cfg (.cmd 0) = .ok .nop ∧ decodeOp 0x0 = .nop

/-- R207 (the spec's decision D7). -/
def Obligations.ReservedCodesComplete : Prop :=
  ∀ s : State, s.busy = false →
    exec .reservedB s = .next { s with op := 0xB, done := true, err := .badcmd, ph := .idle, escp := false, idx := 0 } ∧
    exec .reservedC s = .next { s with op := 0xC, done := true, err := .badcmd, ph := .idle, escp := false, idx := 0 } ∧
    exec .reservedD s = .next { s with op := 0xD, done := true, err := .badcmd, ph := .idle, escp := false, idx := 0 } ∧
    exec .reservedE s = .next { s with op := 0xE, done := true, err := .badcmd, ph := .idle, escp := false, idx := 0 } ∧
    exec .reservedF s = .next { s with op := 0xF, done := true, err := .badcmd, ph := .idle, escp := false, idx := 0 } ∧
    decodeOp 0xB = .reservedB ∧ decodeOp 0xC = .reservedC ∧ decodeOp 0xD = .reservedD ∧ decodeOp 0xE = .reservedE ∧
    decodeOp 0xF = .reservedF

/-- `44_control_ops.md` section 1 and `20_memory.md` section 1: a command written while busy starts nothing, whichever of
the sixteen it is (decision D8). -/
def Obligations.CommandsWhileBusyAreDropped : Prop :=
  ∀ (s : State) (v : Word), s.busy = true → exec (decodeOp (opField v)) s = .next { s with ovr := true }

/-- The four byte-stream operations start, and nothing else changes (`40_framing_codec.md` sections 2 to 4,
`42_packet_rx.md` section 3). -/
def Obligations.ByteOperationsStart : Prop :=
  ∀ s : State, s.busy = false → s.chf = false →
    exec .encb s = .next { s with op := 0x1, done := false, err := .none, escp := false, idx := 0, ph := .enc } ∧
    exec .decb s = .next { s with op := 0x2, done := false, err := .none, escp := false, idx := 0, ph := .dec } ∧
    exec .txdelim s = .next { s with op := 0x3, done := false, err := .none, escp := false, idx := 0, ph := .dlm } ∧
    exec .rxflush s = .next { s with op := 0x7, done := false, err := .none, escp := false, idx := 0, ph := .flush }

/-- R141 (decision D17): SEND's start, with the `CHF` test before it. -/
def Obligations.SendStart : Prop :=
  (∀ s : State, s.busy = false → s.chf = true →
    exec .send s = .next { s with op := 0x4, done := true, err := .channel, escp := false, idx := 0, ph := .idle }) ∧
  (∀ s : State, s.busy = false → s.chf = false → s.cfg.txbufDepth < s.txsize.toNat →
    exec .send s = .next { s with op := 0x4, done := true, err := .badcmd, escp := false, idx := 0, ph := .idle }) ∧
  (∀ s : State, s.busy = false → s.chf = false → s.txsize.toNat ≤ s.cfg.txbufDepth →
    exec .send s = .next { s with op := 0x4, done := false, err := .none, escp := false, idx := 0, ph := .sOpen }) ∧
  (∀ s : State, s.cfg.txbufDepth = 65535 → s.txsize.toNat ≤ s.cfg.txbufDepth)

/-- R161 (decisions D17, D18): RECV's start, with the `CHF` test before it. -/
def Obligations.RecvStart : Prop :=
  ∀ s : State, s.busy = false →
    (s.chf = true →
      exec .recv s = .next { s with op := 0x5, done := true, err := .channel, escp := false, idx := 0, ph := .idle }) ∧
    (s.chf = false → s.cfg.rxbufDepth < s.rxcap.toNat →
      exec .recv s = .next { s with op := 0x5, done := true, err := .badcmd, escp := false, idx := 0, ph := .idle }) ∧
    (s.chf = false → s.rxcap.toNat ≤ s.cfg.rxbufDepth →
      exec .recv s = .next { s with op := 0x5, done := false, err := .none, escp := false, idx := 0, ph := .rWait, rxv := false, rxcnt := 0, tmr := 0 })

/-- R175 (decision D21): RSPCHK, whatever `CHF` is. -/
def Obligations.ResponseCheck : Prop :=
  ∀ s : State, s.busy = false →
    (s.rxv = true ∧ s.hdrb.direction = 1 ∧ s.hdrb.command = s.data.extractLsb' 0 8 ∧ 1 ≤ s.hdrb.size.toNat ∧
        s.rxByte 0 = 0 →
      exec .rspchk s =
        .next { s with op := 0x6, done := true, err := .none, ph := .idle, escp := false, idx := 0, rspok := true }) ∧
    (¬ (s.rxv = true ∧ s.hdrb.direction = 1 ∧ s.hdrb.command = s.data.extractLsb' 0 8 ∧ 1 ≤ s.hdrb.size.toNat ∧
        s.rxByte 0 = 0) →
      exec .rspchk s =
        .next { s with op := 0x6, done := true, err := .proto, ph := .idle, escp := false, idx := 0, rspok := false }) ∧
    decodeOp 0x6 = .rspchk

/-- R191. -/
def Obligations.ChecksumInit : Prop :=
  ∀ s : State, s.busy = false →
    exec .ckinit s =
      .next { s with op := 0x8, done := true, err := .none, ph := .idle, escp := false, idx := 0, cksum := 0x000000EF } ∧
    decodeOp 0x8 = .ckinit

/-- R193 (decision D19): the fold, and its corner cases: a zero byte changes nothing, the same byte twice cancels, bits
31:8 stay. -/
def Obligations.ChecksumUpdate : Prop :=
  (∀ s : State, s.busy = false →
    exec .ckupd s =
      .next { s with op := 0x9, done := true, err := .none, ph := .idle, escp := false, idx := 0, cksum := s.cksum ^^^ (s.data.extractLsb' 0 8).setWidth 32 }) ∧
  (∀ c : Word, ckFold c 0 = c) ∧
  (∀ (c : Word) (b : Byte), ckFold (ckFold c b) b = c ∧ (ckFold c b).extractLsb' 8 24 = c.extractLsb' 8 24) ∧
  (∀ s : State, s.busy = false → ∀ t, exec .ckupd s = .next t → t.cksum = ckFold s.cksum (s.data.extractLsb' 0 8)) ∧
  decodeOp 0x9 = .ckupd

/-- R196 (decision D20), with its corner case: an expected value above `0xFF` never matches a checksum below `0x100`. -/
def Obligations.ChecksumCheck : Prop :=
  ∀ s : State, s.busy = false →
    exec .ckchk s =
      .next { s with op := 0xA, done := true, err := .none, ph := .idle, escp := false, idx := 0, ckok := decide (s.cksum = s.data) } ∧
    (s.cksum.toNat < 256 → 256 ≤ s.data.toNat → decide (s.cksum = s.data) = false) ∧
    decodeOp 0xA = .ckchk

/-- The nine command codes written to `TXCMD` (`10_state.md` section 2, `20_memory.md` section 1); that a CC row runs as
this write is the model's choice, log 8. -/
def Obligations.CommandCodesLoadTxcmd : Prop :=
  ∀ s : State,
    (s.busy = false →
      exec .ccFlashBegin s = .next { s with txcmd := s.cfg.cc.flashBegin } ∧
      exec .ccFlashData s = .next { s with txcmd := s.cfg.cc.flashData } ∧
      exec .ccFlashEnd s = .next { s with txcmd := s.cfg.cc.flashEnd } ∧
      exec .ccMemBegin s = .next { s with txcmd := s.cfg.cc.memBegin } ∧
      exec .ccMemEnd s = .next { s with txcmd := s.cfg.cc.memEnd } ∧
      exec .ccMemData s = .next { s with txcmd := s.cfg.cc.memData } ∧
      exec .ccSync s = .next { s with txcmd := s.cfg.cc.sync } ∧
      exec .ccWriteReg s = .next { s with txcmd := s.cfg.cc.writeReg } ∧
      exec .ccReadReg s = .next { s with txcmd := s.cfg.cc.readReg }) ∧
    (s.busy = true →
      ∀ i ∈ [Instr.ccFlashBegin, .ccFlashData, .ccFlashEnd, .ccMemBegin, .ccMemEnd, .ccMemData, .ccSync, .ccWriteReg,
        .ccReadReg], exec i s = .next { s with ovr := true })

/-! ## Wire symbols and the header -/

/-- The symbols that stand for a logical byte, `LIT`, `END`, `ESC_END`, `ESC_ESC`, in every phase (`30_encoding.md`
sections 1 and 4, `40_framing_codec.md` sections 1 and 3, `42_packet_rx.md` sections 1 and 3); `bytes` are the symbol's
physical bytes and `s` the state behind them. A pair also runs with `ESCP = 1`, its first byte taken, which is how `step`
meets it (`Obligations.StepRunsTheDecodedInstruction`), and `ESCP` is 0 afterwards; a one-byte symbol never runs so. That
such a row runs at the receiver, and where it waits, is log 6; the two stops, at indices no run reaches, are log 11. -/
def Obligations.SymbolsDeliverTheirByte : Prop :=
  ∀ (s : State) (i : Instr) (b : Byte) (bytes : List Byte),
    i.wellFormed = true → logicalByte i = some b → encode s.cfg i = .wire bytes →
    (s.escp = true → i = .escEnd ∨ i = .escEsc) →
    (s.ph = .dec →
      exec i s = .next { s with data := b.setWidth 32, done := true, err := .none, ph := .idle, escp := false }) ∧
    (s.ph = .rWait → i = .wireEnd → exec i s = .next { s with ph := .rHdr, idx := 0 }) ∧
    (s.ph = .rWait → i ≠ .wireEnd →
      exec i s = .next { s with done := true, err := .framing, ph := .idle, escp := false, rxq := bytes.tail ++ s.rxq }) ∧
    (s.ph = .rHdr → s.idx.toNat < 7 →
      exec i s = .next { s with hdrb := s.hdrb.set s.idx.toNat b, idx := s.idx + 1, escp := false }) ∧
    (s.ph = .rHdr → s.idx = 7 →
      exec i s = exec (.header (s.hdrb.set 7 b).direction (s.hdrb.set 7 b).command (s.hdrb.set 7 b).size (s.hdrb.set 7 b).value) s) ∧
    (s.ph = .rPay → s.idx.toNat < s.cfg.rxbufDepth → s.idx.toNat + 1 ≠ s.hdrb.size.toNat →
      exec i s = .next { s with rxbuf := s.rxbuf.store s.idx.toNat b, rxcnt := s.idx + 1, idx := s.idx + 1, escp := false }) ∧
    (s.ph = .rPay → s.idx.toNat < s.cfg.rxbufDepth → s.idx.toNat + 1 = s.hdrb.size.toNat →
      exec i s = .next { s with rxbuf := s.rxbuf.store s.idx.toNat b, rxcnt := s.idx + 1, rxv := true, done := true, err := .none, ph := .idle, escp := false }) ∧
    (s.ph = .flush → exec i s = .next s) ∧
    (s.ph = .idle ∨ s.ph.transmits = true → exec i s = .next { s with rxq := bytes ++ s.rxq }) ∧
    (s.ph = .rHdr → 7 < s.idx.toNat → exec i s = .fault .headerIndex) ∧
    (s.ph = .rPay → s.cfg.rxbufDepth ≤ s.idx.toNat → exec i s = .fault .rxbufIndex)

/-- `ESC_BAD`, in every phase (`30_encoding.md` section 4, `40_framing_codec.md` section 1): in a phase that unescapes
both bytes are consumed, nothing is stored, and the operation ends with `FRAMING`; `RECV`'s first byte is compared raw
(`42_packet_rx.md` section 1). In `FLUSH` (its section 3), `IDLE` and the transmit phases no step fetches the symbol, and
what it would do there is the model's reading, log 6. -/
def Obligations.BadEscapeIsFraming : Prop :=
  ∀ (s : State) (t : Byte), (Instr.escBad t).wellFormed = true →
    (s.ph = .dec ∨ s.ph = .rHdr ∨ s.ph = .rPay →
      exec (.escBad t) s = .next { s with done := true, err := .framing, ph := .idle, escp := false }) ∧
    (s.ph = .rWait →
      exec (.escBad t) s = .next { s with done := true, err := .framing, ph := .idle, escp := false, rxq := t :: s.rxq }) ∧
    (s.ph = .flush → exec (.escBad t) s = .next s) ∧
    (s.ph = .idle ∨ s.ph.transmits = true →
      exec (.escBad t) s = .next { s with rxq := Config.esc :: t :: s.rxq })

/-- The whole header, in every phase: the capacity check while RECV awaits it (`42_packet_rx.md` section 1, the eighth
header byte), else its bytes wait; log 7. -/
def Obligations.HeaderChecksCapacity : Prop :=
  ∀ (s : State) (d c : Byte) (z : Half) (v : Word),
    (s.ph = .rHdr → s.rxcap.toNat < z.toNat →
      exec (.header d c z v) s =
        .next { s with hdrb := HdrBytes.ofFields d c z v, idx := 7, done := true, err := .bufsmall, ph := .idle, escp := false }) ∧
    (s.ph = .rHdr → z = 0 →
      exec (.header d c z v) s =
        .next { s with hdrb := HdrBytes.ofFields d c z v, idx := 7, rxv := true, done := true, err := .none, ph := .idle, escp := false }) ∧
    (s.ph = .rHdr → z ≠ 0 → z.toNat ≤ s.rxcap.toNat →
      exec (.header d c z v) s =
        .next { s with hdrb := HdrBytes.ofFields d c z v, idx := 0, ph := .rPay, escp := false }) ∧
    (s.ph ≠ .rHdr →
      exec (.header d c z v) s = .next { s with rxq := encs (HdrBytes.ofFields d c z v).toList ++ s.rxq })

/-- An escape pair taken byte by byte (`40_framing_codec.md` section 1), in every phase that unescapes: a turn of the block
takes the escape byte and remembers it in `ESCP`; a turn with `ESCP = 1` takes the second byte and runs the pair, whatever
came in between; two turns on end are the pair's meaning (which the pair has as an instruction: log 6). -/
def Obligations.PairRunsByteByByte : Prop :=
  (∀ (s t : State) (q : List Byte), s.turn = some t → t.ph = .dec ∨ t.ph = .rHdr ∨ t.ph = .rPay → t.escp = false →
    t.rxq = Config.esc :: q → step s = .next { t with rxq := q, escp := true }) ∧
  (∀ (s t : State) (p : Byte) (q : List Byte) (i : Instr), s.turn = some t → t.ph = .dec ∨ t.ph = .rHdr ∨ t.ph = .rPay →
    t.escp = true → t.rxq = p :: q → decode t.cfg (.wire [Config.esc, p]) = .ok i →
    step s = exec i { t with rxq := q }) ∧
  (∀ (s : State) (t : Byte) (r : List Byte) (i : Instr),
    s.inputs = [] → s.ph = .dec ∨ s.ph = .rHdr ∨ s.ph = .rPay → s.escp = false → s.rxq = Config.esc :: t :: r →
    decode s.cfg (.wire [Config.esc, t]) = .ok i →
    stepRun 2 s = exec i { s with rxq := r })

/-- A header taken byte by byte by the block is the header's meaning (`42_packet_rx.md` section 1; that the header is an
instruction is log 7). -/
def Obligations.HeaderRunsByteByByte : Prop :=
  ∀ (s : State) (h : HdrBytes) (r : List Byte),
    s.inputs = [] → s.ph = .rHdr → s.escp = false → s.idx = 0 → s.rxq = encs h.toList ++ r →
    stepRun (encs h.toList).length s = exec (.header h.direction h.command h.size h.value) { s with rxq := r }

/-! ## Whole operations, from the host's write to completion -/

/-- ENCB and TXDELIM from the write to `CMD` to completion (`40_framing_codec.md` sections 2 and 4): the encoding of
`DATA[7:0]`, or one delimiter, is put, one byte a step. -/
def Obligations.ByteTransmitRuns : Prop :=
  (∀ (s : State) (v : Word), s.busy = false → s.chf = false → s.inputs = [.hostWrite 0x00 v] → opField v = 0x1 →
    stepRun (1 + (enc (s.data.extractLsb' 0 8)).length) s =
      .next { s with inputs := [], op := 0x1, done := true, err := .none, ph := .idle, escp := false, idx := 0, txlog := s.txlog ++ enc (s.data.extractLsb' 0 8) }) ∧
  (∀ (s : State) (v : Word), s.busy = false → s.chf = false → s.inputs = [.hostWrite 0x00 v] → opField v = 0x3 →
    stepRun 2 s =
      .next { s with inputs := [], op := 0x3, done := true, err := .none, ph := .idle, escp := false, idx := 0, txlog := s.txlog ++ [0xC0] })

/-- DECB from the write to `CMD` (`40_framing_codec.md` section 3): the three answers of `dec1`; with `More` it waits,
however long. That a turn without an enabled step is a step which changes nothing is the model's choice, log 17. -/
def Obligations.DecbRun : Prop :=
  ∀ (s : State) (v : Word), s.busy = false → s.chf = false → s.inputs = [.hostWrite 0x00 v] → opField v = 0x2 →
    (∀ b r, dec1 s.rxq = .ok b r →
      stepRun (1 + (s.rxq.length - r.length)) s =
        .next { s with inputs := [], op := 0x2, done := true, err := .none, ph := .idle, escp := false, idx := 0, data := b.setWidth 32, rxq := r }) ∧
    (∀ r, dec1 s.rxq = .err r →
      stepRun (1 + (s.rxq.length - r.length)) s =
        .next { s with inputs := [], op := 0x2, done := true, err := .framing, ph := .idle, escp := false, idx := 0, rxq := r }) ∧
    (dec1 s.rxq = .more → ∀ k,
      stepRun (1 + s.rxq.length + k) s =
        .next { s with inputs := [], op := 0x2, done := false, err := .none, ph := .dec, escp := !s.rxq.isEmpty, idx := 0, rxq := [] })

/-- RXFLUSH (`42_packet_rx.md` section 3): a turn of the block takes one byte, undecoded, or ends the flush where none is
left, whatever came in between; and alone, from the write to `CMD`, it takes one step for each byte and one to end. -/
def Obligations.FlushRun : Prop :=
  (∀ (s t : State), s.turn = some t → t.ph = .flush →
    (∀ p q, t.rxq = p :: q → step s = .next { t with rxq := q }) ∧
    (t.rxq = [] → step s = .next { t with done := true, err := .none, ph := .idle, escp := false })) ∧
  (∀ (s : State) (v : Word), s.busy = false → s.chf = false → s.inputs = [.hostWrite 0x00 v] → opField v = 0x7 →
    stepRun (1 + s.rxq.length + 1) s =
      .next { s with inputs := [], op := 0x7, done := true, err := .none, ph := .idle, escp := false, idx := 0, rxq := [] })

/-- One turn of the block in each transmit phase (`40_framing_codec.md` sections 1, 2 and 4, `41_packet_tx.md` section 1),
whatever came before it: the one physical byte it puts, and how it advances. `cur` is the logical byte being sent:
`DATA[7:0]`, header byte `TXH(IDX)`, or `TXBUF[IDX]`. -/
def Obligations.TransmitTurn : Prop :=
  ∀ s t : State, Invariant s → s.turn = some t →
    (t.ph = .dlm → step s =
      .next { t with txlog := t.txlog ++ [0xC0], done := true, err := .none, ph := .idle, escp := false }) ∧
    (t.ph = .sOpen → step s = .next { t with txlog := t.txlog ++ [0xC0], ph := .sHdr, idx := 0 }) ∧
    (t.ph = .sClose → step s =
      .next { t with txlog := t.txlog ++ [0xC0], done := true, err := .none, ph := .idle, escp := false }) ∧
    (∀ cur : Byte,
      (t.ph = .enc ∧ cur = t.data.extractLsb' 0 8) ∨
        (t.ph = .sHdr ∧ [t.txdir, t.txcmd, t.txsize.extractLsb' 0 8, t.txsize.extractLsb' 8 8, t.txval.extractLsb' 0 8,
          t.txval.extractLsb' 8 8, t.txval.extractLsb' 16 8, t.txval.extractLsb' 24 8][t.idx.toNat]? = some cur) ∨
        (t.ph = .sPay ∧ cur = t.txByte t.idx.toNat) →
      (t.escp = true → cur = 0xC0 ∨ cur = 0xDB) ∧
      (t.escp = false → cur = 0xC0 ∨ cur = 0xDB → step s = .next { t with txlog := t.txlog ++ [0xDB], escp := true }) ∧
      (∀ p : Byte,
        (t.escp = true ∧ p = (if cur = 0xC0 then 0xDC else 0xDD)) ∨
          (t.escp = false ∧ cur ≠ 0xC0 ∧ cur ≠ 0xDB ∧ p = cur) →
        (t.ph = .enc → step s =
          .next { t with txlog := t.txlog ++ [p], escp := false, done := true, err := .none, ph := .idle }) ∧
        (t.ph = .sHdr → t.idx.toNat < 7 →
          step s = .next { t with txlog := t.txlog ++ [p], escp := false, idx := t.idx + 1 }) ∧
        (t.ph = .sHdr → t.idx = 7 → t.txsize = 0 →
          step s = .next { t with txlog := t.txlog ++ [p], escp := false, ph := .sClose, idx := 0 }) ∧
        (t.ph = .sHdr → t.idx = 7 → t.txsize ≠ 0 →
          step s = .next { t with txlog := t.txlog ++ [p], escp := false, ph := .sPay, idx := 0 }) ∧
        (t.ph = .sPay → t.idx.toNat + 1 < t.txsize.toNat →
          step s = .next { t with txlog := t.txlog ++ [p], escp := false, idx := t.idx + 1 }) ∧
        (t.ph = .sPay → t.idx.toNat + 1 = t.txsize.toNat →
          step s = .next { t with txlog := t.txlog ++ [p], escp := false, ph := .sClose }))) ∧
    (t.ph = .sHdr → t.idx.toNat ≤ 7) ∧ (t.ph = .sPay → t.idx.toNat < t.txsize.toNat)

/-- SEND from the write to `CMD` to completion (`41_packet_tx.md` section 1, its big-step rule, which the spec marks as
derived): after exactly `2 + 8 + TXSIZE + k` turns of the block the frame is appended, whatever `TXBUF` holds, the free
bytes included. First alone, then with any events between the turns but `ChanFault` and `Reset`: arriving bytes wait in
`RXQ`, writes are dropped and set `OVR`, and `TXLOG` and everything else are as alone. -/
def Obligations.SendEmitsTheFrame : Prop :=
  ∀ (s : State) (v : Word), s.busy = false → s.chf = false → s.txsize.toNat ≤ s.cfg.txbufDepth → opField v = 0x4 →
    (s.inputs = [.hostWrite 0x00 v] →
      ∃ i : Half,
        stepRun (1 + (2 + 8 + s.txsize.toNat + escapes (s.txHeader.toList ++ s.txPayload))) s =
          .next { s with inputs := [], op := 0x4, done := true, err := .none, ph := .idle, escp := false, idx := i, txlog := s.txlog ++ frame s.txHeader s.txPayload }) ∧
    (∀ evs rest, s.inputs = .hostWrite 0x00 v :: (evs ++ .block :: rest) → evs.all Event.harmless = true →
      evs.count .block + 1 = 2 + 8 + s.txsize.toNat + escapes (s.txHeader.toList ++ s.txPayload) →
      ∃ t, stepRun (1 + evs.length + 1) s = .next t ∧
        t = { s with inputs := rest, op := 0x4, done := true, err := .none, ph := .idle, escp := false, idx := t.idx, txlog := s.txlog ++ frame s.txHeader s.txPayload, rxq := s.rxq ++ arrivals evs, ovr := s.ovr || evs.any Event.isWrite, hostLog := t.hostLog } ∧
        s.hostLog <+: t.hostLog)

/-- An operation with other events between the turns of the block goes as it does alone (`20_memory.md` sections 6 and 9;
the big-step rules of `41_packet_tx.md` section 1 and `42_packet_rx.md` sections 1 and 3, whose `Q` holds the bytes that
arrive during the operation). `evs` are the events from acceptance to the last turn, `ChanFault` and `Reset` not among
them, and the block is busy until that turn ends the operation. Then the state is the one the same command reaches with
all those bytes in `RXQ` at its start and nothing in between, but for `OVR`, `TMR` and the values read. So what
`DecbRun`, `FlushRun`, `RecvDeliversThePacket` and `RecvFailures` say of a command alone holds of every interleaving.
Turns without an enabled step among `evs` are log 17. -/
def Obligations.InterleavedRunsAgree : Prop :=
  ∀ (s u t : State) (v : Word) (evs rest : List Event), s.busy = false → evs.all Event.harmless = true →
    s.inputs = .hostWrite 0x00 v :: (evs ++ .block :: rest) →
    (∀ k w, k ≤ evs.length → stepRun (1 + k) s = .next w → w.busy = true) →
    stepRun (1 + evs.length) s = .next u → step u = .next t → t.busy = false →
    t.inputs = rest ∧
    ∃ n, n ≤ 2 + evs.count .block ∧
      stepRun n { s with inputs := [.hostWrite 0x00 v], rxq := s.rxq ++ arrivals evs } =
        .next { t with inputs := [], ovr := s.ovr, hostLog := s.hostLog, tmr := if opField v = 0x5 then 0 else s.tmr }

/-- RECV from the write to `CMD` to success (`42_packet_rx.md` section 1, its big-step rule, which the spec marks as
derived): `q` is what follows the opening delimiter, `h` the eight logical bytes it decodes to, `p` the payload, `r` what
is left, the closing delimiter among it (log 16); the bytes of `RXBUF` beyond the packet stay (log 20). Bytes that arrive,
and other events, in the middle: `Obligations.InterleavedRunsAgree`. -/
def Obligations.RecvDeliversThePacket : Prop :=
  ∀ (s : State) (v : Word) (q q' r p : List Byte) (h : HdrBytes),
    s.busy = false → s.chf = false → s.rxcap.toNat ≤ s.cfg.rxbufDepth → s.inputs = [.hostWrite 0x00 v] →
    opField v = 0x5 → s.rxq = Config.delim :: q → decN 8 q = some (h.toList, q') →
    h.size.toNat ≤ s.rxcap.toNat → decN h.size.toNat q' = some (p, r) →
    ∃ t, stepRun (2 + (q.length - r.length)) s = .next t ∧
      (∀ i, t.rxByte i = if i < h.size.toNat then p.getD i 0 else s.rxByte i) ∧
      t = { s with inputs := [], op := 0x5, done := true, err := .none, ph := .idle, escp := false, idx := t.idx, tmr := 0, rxv := true, hdrb := h, rxcnt := h.size, rxbuf := t.rxbuf, rxq := r }

/-- RECV's failures from the write to `CMD` (`42_packet_rx.md` section 1, marked as derived there): a first byte that is no
delimiter; a bad escape in header byte `j`; a size above the capacity; a bad escape in payload byte `j`. Exactly the bytes
up to the failure are consumed; the bytes of `RXBUF` beyond those stored stay (log 20). Bytes that arrive, and other
events, in the middle: `Obligations.InterleavedRunsAgree`. -/
def Obligations.RecvFailures : Prop :=
  ∀ (s : State) (v : Word), s.busy = false → s.chf = false → s.rxcap.toNat ≤ s.cfg.rxbufDepth →
    s.inputs = [.hostWrite 0x00 v] → opField v = 0x5 →
    (∀ c q, s.rxq = c :: q → c ≠ Config.delim →
      stepRun 2 s =
        .next { s with inputs := [], op := 0x5, done := true, err := .framing, ph := .idle, escp := false, idx := 0, tmr := 0, rxv := false, rxcnt := 0, rxq := q }) ∧
    (∀ q j bytes t r, s.rxq = Config.delim :: q → j < 8 → decN j q = some (bytes, Config.esc :: t :: r) →
      unpair t = none →
      ∃ u, stepRun (2 + (q.length - r.length)) s = .next u ∧
        (∀ i, i < 8 → u.hdrb.get i = if i < j then bytes.getD i 0 else s.hdrb.get i) ∧
        u = { s with inputs := [], op := 0x5, done := true, err := .framing, ph := .idle, escp := false, idx := u.idx, tmr := 0, rxv := false, rxcnt := 0, hdrb := u.hdrb, rxq := r }) ∧
    (∀ q (h : HdrBytes) r, s.rxq = Config.delim :: q → decN 8 q = some (h.toList, r) → s.rxcap.toNat < h.size.toNat →
      stepRun (2 + (q.length - r.length)) s =
        .next { s with inputs := [], op := 0x5, done := true, err := .bufsmall, ph := .idle, escp := false, idx := 7, tmr := 0, rxv := false, rxcnt := 0, hdrb := h, rxq := r }) ∧
    (∀ q (h : HdrBytes) q' j p t r, s.rxq = Config.delim :: q → decN 8 q = some (h.toList, q') →
      h.size.toNat ≤ s.rxcap.toNat → j < h.size.toNat → decN j q' = some (p, Config.esc :: t :: r) →
      unpair t = none →
      ∃ u, stepRun (2 + (q.length - r.length)) s = .next u ∧
        (∀ i, u.rxByte i = if i < j then p.getD i 0 else s.rxByte i) ∧
        u = { s with inputs := [], op := 0x5, done := true, err := .framing, ph := .idle, escp := false, idx := u.idx, tmr := 0, rxv := false, rxcnt := BitVec.ofNat 16 j, hdrb := h, rxbuf := u.rxbuf, rxq := r })

/-- R162's window (decision D14) on a channel that never becomes readable: before the last tick RECV still waits, at the
tick that reaches `RX_TIMEOUT_MS` it completes with `TIMEOUT`, nothing taken. -/
def Obligations.RecvTimesOutExactly : Prop :=
  ∀ (s : State) (v : Word) (n : Nat), s.cfg.wf = true → s.busy = false → s.chf = false →
    s.rxcap.toNat ≤ s.cfg.rxbufDepth → s.rxq = [] → opField v = 0x5 →
    s.inputs = .hostWrite 0x00 v :: List.replicate n .tick →
    (n < s.cfg.rxTimeoutMs →
      stepRun (1 + n) s =
        .next { s with inputs := [], op := 0x5, done := false, err := .none, ph := .rWait, escp := false, idx := 0, tmr := BitVec.ofNat 15 n, rxv := false, rxcnt := 0 }) ∧
    (n = s.cfg.rxTimeoutMs →
      stepRun (1 + n) s =
        .next { s with inputs := [], op := 0x5, done := true, err := .timeout, ph := .idle, escp := false, idx := 0, tmr := BitVec.ofNat 15 n, rxv := false, rxcnt := 0 })

/-- The packet round trip of `41_packet_tx.md` section 1 and `42_packet_rx.md` section 1 (marked as derived there): what
SEND puts, arriving on a loopback channel, is received as the same header fields and payload bytes; both operations have
completed, and the closing delimiter stays behind (log 16). -/
def Obligations.PacketRoundTrip : Prop :=
  ∀ (s : State) (v w : Word), s.busy = false → s.chf = false → s.txsize.toNat ≤ s.cfg.txbufDepth →
    s.txsize.toNat ≤ s.rxcap.toNat → s.rxcap.toNat ≤ s.cfg.rxbufDepth → opField v = 0x4 → opField w = 0x5 →
    s.inputs = [.hostWrite 0x00 v] →
    ∃ n m t u bytes, stepRun n s = .next t ∧ t.op = 0x4 ∧ t.ph = .idle ∧ t.done = true ∧ t.err = .none ∧
      t.txlog = s.txlog ++ bytes ∧
      stepRun m { t with rxq := bytes, inputs := [.hostWrite 0x00 w] } = .next u ∧
      u.op = 0x5 ∧ u.ph = .idle ∧ u.done = true ∧ u.err = .none ∧ u.rxv = true ∧ u.hdrb.direction = s.txdir ∧ u.hdrb.command = s.txcmd ∧
      u.hdrb.size = s.txsize ∧ u.hdrb.value = s.txval ∧ u.rxPayload = s.txPayload ∧ u.rxq = [Config.delim]

/-- `40_framing_codec.md` section 5, frame wrapping by hand (marked as derived there), as the script of R110 runs it: TXDELIM,
ENCB for each byte, TXDELIM append the frame SEND would. The script gives each ENCB two turns, and one that is not needed
changes nothing (log 17). -/
def Obligations.FrameWrappedByHand : Prop :=
  ∀ (s : State) (h : HdrBytes) (p : List Byte), s.busy = false → s.chf = false →
    s.inputs = Script.frameByHand h p →
    ∃ t, stepRun (Script.frameByHand h p).length s = .next t ∧ t.txlog = s.txlog ++ frame h p ∧
      t.ph = .idle ∧ t.err = .none ∧ t.inputs = []

/-- `43_checksum.md` section 5 (marked as derived there), the script `CKBLK` of R111: CKINIT, then each byte written to
`DATA` and folded, leaves the checksum of the bytes in `CKSUM`, even on a faulted channel. -/
def Obligations.ChecksumOfABlock : Prop :=
  ∀ (s : State) (bytes : List Byte), s.busy = false → s.inputs = Script.ckBlk bytes →
    ∃ t, stepRun (Script.ckBlk bytes).length s = .next t ∧ t.cksum = checksum bytes ∧ t.err = .none ∧
      t.ph = .idle ∧ t.inputs = []

/-- `42_packet_rx.md` section 1 and `70_reset_and_hazards.md` section 3: with no byte in `RXQ` a DECB or a started RECV
stays as it is, for any number of ticks and turns. The spec makes no step where none is enabled; that such a turn answers
the unchanged state is the model's choice, log 17. -/
def Obligations.WaitsForEver : Prop :=
  ∀ (s : State) (n m : Nat), s.ph = .dec ∨ s.ph = .rHdr ∨ s.ph = .rPay → s.rxq = [] →
    s.inputs = List.replicate n .tick → stepRun (n + m) s = .next { s with inputs := [] }

/-! ## Events and host accesses -/

/-- R47 (decision D10). -/
def Obligations.ArriveAppends : Prop :=
  ∀ (s : State) (b : Byte) (rest : List Event), s.inputs = .arrive b :: rest →
    step s = .next { s with inputs := rest, rxq := s.rxq ++ [b] }

/-- R46 (decision D14). -/
def Obligations.TickCountsTheWindow : Prop :=
  ∀ (s : State) (rest : List Event), s.inputs = .tick :: rest →
    (s.ph = .rWait → s.rxq = [] → (s.tmr + 1).toNat = s.cfg.rxTimeoutMs →
      step s = .next { s with inputs := rest, tmr := s.tmr + 1, err := .timeout, done := true, ph := .idle, escp := false }) ∧
    (s.ph = .rWait → s.rxq = [] → (s.tmr + 1).toNat ≠ s.cfg.rxTimeoutMs →
      step s = .next { s with inputs := rest, tmr := s.tmr + 1 }) ∧
    (s.ph ≠ .rWait ∨ s.rxq ≠ [] → step s = .next { s with inputs := rest })

/-- R45 (decision D24): the fault, that every operation in progress is a channel operation, and that nothing but a fault
or a reset ends a RECV stuck in the middle of a frame, or changes its phase, and nothing but an arriving byte fills `RXQ`. -/
def Obligations.ChannelFaultEndsTheOperation : Prop :=
  (∀ (s : State) (rest : List Event), s.inputs = .chanFault :: rest →
    (s.busy = true →
      step s = .next { s with inputs := rest, chf := true, err := .channel, done := true, ph := .idle, escp := false }) ∧
    (s.busy = false → step s = .next { s with inputs := rest, chf := true })) ∧
  (∀ s : State, s.busy = true → Invariant s →
    s.op = 0x1 ∨ s.op = 0x2 ∨ s.op = 0x3 ∨ s.op = 0x4 ∨ s.op = 0x5 ∨ s.op = 0x7) ∧
  (∀ s t : State, s.ph = .rHdr ∨ s.ph = .rPay → s.rxq = [] → step s = .next t →
    (t.ph ≠ s.ph → (∃ rest, s.inputs = .chanFault :: rest) ∨ s.resets) ∧
    (t.rxq ≠ [] → ∃ b rest, s.inputs = .arrive b :: rest ∧ t.rxq = [b]))

/-- The table of reset values (`10_state.md` section 9, decision D27), from any state and whatever operation was in
progress. Three clauses are the model's own: the free value each buffer byte becomes, of which nothing is known, and the
next `epoch`, which are log 2's choice for "unspecified"; and the configuration, which stays (log 3). -/
def Obligations.ResetValues : Prop :=
  ∀ (s : State) (rest : List Event), s.inputs = .reset :: rest →
    ∃ t, step s = .next t ∧
      t.data = 0 ∧ t.txdir = 0 ∧ t.txcmd = 0 ∧ t.txsize = 0 ∧ t.txval = 0 ∧ t.rxcap = 0 ∧
      (∀ i, i < 8 → t.hdrb.get i = 0) ∧ t.hdrb.direction = 0 ∧ t.hdrb.command = 0 ∧ t.hdrb.size = 0 ∧
      t.hdrb.value = 0 ∧ t.rxcnt = 0 ∧ t.cksum = 0x000000EF ∧ t.tmr = 0 ∧ t.busy = false ∧ t.done = false ∧
      t.err = .none ∧ t.rxv = false ∧ t.ckok = false ∧ t.rspok = false ∧ t.ovr = false ∧ t.chf = false ∧ t.op = 0 ∧
      t.ph = .idle ∧ t.idx = 0 ∧ t.escp = false ∧ t.rxq = s.rxq ∧ t.txlog = s.txlog ∧ t.cfg = s.cfg ∧
      (∀ i, t.txByte i = Config.freeTxByte t.epoch i ∧ t.rxByte i = Config.freeRxByte t.epoch i) ∧ t.epoch = s.epoch + 1

/-- R61 (decision D9) with the locations of R63: what a host read returns, busy or not, and that it changes no state. The
value goes to the model's own field `hostLog`, log 5. -/
def Obligations.HostReadReturnsTheLocation : Prop :=
  ∀ (s : State) (a : Loc) (rest : List Event), s.inputs = .hostRead a :: rest →
    ∃ v : Word, step s = .next { s with inputs := rest, hostLog := s.hostLog ++ [v] } ∧
      (a = 0x00 → v = 0) ∧ (a = 0x01 → v = s.status) ∧ (a = 0x02 → v = s.data) ∧
      (a = 0x03 → v = s.txdir.setWidth 32) ∧ (a = 0x04 → v = s.txcmd.setWidth 32) ∧
      (a = 0x05 → v = s.txsize.setWidth 32) ∧ (a = 0x06 → v = s.txval) ∧ (a = 0x07 → v = s.rxcap.setWidth 32) ∧
      (a = 0x08 → v = (s.hdrb.get 0).setWidth 32) ∧ (a = 0x09 → v = (s.hdrb.get 1).setWidth 32) ∧
      (a = 0x0A → v = (s.hdrb.get 3 ++ s.hdrb.get 2).setWidth 32) ∧
      (a = 0x0B → v = s.hdrb.get 7 ++ s.hdrb.get 6 ++ s.hdrb.get 5 ++ s.hdrb.get 4) ∧
      (a = 0x0C → v = s.rxcnt.setWidth 32) ∧ (a = 0x0D → v = s.cksum) ∧ (a = 0x0E → v = s.tmr.setWidth 32) ∧
      (∀ i, i < s.cfg.txbufDepth → a.toNat = 0x10000 + i → v = (s.txByte i).setWidth 32) ∧
      (∀ i, i < s.cfg.rxbufDepth → s.cfg.txbufDepth ≤ 65535 → a.toNat = 0x20000 + i →
        v = (s.rxByte i).setWidth 32) ∧
      (0x0E < a.toNat → ¬ (0x10000 ≤ a.toNat ∧ a.toNat < 0x10000 + s.cfg.txbufDepth) →
        ¬ (0x20000 ≤ a.toNat ∧ a.toNat < 0x20000 + s.cfg.rxbufDepth) → v = 0)

/-- R26 (decisions D5, D9): the bits of the `STATUS` view. -/
def Obligations.StatusLayout : Prop :=
  ∀ s : State,
    s.status.getLsbD 0 = s.busy ∧ s.status.getLsbD 1 = s.done ∧
    s.status.extractLsb' 2 3 =
      (match s.err with
        | .none => 0 | .framing => 1 | .timeout => 2 | .bufsmall => 3 | .proto => 4 | .channel => 5 | .badcmd => 6) ∧
    s.status.getLsbD 5 = s.rxv ∧ s.status.getLsbD 6 = s.ckok ∧ s.status.getLsbD 7 = s.rspok ∧
    s.status.getLsbD 8 = s.ovr ∧ s.status.getLsbD 9 = s.chf ∧ s.status.getLsbD 10 = decide (s.rxq ≠ []) ∧
    s.status.extractLsb' 11 21 = 0

/-- R62 (decisions D8, D9): dropped while busy; while idle `CMD` dispatches the command, a register takes the value
truncated, a `TXBUF` location its low byte and every other byte stays, and every other location is left alone. -/
def Obligations.HostWriteStores : Prop :=
  ∀ (s : State) (a : Loc) (v : Word) (rest : List Event), s.inputs = .hostWrite a v :: rest →
    (s.busy = true → step s = .next { s with inputs := rest, ovr := true }) ∧
    (s.busy = false →
      (a = 0x00 → step s = exec (decodeOp (opField v)) { s with inputs := rest }) ∧
      (a = 0x02 → step s = .next { s with inputs := rest, data := v }) ∧
      (a = 0x03 → step s = .next { s with inputs := rest, txdir := v.extractLsb' 0 8 }) ∧
      (a = 0x04 → step s = .next { s with inputs := rest, txcmd := v.extractLsb' 0 8 }) ∧
      (a = 0x05 → step s = .next { s with inputs := rest, txsize := v.extractLsb' 0 16 }) ∧
      (a = 0x06 → step s = .next { s with inputs := rest, txval := v }) ∧
      (a = 0x07 → step s = .next { s with inputs := rest, rxcap := v.extractLsb' 0 16 }) ∧
      (∀ i, i < s.cfg.txbufDepth → a.toNat = 0x10000 + i →
        ∃ t, step s = .next t ∧ t = { s with inputs := rest, txbuf := t.txbuf } ∧ t.txByte i = v.extractLsb' 0 8 ∧
          ∀ j, j ≠ i → t.txByte j = s.txByte j) ∧
      (a = 0x01 ∨ 0x07 < a.toNat → ¬ (0x10000 ≤ a.toNat ∧ a.toNat < 0x10000 + s.cfg.txbufDepth) →
        step s = .next { s with inputs := rest }))

/-- R35 (decisions D6, D8): `CMD` reads as 0; a write starts the operation of its low four bits, whatever the others are;
a write while busy is dropped and sets `OVR`. -/
def Obligations.CommandRegister : Prop :=
  (∀ s : State, hostRead s 0x00 = 0) ∧
  (∀ (s : State) (v w : Word) (rest : List Event), s.inputs = .hostWrite 0x00 v :: rest →
    v.extractLsb' 0 4 = w.extractLsb' 0 4 → step s = step { s with inputs := .hostWrite 0x00 w :: rest }) ∧
  (∀ (s : State) (v : Word) (rest : List Event), s.inputs = .hostWrite 0x00 v :: rest → s.busy = false →
    step s = exec (decodeOp (v.extractLsb' 0 4)) { s with inputs := rest } ∧
    ∃ t, step s = .next t ∧ t.op = v.extractLsb' 0 4) ∧
  (∀ (s : State) (v : Word) (rest : List Event), s.inputs = .hostWrite 0x00 v :: rest → s.busy = true →
    step s = .next { s with inputs := rest, ovr := true })

/-! ## Rules about the whole machine -/

/-- R32 (decisions D8, D36): `OVR` is set by a host write while busy, to any location, which changes nothing else; nothing
else sets it, and only `Reset` clears it. -/
def Obligations.OverrunFlag : Prop :=
  (∀ (s : State) (a : Loc) (v : Word) (rest : List Event), s.inputs = .hostWrite a v :: rest → s.busy = true →
    step s = .next { s with inputs := rest, ovr := true }) ∧
  (∀ s t : State, step s = .next t → s.ovr = false → t.ovr = true →
    s.busy = true ∧ ∃ a v rest, s.inputs = .hostWrite a v :: rest) ∧
  (∀ s t : State, step s = .next t → s.ovr = true → t.ovr = true ∨ s.resets)

/-- R33 (decisions D24, D36): `CHF` is set by `ChanFault` and by nothing else, only `Reset` clears it, and while it is set
every channel operation completes at acceptance with `CHANNEL` and moves no byte. -/
def Obligations.ChannelFaultFlag : Prop :=
  (∀ s t : State, step s = .next t → (∃ rest, s.inputs = .chanFault :: rest) → t.chf = true) ∧
  (∀ s t : State, step s = .next t → s.chf = false → t.chf = true → ∃ rest, s.inputs = .chanFault :: rest) ∧
  (∀ s t : State, step s = .next t → s.chf = true → t.chf = true ∨ s.resets) ∧
  (∀ (s : State) (op : BitVec 4), s.busy = false → s.chf = true → op ∈ [0x1#4, 0x2, 0x3, 0x4, 0x5, 0x7] →
    exec (decodeOp op) s =
      .next { s with op := op, done := true, err := .channel, ph := .idle, escp := false, idx := 0 })

/-- Who writes `CKSUM`, `CKOK`, `RSPOK`, `HDRB`, `TMR` and `RXCNT` (`10_state.md` sections 2 to 5). -/
def Obligations.OnlyTheirOperationsWrite : Prop :=
  ∀ s t : State, step s = .next t → ¬ s.resets →
    (t.cksum ≠ s.cksum → s.accepts 0x8 ∨ s.accepts 0x9) ∧
    (t.ckok ≠ s.ckok → s.accepts 0xA) ∧
    (t.rspok ≠ s.rspok → s.accepts 0x6) ∧
    (t.hdrb ≠ s.hdrb → s.ph = .rHdr) ∧
    (t.rxcnt ≠ s.rxcnt → s.ph = .rPay ∨ s.accepts 0x5) ∧
    (t.tmr ≠ s.tmr → (s.ph = .rWait ∧ s.rxq = [] ∧ ∃ rest, s.inputs = .tick :: rest) ∨ s.accepts 0x5)

/-- `10_state.md` section 3, `RXV`: an accepted RECV clears it, the step that completes a RECV with `NONE` sets it, `Reset`
clears it, and nothing else touches it. -/
def Obligations.ValidFlag : Prop :=
  ∀ s t : State, step s = .next t →
    (s.rxv = true → t.rxv = false → s.resets ∨ (s.accepts 0x5 ∧ t.ph = .rWait)) ∧
    (s.rxv = false → t.rxv = true → s.ph.ofRecv = true ∧ t.ph = .idle ∧ t.err = .none ∧ s.turn ≠ none) ∧
    (s.accepts 0x5 → t.ph = .rWait → t.rxv = false) ∧
    (s.ph.ofRecv = true → t.ph = .idle → t.err = .none → ¬ s.resets → Invariant s → t.rxv = true)

/-- `20_memory.md` section 9 (marked as derived there): what a running operation reads keeps the value it had at
acceptance; `DATA` changes only as DECB's result. -/
def Obligations.OperandsStableWhileBusy : Prop :=
  ∀ s t : State, step s = .next t → s.busy = true → ¬ s.resets →
    t.txdir = s.txdir ∧ t.txcmd = s.txcmd ∧ t.txsize = s.txsize ∧ t.txval = s.txval ∧ t.rxcap = s.rxcap ∧
    (∀ i, t.txByte i = s.txByte i) ∧ (s.ph ≠ .dec → t.data = s.data)

/-- Every byte of the two buffers stays, but for a `TXBUF` byte the host writes (`20_memory.md` section 1) and the
`RXBUF` byte RECV stores (`42_packet_rx.md` section 1, section 11 of `20_memory.md`), each at its computed index
(`10_state.md` section 6). That the bytes of `RXBUF` at and above `RXCNT` stay follows R39 against U7: log 20. -/
def Obligations.BufferBytesChangeOnlyWhereWritten : Prop :=
  ∀ s t : State, step s = .next t → ¬ s.resets → ∀ i,
    (t.txByte i = s.txByte i ∨ ∃ a v, s.writes a v ∧ a.toNat = 0x10000 + i ∧ i < s.cfg.txbufDepth) ∧
    (t.rxByte i = s.rxByte i ∨ (s.ph = .rPay ∧ i = s.idx.toNat ∧ i < s.cfg.rxbufDepth ∧ s.turn ≠ none))

/-- `20_memory.md` sections 1 and 6: bytes enter `RXQ` at its end by `Arrive` and leave it one at a time at its head by the
block's turn in a receive phase; `TXLOG` only grows, one byte at a time, by the block's turn in a transmit phase. -/
def Obligations.StreamsMoveOneByteInOrder : Prop :=
  ∀ s t : State, step s = .next t →
    (t.rxq = s.rxq ∨ (∃ b rest, s.inputs = .arrive b :: rest ∧ t.rxq = s.rxq ++ [b]) ∨
      (s.busy = true ∧ s.ph.transmits = false ∧ s.turn ≠ none ∧ ∃ p, s.rxq = p :: t.rxq)) ∧
    (t.txlog = s.txlog ∨ (s.ph.transmits = true ∧ s.turn ≠ none ∧ ∃ b, t.txlog = s.txlog ++ [b]))

/-- `44_control_ops.md` section 2 (marked as derived there): the phase after every step is the one of the table
`phaseAfter`. -/
def Obligations.PhaseTransitions : Prop :=
  ∀ s t : State, Invariant s → step s = .next t →
    t.ph = (match s.inputs with | [] => phaseTurn s | e :: _ => phaseAfter s e)

/-- The reset state meets the invariant. The buffers' contents and the environment's part are the model's (log 2, 4). -/
def Obligations.ResetMeetsInvariant : Prop := Invariant State.reset

/-- Every step keeps the invariant: the canonical buffers, `CKSUM[31:8] = 0`, the range of `TMR`, `BUSY` and `DONE` never
both 1, `ESCP` only inside a pair, every index inside its buffer, `RXV` only with a whole packet. -/
def Obligations.StepKeepsInvariant : Prop :=
  ∀ s t : State, Invariant s → step s = .next t → Invariant t

/-- From a state that meets the invariant no step stops: the indices of `20_memory.md` section 11 never leave their
buffers, and every instruction has its effect (the stops this rules out are log 11; a turn with no enabled step is
log 17). -/
def Obligations.NoStepStops : Prop :=
  ∀ s : State, Invariant s → ∃ t, step s = .next t

/-- `45_host_session_reference.md` section 3, host software: within the second branch the erase size is non-decreasing in
the size, and the first branch gives 0 or 1 (both marked as derived or as the document's property there). -/
def Obligations.EraseSizeMonotone : Prop :=
  (∀ offset a b : Nat, a ≤ b →
    2 * Session.headSectors offset ≤ Session.ceilDiv a Session.sectorSize →
    Session.eraseSize offset a ≤ Session.eraseSize offset b) ∧
  (∀ offset a : Nat, Session.ceilDiv a Session.sectorSize < 2 * Session.headSectors offset →
    Session.eraseSize offset a = if a = 0 then 0 else 1)
end

