-- ==== Sys2Proof/Laws/Codec.lean ====
section
/-! SUPPORT. The codec one logical byte at a time. -/

namespace Sys2Proof

/-- The three shapes of an encoded byte (R92). -/
theorem enc_cases (b : Byte) :
    (b = Config.delim ∧ enc b = [Config.esc, Config.escDelim]) ∨
    (b = Config.esc ∧ enc b = [Config.esc, Config.escEsc]) ∨
    (b ≠ Config.delim ∧ b ≠ Config.esc ∧ enc b = [b]) := by
  by_cases h₁ : b = Config.delim
  · exact .inl ⟨h₁, by simp [enc, h₁]⟩
  · by_cases h₂ : b = Config.esc
    · exact .inr (.inl ⟨h₂, by rw [h₂]; decide⟩)
    · exact .inr (.inr ⟨h₁, h₂, by simp [enc, h₁, h₂]⟩)

theorem esc_ne_delim : Config.esc ≠ Config.delim := by decide

@[simp] theorem unpair_escDelim : unpair Config.escDelim = some Config.delim := by decide

@[simp] theorem unpair_escEsc : unpair Config.escEsc = some Config.esc := by decide

/-- The second bytes that complete no symbol (R105). -/
theorem unpair_eq_none_iff (t : Byte) : unpair t = none ↔ t ≠ Config.escDelim ∧ t ≠ Config.escEsc := by
  by_cases h₁ : t = Config.escDelim
  · simp [unpair, h₁]
  · by_cases h₂ : t = Config.escEsc
    · subst h₂; decide
    · simp [unpair, h₁, h₂]

/-- A literal decodes to itself (R93). -/
theorem dec1_literal {p : Byte} (h : p ≠ Config.esc) (r : List Byte) : dec1 (p :: r) = .ok p r := by
  simp [dec1, h]

/-- A pair decodes by its second byte (R93). -/
theorem dec1_pair (t : Byte) (r : List Byte) :
    dec1 (Config.esc :: t :: r) = match unpair t with | some b => .ok b r | none => .err r := by
  cases h : unpair t <;> simp [dec1, h]

/-- Decoding undoes encoding, one byte (R93). -/
theorem dec1_enc (b : Byte) (r : List Byte) : dec1 (enc b ++ r) = .ok b r := by
  rcases enc_cases b with ⟨h, he⟩ | ⟨h, he⟩ | ⟨_, h, he⟩
  · rw [he, h]; exact dec1_pair _ r
  · rw [he, h]; exact dec1_pair _ r
  · rw [he]; exact dec1_literal h r

theorem encs_nil : encs [] = [] := rfl

theorem encs_cons (b : Byte) (s : List Byte) : encs (b :: s) = enc b ++ encs s := rfl

/-- How long one encoded byte is (R95). -/
theorem length_enc (b : Byte) : (enc b).length = 1 + escapes [b] := by
  rcases enc_cases b with ⟨h, he⟩ | ⟨h, he⟩ | ⟨h₁, h₂, he⟩
  · rw [he, h]; decide
  · rw [he, h]; decide
  · simp [he, escapes, h₁, h₂]

theorem escapes_cons (b : Byte) (s : List Byte) : escapes (b :: s) = escapes [b] + escapes s := by
  simp [escapes, List.countP_cons]; omega

end Sys2Proof
end

