-- ==== Sys2Proof/Laws/State.lean ====
section
/-! SUPPORT. One lemma for each field and each update of the state that has a name, all true by `rfl`. -/

namespace Sys2Proof.Machine

@[simp] theorem accept_cfg (o : BitVec 4) (s : State) : (accept o s).cfg = s.cfg := rfl
@[simp] theorem accept_data (o : BitVec 4) (s : State) : (accept o s).data = s.data := rfl
@[simp] theorem accept_txdir (o : BitVec 4) (s : State) : (accept o s).txdir = s.txdir := rfl
@[simp] theorem accept_txcmd (o : BitVec 4) (s : State) : (accept o s).txcmd = s.txcmd := rfl
@[simp] theorem accept_txsize (o : BitVec 4) (s : State) : (accept o s).txsize = s.txsize := rfl
@[simp] theorem accept_txval (o : BitVec 4) (s : State) : (accept o s).txval = s.txval := rfl
@[simp] theorem accept_rxcap (o : BitVec 4) (s : State) : (accept o s).rxcap = s.rxcap := rfl
@[simp] theorem accept_hdrb (o : BitVec 4) (s : State) : (accept o s).hdrb = s.hdrb := rfl
@[simp] theorem accept_rxcnt (o : BitVec 4) (s : State) : (accept o s).rxcnt = s.rxcnt := rfl
@[simp] theorem accept_cksum (o : BitVec 4) (s : State) : (accept o s).cksum = s.cksum := rfl
@[simp] theorem accept_tmr (o : BitVec 4) (s : State) : (accept o s).tmr = s.tmr := rfl
@[simp] theorem accept_done (o : BitVec 4) (s : State) : (accept o s).done = false := rfl
@[simp] theorem accept_err (o : BitVec 4) (s : State) : (accept o s).err = .none := rfl
@[simp] theorem accept_rxv (o : BitVec 4) (s : State) : (accept o s).rxv = s.rxv := rfl
@[simp] theorem accept_ckok (o : BitVec 4) (s : State) : (accept o s).ckok = s.ckok := rfl
@[simp] theorem accept_rspok (o : BitVec 4) (s : State) : (accept o s).rspok = s.rspok := rfl
@[simp] theorem accept_ovr (o : BitVec 4) (s : State) : (accept o s).ovr = s.ovr := rfl
@[simp] theorem accept_chf (o : BitVec 4) (s : State) : (accept o s).chf = s.chf := rfl
@[simp] theorem accept_txbuf (o : BitVec 4) (s : State) : (accept o s).txbuf = s.txbuf := rfl
@[simp] theorem accept_rxbuf (o : BitVec 4) (s : State) : (accept o s).rxbuf = s.rxbuf := rfl
@[simp] theorem accept_op (o : BitVec 4) (s : State) : (accept o s).op = o := rfl
@[simp] theorem accept_ph (o : BitVec 4) (s : State) : (accept o s).ph = s.ph := rfl
@[simp] theorem accept_idx (o : BitVec 4) (s : State) : (accept o s).idx = 0 := rfl
@[simp] theorem accept_escp (o : BitVec 4) (s : State) : (accept o s).escp = false := rfl
@[simp] theorem accept_rxq (o : BitVec 4) (s : State) : (accept o s).rxq = s.rxq := rfl
@[simp] theorem accept_txlog (o : BitVec 4) (s : State) : (accept o s).txlog = s.txlog := rfl
@[simp] theorem accept_hostLog (o : BitVec 4) (s : State) : (accept o s).hostLog = s.hostLog := rfl
@[simp] theorem accept_inputs (o : BitVec 4) (s : State) : (accept o s).inputs = s.inputs := rfl
@[simp] theorem accept_epoch (o : BitVec 4) (s : State) : (accept o s).epoch = s.epoch := rfl

@[simp] theorem complete_cfg (e : Err) (s : State) : (complete e s).cfg = s.cfg := rfl
@[simp] theorem complete_data (e : Err) (s : State) : (complete e s).data = s.data := rfl
@[simp] theorem complete_txdir (e : Err) (s : State) : (complete e s).txdir = s.txdir := rfl
@[simp] theorem complete_txcmd (e : Err) (s : State) : (complete e s).txcmd = s.txcmd := rfl
@[simp] theorem complete_txsize (e : Err) (s : State) : (complete e s).txsize = s.txsize := rfl
@[simp] theorem complete_txval (e : Err) (s : State) : (complete e s).txval = s.txval := rfl
@[simp] theorem complete_rxcap (e : Err) (s : State) : (complete e s).rxcap = s.rxcap := rfl
@[simp] theorem complete_hdrb (e : Err) (s : State) : (complete e s).hdrb = s.hdrb := rfl
@[simp] theorem complete_rxcnt (e : Err) (s : State) : (complete e s).rxcnt = s.rxcnt := rfl
@[simp] theorem complete_cksum (e : Err) (s : State) : (complete e s).cksum = s.cksum := rfl
@[simp] theorem complete_tmr (e : Err) (s : State) : (complete e s).tmr = s.tmr := rfl
@[simp] theorem complete_done (e : Err) (s : State) : (complete e s).done = true := rfl
@[simp] theorem complete_err (e : Err) (s : State) : (complete e s).err = e := rfl
@[simp] theorem complete_rxv (e : Err) (s : State) : (complete e s).rxv = s.rxv := rfl
@[simp] theorem complete_ckok (e : Err) (s : State) : (complete e s).ckok = s.ckok := rfl
@[simp] theorem complete_rspok (e : Err) (s : State) : (complete e s).rspok = s.rspok := rfl
@[simp] theorem complete_ovr (e : Err) (s : State) : (complete e s).ovr = s.ovr := rfl
@[simp] theorem complete_chf (e : Err) (s : State) : (complete e s).chf = s.chf := rfl
@[simp] theorem complete_txbuf (e : Err) (s : State) : (complete e s).txbuf = s.txbuf := rfl
@[simp] theorem complete_rxbuf (e : Err) (s : State) : (complete e s).rxbuf = s.rxbuf := rfl
@[simp] theorem complete_op (e : Err) (s : State) : (complete e s).op = s.op := rfl
@[simp] theorem complete_ph (e : Err) (s : State) : (complete e s).ph = .idle := rfl
@[simp] theorem complete_idx (e : Err) (s : State) : (complete e s).idx = s.idx := rfl
@[simp] theorem complete_escp (e : Err) (s : State) : (complete e s).escp = false := rfl
@[simp] theorem complete_rxq (e : Err) (s : State) : (complete e s).rxq = s.rxq := rfl
@[simp] theorem complete_txlog (e : Err) (s : State) : (complete e s).txlog = s.txlog := rfl
@[simp] theorem complete_hostLog (e : Err) (s : State) : (complete e s).hostLog = s.hostLog := rfl
@[simp] theorem complete_inputs (e : Err) (s : State) : (complete e s).inputs = s.inputs := rfl
@[simp] theorem complete_epoch (e : Err) (s : State) : (complete e s).epoch = s.epoch := rfl

@[simp] theorem serPut_cfg (b : Byte) (s : State) : (serPut b s).cfg = s.cfg := rfl
@[simp] theorem serPut_data (b : Byte) (s : State) : (serPut b s).data = s.data := rfl
@[simp] theorem serPut_txdir (b : Byte) (s : State) : (serPut b s).txdir = s.txdir := rfl
@[simp] theorem serPut_txcmd (b : Byte) (s : State) : (serPut b s).txcmd = s.txcmd := rfl
@[simp] theorem serPut_txsize (b : Byte) (s : State) : (serPut b s).txsize = s.txsize := rfl
@[simp] theorem serPut_txval (b : Byte) (s : State) : (serPut b s).txval = s.txval := rfl
@[simp] theorem serPut_rxcap (b : Byte) (s : State) : (serPut b s).rxcap = s.rxcap := rfl
@[simp] theorem serPut_hdrb (b : Byte) (s : State) : (serPut b s).hdrb = s.hdrb := rfl
@[simp] theorem serPut_rxcnt (b : Byte) (s : State) : (serPut b s).rxcnt = s.rxcnt := rfl
@[simp] theorem serPut_cksum (b : Byte) (s : State) : (serPut b s).cksum = s.cksum := rfl
@[simp] theorem serPut_tmr (b : Byte) (s : State) : (serPut b s).tmr = s.tmr := rfl
@[simp] theorem serPut_done (b : Byte) (s : State) : (serPut b s).done = s.done := rfl
@[simp] theorem serPut_err (b : Byte) (s : State) : (serPut b s).err = s.err := rfl
@[simp] theorem serPut_rxv (b : Byte) (s : State) : (serPut b s).rxv = s.rxv := rfl
@[simp] theorem serPut_ckok (b : Byte) (s : State) : (serPut b s).ckok = s.ckok := rfl
@[simp] theorem serPut_rspok (b : Byte) (s : State) : (serPut b s).rspok = s.rspok := rfl
@[simp] theorem serPut_ovr (b : Byte) (s : State) : (serPut b s).ovr = s.ovr := rfl
@[simp] theorem serPut_chf (b : Byte) (s : State) : (serPut b s).chf = s.chf := rfl
@[simp] theorem serPut_txbuf (b : Byte) (s : State) : (serPut b s).txbuf = s.txbuf := rfl
@[simp] theorem serPut_rxbuf (b : Byte) (s : State) : (serPut b s).rxbuf = s.rxbuf := rfl
@[simp] theorem serPut_op (b : Byte) (s : State) : (serPut b s).op = s.op := rfl
@[simp] theorem serPut_ph (b : Byte) (s : State) : (serPut b s).ph = s.ph := rfl
@[simp] theorem serPut_idx (b : Byte) (s : State) : (serPut b s).idx = s.idx := rfl
@[simp] theorem serPut_escp (b : Byte) (s : State) : (serPut b s).escp = s.escp := rfl
@[simp] theorem serPut_rxq (b : Byte) (s : State) : (serPut b s).rxq = s.rxq := rfl
@[simp] theorem serPut_txlog (b : Byte) (s : State) : (serPut b s).txlog = s.txlog ++ [b] := rfl
@[simp] theorem serPut_hostLog (b : Byte) (s : State) : (serPut b s).hostLog = s.hostLog := rfl
@[simp] theorem serPut_inputs (b : Byte) (s : State) : (serPut b s).inputs = s.inputs := rfl
@[simp] theorem serPut_epoch (b : Byte) (s : State) : (serPut b s).epoch = s.epoch := rfl

@[simp] theorem arrive_cfg (b : Byte) (s : State) : (arrive b s).cfg = s.cfg := rfl
@[simp] theorem arrive_data (b : Byte) (s : State) : (arrive b s).data = s.data := rfl
@[simp] theorem arrive_txdir (b : Byte) (s : State) : (arrive b s).txdir = s.txdir := rfl
@[simp] theorem arrive_txcmd (b : Byte) (s : State) : (arrive b s).txcmd = s.txcmd := rfl
@[simp] theorem arrive_txsize (b : Byte) (s : State) : (arrive b s).txsize = s.txsize := rfl
@[simp] theorem arrive_txval (b : Byte) (s : State) : (arrive b s).txval = s.txval := rfl
@[simp] theorem arrive_rxcap (b : Byte) (s : State) : (arrive b s).rxcap = s.rxcap := rfl
@[simp] theorem arrive_hdrb (b : Byte) (s : State) : (arrive b s).hdrb = s.hdrb := rfl
@[simp] theorem arrive_rxcnt (b : Byte) (s : State) : (arrive b s).rxcnt = s.rxcnt := rfl
@[simp] theorem arrive_cksum (b : Byte) (s : State) : (arrive b s).cksum = s.cksum := rfl
@[simp] theorem arrive_tmr (b : Byte) (s : State) : (arrive b s).tmr = s.tmr := rfl
@[simp] theorem arrive_done (b : Byte) (s : State) : (arrive b s).done = s.done := rfl
@[simp] theorem arrive_err (b : Byte) (s : State) : (arrive b s).err = s.err := rfl
@[simp] theorem arrive_rxv (b : Byte) (s : State) : (arrive b s).rxv = s.rxv := rfl
@[simp] theorem arrive_ckok (b : Byte) (s : State) : (arrive b s).ckok = s.ckok := rfl
@[simp] theorem arrive_rspok (b : Byte) (s : State) : (arrive b s).rspok = s.rspok := rfl
@[simp] theorem arrive_ovr (b : Byte) (s : State) : (arrive b s).ovr = s.ovr := rfl
@[simp] theorem arrive_chf (b : Byte) (s : State) : (arrive b s).chf = s.chf := rfl
@[simp] theorem arrive_txbuf (b : Byte) (s : State) : (arrive b s).txbuf = s.txbuf := rfl
@[simp] theorem arrive_rxbuf (b : Byte) (s : State) : (arrive b s).rxbuf = s.rxbuf := rfl
@[simp] theorem arrive_op (b : Byte) (s : State) : (arrive b s).op = s.op := rfl
@[simp] theorem arrive_ph (b : Byte) (s : State) : (arrive b s).ph = s.ph := rfl
@[simp] theorem arrive_idx (b : Byte) (s : State) : (arrive b s).idx = s.idx := rfl
@[simp] theorem arrive_escp (b : Byte) (s : State) : (arrive b s).escp = s.escp := rfl
@[simp] theorem arrive_rxq (b : Byte) (s : State) : (arrive b s).rxq = s.rxq ++ [b] := rfl
@[simp] theorem arrive_txlog (b : Byte) (s : State) : (arrive b s).txlog = s.txlog := rfl
@[simp] theorem arrive_hostLog (b : Byte) (s : State) : (arrive b s).hostLog = s.hostLog := rfl
@[simp] theorem arrive_inputs (b : Byte) (s : State) : (arrive b s).inputs = s.inputs := rfl
@[simp] theorem arrive_epoch (b : Byte) (s : State) : (arrive b s).epoch = s.epoch := rfl

@[simp] theorem storePayload_cfg (b : Byte) (s : State) : (storePayload b s).cfg = s.cfg := rfl
@[simp] theorem storePayload_data (b : Byte) (s : State) : (storePayload b s).data = s.data := rfl
@[simp] theorem storePayload_txdir (b : Byte) (s : State) : (storePayload b s).txdir = s.txdir := rfl
@[simp] theorem storePayload_txcmd (b : Byte) (s : State) : (storePayload b s).txcmd = s.txcmd := rfl
@[simp] theorem storePayload_txsize (b : Byte) (s : State) : (storePayload b s).txsize = s.txsize := rfl
@[simp] theorem storePayload_txval (b : Byte) (s : State) : (storePayload b s).txval = s.txval := rfl
@[simp] theorem storePayload_rxcap (b : Byte) (s : State) : (storePayload b s).rxcap = s.rxcap := rfl
@[simp] theorem storePayload_hdrb (b : Byte) (s : State) : (storePayload b s).hdrb = s.hdrb := rfl
@[simp] theorem storePayload_rxcnt (b : Byte) (s : State) : (storePayload b s).rxcnt = s.idx + 1 := rfl
@[simp] theorem storePayload_cksum (b : Byte) (s : State) : (storePayload b s).cksum = s.cksum := rfl
@[simp] theorem storePayload_tmr (b : Byte) (s : State) : (storePayload b s).tmr = s.tmr := rfl
@[simp] theorem storePayload_done (b : Byte) (s : State) : (storePayload b s).done = s.done := rfl
@[simp] theorem storePayload_err (b : Byte) (s : State) : (storePayload b s).err = s.err := rfl
@[simp] theorem storePayload_rxv (b : Byte) (s : State) : (storePayload b s).rxv = s.rxv := rfl
@[simp] theorem storePayload_ckok (b : Byte) (s : State) : (storePayload b s).ckok = s.ckok := rfl
@[simp] theorem storePayload_rspok (b : Byte) (s : State) : (storePayload b s).rspok = s.rspok := rfl
@[simp] theorem storePayload_ovr (b : Byte) (s : State) : (storePayload b s).ovr = s.ovr := rfl
@[simp] theorem storePayload_chf (b : Byte) (s : State) : (storePayload b s).chf = s.chf := rfl
@[simp] theorem storePayload_txbuf (b : Byte) (s : State) : (storePayload b s).txbuf = s.txbuf := rfl
@[simp] theorem storePayload_rxbuf (b : Byte) (s : State) : (storePayload b s).rxbuf = s.rxbuf.store s.idx.toNat b := rfl
@[simp] theorem storePayload_op (b : Byte) (s : State) : (storePayload b s).op = s.op := rfl
@[simp] theorem storePayload_ph (b : Byte) (s : State) : (storePayload b s).ph = s.ph := rfl
@[simp] theorem storePayload_idx (b : Byte) (s : State) : (storePayload b s).idx = s.idx := rfl
@[simp] theorem storePayload_escp (b : Byte) (s : State) : (storePayload b s).escp = s.escp := rfl
@[simp] theorem storePayload_rxq (b : Byte) (s : State) : (storePayload b s).rxq = s.rxq := rfl
@[simp] theorem storePayload_txlog (b : Byte) (s : State) : (storePayload b s).txlog = s.txlog := rfl
@[simp] theorem storePayload_hostLog (b : Byte) (s : State) : (storePayload b s).hostLog = s.hostLog := rfl
@[simp] theorem storePayload_inputs (b : Byte) (s : State) : (storePayload b s).inputs = s.inputs := rfl
@[simp] theorem storePayload_epoch (b : Byte) (s : State) : (storePayload b s).epoch = s.epoch := rfl

@[simp] theorem resetBlock_cfg (s : State) : (resetBlock s).cfg = s.cfg := rfl
@[simp] theorem resetBlock_data (s : State) : (resetBlock s).data = State.reset.data := rfl
@[simp] theorem resetBlock_txdir (s : State) : (resetBlock s).txdir = State.reset.txdir := rfl
@[simp] theorem resetBlock_txcmd (s : State) : (resetBlock s).txcmd = State.reset.txcmd := rfl
@[simp] theorem resetBlock_txsize (s : State) : (resetBlock s).txsize = State.reset.txsize := rfl
@[simp] theorem resetBlock_txval (s : State) : (resetBlock s).txval = State.reset.txval := rfl
@[simp] theorem resetBlock_rxcap (s : State) : (resetBlock s).rxcap = State.reset.rxcap := rfl
@[simp] theorem resetBlock_hdrb (s : State) : (resetBlock s).hdrb = State.reset.hdrb := rfl
@[simp] theorem resetBlock_rxcnt (s : State) : (resetBlock s).rxcnt = State.reset.rxcnt := rfl
@[simp] theorem resetBlock_cksum (s : State) : (resetBlock s).cksum = State.reset.cksum := rfl
@[simp] theorem resetBlock_tmr (s : State) : (resetBlock s).tmr = State.reset.tmr := rfl
@[simp] theorem resetBlock_done (s : State) : (resetBlock s).done = State.reset.done := rfl
@[simp] theorem resetBlock_err (s : State) : (resetBlock s).err = State.reset.err := rfl
@[simp] theorem resetBlock_rxv (s : State) : (resetBlock s).rxv = State.reset.rxv := rfl
@[simp] theorem resetBlock_ckok (s : State) : (resetBlock s).ckok = State.reset.ckok := rfl
@[simp] theorem resetBlock_rspok (s : State) : (resetBlock s).rspok = State.reset.rspok := rfl
@[simp] theorem resetBlock_ovr (s : State) : (resetBlock s).ovr = State.reset.ovr := rfl
@[simp] theorem resetBlock_chf (s : State) : (resetBlock s).chf = State.reset.chf := rfl
@[simp] theorem resetBlock_txbuf (s : State) : (resetBlock s).txbuf = State.reset.txbuf := rfl
@[simp] theorem resetBlock_rxbuf (s : State) : (resetBlock s).rxbuf = State.reset.rxbuf := rfl
@[simp] theorem resetBlock_op (s : State) : (resetBlock s).op = State.reset.op := rfl
@[simp] theorem resetBlock_ph (s : State) : (resetBlock s).ph = State.reset.ph := rfl
@[simp] theorem resetBlock_idx (s : State) : (resetBlock s).idx = State.reset.idx := rfl
@[simp] theorem resetBlock_escp (s : State) : (resetBlock s).escp = State.reset.escp := rfl
@[simp] theorem resetBlock_rxq (s : State) : (resetBlock s).rxq = s.rxq := rfl
@[simp] theorem resetBlock_txlog (s : State) : (resetBlock s).txlog = s.txlog := rfl
@[simp] theorem resetBlock_hostLog (s : State) : (resetBlock s).hostLog = s.hostLog := rfl
@[simp] theorem resetBlock_inputs (s : State) : (resetBlock s).inputs = s.inputs := rfl
@[simp] theorem resetBlock_epoch (s : State) : (resetBlock s).epoch = s.epoch + 1 := rfl

/-- `BUSY` is the phase (`10_state.md` R40). -/
theorem busy_eq_true_iff (s : State) : s.busy = true ↔ s.ph ≠ .idle := by simp [State.busy]

theorem busy_eq_false_iff (s : State) : s.busy = false ↔ s.ph = .idle := by simp [State.busy]

/-- Reading a buffer depends on its contents and the epoch alone. -/
theorem txByte_congr {s t : State} (hb : s.txbuf = t.txbuf) (he : s.epoch = t.epoch) (i : Nat) :
    s.txByte i = t.txByte i := by simp [State.txByte, hb, he]

theorem rxByte_congr {s t : State} (hb : s.rxbuf = t.rxbuf) (he : s.epoch = t.epoch) (i : Nat) :
    s.rxByte i = t.rxByte i := by simp [State.rxByte, hb, he]

end Sys2Proof.Machine
end

