-- ==== Sys2Proof/Laws/Command.lean ====
section
/-! SUPPORT. The sixteen commands in one table: what a write to `CMD` does (`10_state.md` R44). -/

namespace Sys2Proof.Machine

/-- The channel operations (`30_encoding.md` R104). -/
def isChannelOp (op : BitVec 4) : Bool :=
  op == 0x1 || op == 0x2 || op == 0x3 || op == 0x4 || op == 0x5 || op == 0x7

/-- What follows acceptance when `CHF` does not forbid it, by code (R44). -/
def commandStart (op : BitVec 4) (t : State) : State :=
  match op.toNat with
  | 0x0 => complete .none t
  | 0x1 => { t with ph := .enc }
  | 0x2 => { t with ph := .dec }
  | 0x3 => { t with ph := .dlm }
  | 0x4 => sendStart t
  | 0x5 => recvStart t
  | 0x6 => rspchkRun t
  | 0x7 => { t with ph := .flush }
  | 0x8 => complete .none { t with cksum := Config.ckInit }
  | 0x9 => complete .none { t with cksum := ckFold t.cksum t.dataByte }
  | 0xA => complete .none { t with ckok := t.cksumMatches }
  | _ => complete .badcmd t

/-- Acceptance, the `CHF` test, and the start (R44). -/
def accepted (op : BitVec 4) (s : State) : State :=
  if isChannelOp op && s.chf then complete .channel (accept op s) else commandStart op (accept op s)

/-- Each of the sixteen commands, in one equation (R44, `20_memory.md` R62). -/
theorem exec_decodeOp (op : BitVec 4) (s : State) :
    exec (decodeOp op) s = .next (if s.busy then { s with ovr := true } else accepted op s) := by
  obtain ⟨n, rfl⟩ : ∃ n : Fin 16, op = BitVec.ofFin n := ⟨op.toFin, rfl⟩
  fin_cases n <;> rfl

/-- A command that is accepted leaves the code in `OP`. -/
theorem accepted_op (op : BitVec 4) (s : State) : (accepted op s).op = op := by
  obtain ⟨n, rfl⟩ : ∃ n : Fin 16, op = BitVec.ofFin n := ⟨op.toFin, rfl⟩
  fin_cases n <;> simp only [accepted, commandStart, sendStart, recvStart, rspchkRun] <;> repeat' split
  all_goals rfl

end Sys2Proof.Machine
end

