-- ==== Sys2Proof/Laws/Header.lean ====
section
/-! SUPPORT. The header record: reading after writing, and that serialising undoes the four fields. -/

namespace Sys2Proof.HdrBytes

/-- Concatenation as a number: the high part times the weight of the low part, plus the low part. -/
theorem toNat_append_add {m n : Nat} (a : BitVec m) (b : BitVec n) :
    (a ++ b).toNat = a.toNat * 2 ^ n + b.toNat := by
  rw [BitVec.toNat_append, ← Nat.shiftLeft_add_eq_or_of_lt b.isLt, Nat.shiftLeft_eq]

theorem size_toNat (h : HdrBytes) : h.size.toNat = h.h2.toNat + 256 * h.h3.toNat := by
  unfold size
  rw [toNat_append_add]; omega

theorem value_toNat (h : HdrBytes) :
    h.value.toNat = h.h4.toNat + 2 ^ 8 * h.h5.toNat + 2 ^ 16 * h.h6.toNat + 2 ^ 24 * h.h7.toNat := by
  unfold value
  rw [toNat_append_add, toNat_append_add, toNat_append_add]; omega

@[simp] theorem ofFields_direction (d c : Byte) (z : Half) (v : Word) : (ofFields d c z v).direction = d := rfl

@[simp] theorem ofFields_command (d c : Byte) (z : Half) (v : Word) : (ofFields d c z v).command = c := rfl

@[simp] theorem ofFields_size (d c : Byte) (z : Half) (v : Word) : (ofFields d c z v).size = z := by
  apply BitVec.eq_of_toNat_eq
  rw [size_toNat]
  have := z.isLt
  simp only [ofFields, BitVec.extractLsb'_toNat, Nat.shiftRight_eq_div_pow]
  omega

@[simp] theorem ofFields_value (d c : Byte) (z : Half) (v : Word) : (ofFields d c z v).value = v := by
  apply BitVec.eq_of_toNat_eq
  rw [value_toNat]
  have := v.isLt
  simp only [ofFields, BitVec.extractLsb'_toNat, Nat.shiftRight_eq_div_pow]
  omega

/-- Serialising the fields of a header gives it back. -/
theorem ofFields_fields (h : HdrBytes) : ofFields h.direction h.command h.size h.value = h := by
  have h2 := h.h2.isLt
  have h3 := h.h3.isLt
  have h4 := h.h4.isLt
  have h5 := h.h5.isLt
  have h6 := h.h6.isLt
  have h7 := h.h7.isLt
  have hs := size_toNat h
  have hv := value_toNat h
  obtain ⟨b0, b1, b2, b3, b4, b5, b6, b7⟩ := h
  simp only [ofFields, mk.injEq]
  refine ⟨rfl, rfl, ?_, ?_, ?_, ?_, ?_, ?_⟩ <;> apply BitVec.eq_of_toNat_eq <;>
    simp only [BitVec.extractLsb'_toNat, Nat.shiftRight_eq_div_pow] at * <;> omega

@[simp] theorem get_set_same (h : HdrBytes) {i : Nat} (hi : i ≤ 7) (b : Byte) : (h.set i b).get i = b := by
  interval_cases i <;> rfl

theorem get_set_other (h : HdrBytes) {i j : Nat} (hi : i ≤ 7) (hj : j ≤ 7) (hij : j ≠ i) (b : Byte) :
    (h.set i b).get j = h.get j := by
  interval_cases i <;> interval_cases j <;> first | rfl | exact absurd rfl hij

theorem ofList_toList (h : HdrBytes) : ofList h.toList = some h := rfl

theorem toList_get (h : HdrBytes) {i : Nat} (hi : i < 8) : h.toList[i]? = some (h.get i) := by
  interval_cases i <;> rfl

end Sys2Proof.HdrBytes
end

