-- ==== Sys2Proof/Laws/Memory.lean ====
section
/-! SUPPORT. The buffers: read after write, and that a write keeps the canonical form. -/

namespace Sys2Proof.Machine.Memory

/-- A byte just written is what is read there. -/
@[simp] theorem lookup_store_same (m : Memory) (a : Nat) (b : Byte) : (m.store a b).lookup a = some b := by
  induction m with
  | nil => simp [store, lookup]
  | cons c m ih =>
    obtain ⟨k, v⟩ := c
    by_cases h₁ : a < k
    · simp [store, lookup, h₁]
    · by_cases h₂ : a = k
      · simp [store, lookup, h₂]
      · simp [store, lookup, h₁, h₂, ih]

/-- A write leaves every other byte alone. -/
theorem lookup_store_other (m : Memory) {a a' : Nat} (b : Byte) (h : a' ≠ a) :
    (m.store a b).lookup a' = m.lookup a' := by
  induction m with
  | nil => simp [store, lookup, h]
  | cons c m ih =>
    obtain ⟨k, v⟩ := c
    by_cases h₁ : a < k
    · simp [store, lookup, h₁, h]
    · by_cases h₂ : a = k
      · subst h₂; simp [store, lookup, h]
      · simp [store, lookup, h₁, h₂, ih]

/-- The canonical form of a buffer with a first entry: the rest is canonical and lies above it. -/
theorem wf_cons_iff (k : Nat) (v : Byte) (m : Memory) :
    wf ((k, v) :: m) = true ↔ (∀ c ∈ m, k < c.1) ∧ wf m = true := by
  induction m generalizing k v with
  | nil => simp [wf]
  | cons c m ih =>
    obtain ⟨j, w⟩ := c
    simp only [wf, Bool.and_eq_true, decide_eq_true_eq, List.mem_cons, forall_eq_or_imp]
    constructor
    · rintro ⟨hkj, hm⟩
      exact ⟨⟨hkj, fun c hc => lt_trans hkj (((ih j w).1 hm).1 c hc)⟩, hm⟩
    · rintro ⟨⟨hkj, _⟩, hm⟩
      exact ⟨hkj, hm⟩

/-- The entries of a buffer after a write are the old ones and the written one. -/
theorem mem_store {m : Memory} {a : Nat} {b : Byte} {c : Host.Cell} (h : c ∈ m.store a b) :
    c = (a, b) ∨ c ∈ m := by
  induction m with
  | nil => exact .inl (by simpa [store] using h)
  | cons e m ih =>
    obtain ⟨k, v⟩ := e
    by_cases h₁ : a < k
    · simpa [store, h₁] using h
    · by_cases h₂ : a = k
      · rw [store, if_neg h₁, if_pos h₂] at h
        rcases List.mem_cons.1 h with rfl | h
        · exact .inl rfl
        · exact .inr (List.mem_cons_of_mem _ h)
      · rw [store, if_neg h₁, if_neg h₂] at h
        rcases List.mem_cons.1 h with rfl | h
        · exact .inr (by simp)
        · exact (ih h).imp id (List.mem_cons_of_mem _)

/-- A write keeps the canonical form. -/
theorem wf_store {m : Memory} (h : m.wf = true) (a : Nat) (b : Byte) : (m.store a b).wf = true := by
  induction m with
  | nil => rfl
  | cons e m ih =>
    obtain ⟨k, v⟩ := e
    obtain ⟨hk, hm⟩ := (wf_cons_iff k v m).1 h
    by_cases h₁ : a < k
    · rw [store, if_pos h₁, wf_cons_iff]
      refine ⟨fun c hc => ?_, h⟩
      rcases List.mem_cons.1 hc with rfl | hc
      · exact h₁
      · exact lt_trans h₁ (hk c hc)
    · by_cases h₂ : a = k
      · rw [store, if_neg h₁, if_pos h₂, wf_cons_iff]
        exact ⟨fun c hc => h₂ ▸ hk c hc, hm⟩
      · rw [store, if_neg h₁, if_neg h₂, wf_cons_iff]
        refine ⟨fun c hc => ?_, ih hm⟩
        rcases mem_store hc with rfl | hc
        · show k < a; omega
        · exact hk c hc

/-- A write inside the depth keeps every index inside it. -/
theorem below_store {m : Memory} {d : Nat} (h : m.below d = true) {a : Nat} (ha : a < d) (b : Byte) :
    (m.store a b).below d = true := by
  simp only [below, List.all_eq_true, decide_eq_true_eq] at *
  intro c hc
  rcases mem_store hc with rfl | hc
  · exact ha
  · exact h c hc

end Sys2Proof.Machine.Memory
end

