-- ==== Sys2Proof/Laws/Receive.lean ====
section
/-! SUPPORT. The receive side: what taking a byte does in each phase, and that running the decoded symbol or header is the
block's byte step. -/

namespace Sys2Proof.Machine

/-- The phases that unescape (`40_framing_codec.md` R121). -/
theorem receive_unescapes {s : State} (h : s.ph = .dec ∨ s.ph = .rHdr ∨ s.ph = .rPay) (p : Byte) :
    receive p s = unescape p s := by
  rcases h with h | h | h <;> simp [receive, h]

theorem receivePair_unescapes {s : State} (h : s.ph = .dec ∨ s.ph = .rHdr ∨ s.ph = .rPay) (t : Byte) :
    receivePair t s = unescapePair t s := by
  rcases h with h | h | h <;> simp [receivePair, h]

/-- The eighth header byte completes the header (R166). -/
theorem deliver_eighth {s : State} (hp : s.ph = .rHdr) (hi : s.idx = 7) (b : Byte) :
    deliver b s = .next (headerReceived { s with hdrb := s.hdrb.set 7 b }) := by
  simp [deliver, hp, deliverHeader, hi]

/-- Running the header just completed is delivering its last byte (R166). -/
theorem exec_header_last {s : State} (hp : s.ph = .rHdr) (hi : s.idx = 7) (b : Byte) :
    exec (.header (s.hdrb.set 7 b).direction (s.hdrb.set 7 b).command (s.hdrb.set 7 b).size (s.hdrb.set 7 b).value) s =
      deliver b { s with escp := false } := by
  rw [deliver_eighth (s := { s with escp := false }) hp hi]
  simp only [exec, execHeader, hp, HdrBytes.ofFields_fields, Host.Outcome.next.injEq]
  rw [← hi]

/-- A decoded header word runs as the delivery of its last byte. -/
theorem decoded_header {c : Config} {h : HdrBytes} {t : State} :
    decoded c (.hdr h.toList) t = some (.header h.direction h.command h.size h.value, t) := rfl

/-- In a phase that unescapes, with no escape pending, a byte that decodes alone is delivered. -/
theorem symbol_alone {c : Config} {s t : State} {p : Byte} {i : Instr} (hd : decoded c (.wire [p]) s = some (i, t)) :
    t = s ∧ p ≠ Config.esc ∧ logicalByte i = some p ∧ exec i s = receive p s := by
  simp only [decoded, decode, decodeSymbol] at hd
  by_cases h₁ : p = Config.esc
  · simp [h₁] at hd
  · by_cases h₂ : p = Config.delim
    · simp [h₂, esc_ne_delim.symm] at hd
      obtain ⟨rfl, rfl⟩ := hd
      exact ⟨rfl, h₁, by simp [logicalByte, h₂], by simp [exec, execWireEnd, h₂]⟩
    · simp [h₁, h₂] at hd
      obtain ⟨rfl, rfl⟩ := hd
      exact ⟨rfl, h₁, rfl, rfl⟩

/-- A pair decodes by its second byte, and runs as that byte taken. -/
theorem symbol_pair {c : Config} {s t : State} {p : Byte} {i : Instr}
    (hd : decoded c (.wire [Config.esc, p]) s = some (i, t)) :
    t = s ∧ logicalByte i = unpair p ∧ exec i s = receivePair p s := by
  simp only [decoded, decode, decodeSymbol, if_true] at hd
  by_cases h₁ : p = Config.escDelim
  · simp [h₁] at hd
    obtain ⟨rfl, rfl⟩ := hd
    exact ⟨rfl, by simp [logicalByte, h₁], by simp [exec, execEscEnd, h₁]⟩
  · by_cases h₂ : p = Config.escEsc
    · simp [h₂, show Config.escEsc ≠ Config.escDelim by decide] at hd
      obtain ⟨rfl, rfl⟩ := hd
      exact ⟨rfl, by simp [logicalByte, h₂], by simp [exec, execEscEsc, h₂]⟩
    · simp [h₁, h₂] at hd
      obtain ⟨rfl, rfl⟩ := hd
      exact ⟨rfl, by simp [logicalByte, (unpair_eq_none_iff p).2 ⟨h₁, h₂⟩], rfl⟩

/-- The step of a receive phase with a byte in `RXQ`. -/
theorem blockStep_receives {s : State} (h : s.ph = .dec ∨ s.ph = .rWait ∨ s.ph = .rHdr ∨ s.ph = .rPay) {p : Byte}
    {q : List Byte} (hq : s.rxq = p :: q) : blockStep s = receive p { s with rxq := q } := by
  rcases h with h | h | h | h <;> simp [blockStep, h, hq]

/-- Where `fetchWire` finds something the block is in a receive phase with a byte in `RXQ`. -/
theorem fetchWire_some {s t : State} {i : Instr} (h : fetchWire s = some (i, t)) :
    ∃ p q j u, (s.ph = .dec ∨ s.ph = .rWait ∨ s.ph = .rHdr ∨ s.ph = .rPay) ∧ s.rxq = p :: q ∧
      decoded s.cfg (symbolAt s p) { s with rxq := q } = some (j, u) ∧ withHeader s (j, u) = some (i, t) := by
  unfold fetchWire at h
  split at h
  all_goals first
    | (obtain ⟨⟨j, u⟩, hj, hw⟩ := Option.bind_eq_some_iff.1 h
       exact ⟨_, _, j, u, by simp [*], by assumption, hj, hw⟩)
    | simp at h

/-- Running the decoded symbol, or the header it completes, is taking its last byte; `s` is the state behind it. -/
theorem exec_symbol {s u t : State} {p : Byte} {j i : Instr}
    (hph : s.ph = .dec ∨ s.ph = .rWait ∨ s.ph = .rHdr ∨ s.ph = .rPay)
    (hd : decoded s.cfg (symbolAt s p) s = some (j, u)) (hw : withHeader s (j, u) = some (i, t)) :
    exec i t = receive p s := by
  by_cases hr : s.escp = true ∧ s.ph ≠ .rWait
  · rw [symbolAt, if_pos hr] at hd
    obtain ⟨rfl, hl, he⟩ := symbol_pair hd
    have hu : u.ph = .dec ∨ u.ph = .rHdr ∨ u.ph = .rPay := by tauto
    have hrec : receive p u = unescapePair p u := by rw [receive_unescapes hu, unescape, if_pos hr.1]
    rw [receivePair_unescapes hu] at he
    rw [hrec]
    unfold withHeader at hw
    by_cases h7 : u.ph = .rHdr ∧ u.idx = 7
    · rw [if_pos h7] at hw
      cases hb : unpair p with
      | none =>
        simp only [hl, hb, Option.some.injEq, Prod.mk.injEq] at hw
        obtain ⟨rfl, rfl⟩ := hw
        exact he
      | some b =>
        simp only [hl, hb, decoded_header, Option.some.injEq, Prod.mk.injEq] at hw
        obtain ⟨rfl, rfl⟩ := hw
        rw [unescapePair, hb]
        exact exec_header_last h7.1 h7.2 b
    · rw [if_neg h7] at hw
      obtain ⟨rfl, rfl⟩ := Prod.mk.inj (Option.some.inj hw)
      exact he
  · rw [symbolAt, if_neg hr] at hd
    obtain ⟨rfl, hp, hl, he⟩ := symbol_alone hd
    unfold withHeader at hw
    by_cases h7 : u.ph = .rHdr ∧ u.idx = 7
    · rw [if_pos h7] at hw
      simp only [hl, decoded_header, Option.some.injEq, Prod.mk.injEq] at hw
      obtain ⟨rfl, rfl⟩ := hw
      have hne : u.escp = false := by simpa [h7.1] using hr
      rw [receive_unescapes (.inr (.inl h7.1)), unescape, if_neg (by simp [hne]), if_neg hp,
        exec_header_last h7.1 h7.2 p, ← hne]
    · rw [if_neg h7] at hw
      obtain ⟨rfl, rfl⟩ := Prod.mk.inj (Option.some.inj hw)
      exact he

/-- Running the fetched symbol or header is the block's byte step. -/
theorem exec_fetchWire {s t : State} {i : Instr} (h : fetchWire s = some (i, t)) : exec i t = blockStep s := by
  obtain ⟨p, q, j, u, hph, hq, hd, hw⟩ := fetchWire_some h
  rw [blockStep_receives hph hq]
  exact exec_symbol (s := { s with rxq := q }) hph hd hw

end Sys2Proof.Machine
end

