-- ==== Sys2Proof/Laws/Step.lean ====
section
/-! SUPPORT. What one step does, event by event, and how runs compose. -/

namespace Sys2Proof.Machine

/-- The block's turn is its byte step, whether or not it completes a symbol or a header. -/
theorem step_turn {s t : State} (h : s.turn = some t) : step s = blockStep t := by
  have key : fetch s = fetchWire t ∧ quietStep s = blockStep t := by
    unfold State.turn at h
    unfold fetch quietStep
    split at h <;> simp_all [perform]
  unfold step
  rw [key.1, key.2]
  split
  · next i u hf => exact exec_fetchWire hf
  · rfl

theorem step_no_input {s : State} (h : s.inputs = []) : step s = blockStep s :=
  step_turn (by simp [State.turn, h])

theorem step_block {s : State} {rest : List Event} (h : s.inputs = .block :: rest) :
    step s = blockStep { s with inputs := rest } :=
  step_turn (by simp [State.turn, h])

/-- A write to `CMD` runs the operation of its low four bits. -/
theorem step_cmd {s : State} {v : Word} {rest : List Event} (h : s.inputs = .hostWrite 0x00 v :: rest) :
    step s = exec (decodeOp (opField v)) { s with inputs := rest } := by
  simp [step, fetch, h, fetchHost, decoded, decode]

/-- A command code written to `TXCMD` is the plain write of its byte. -/
theorem exec_decodeCode {c : CommandCodes} {b : Byte} {i : Instr} (h : decodeCode c b = .ok i) (s : State)
    (hc : s.cfg.cc = c) : exec i s = .next (hostStore 0x04 (b.setWidth 32) s) := by
  subst hc
  unfold decodeCode at h
  repeat' split at h
  all_goals first
    | (obtain rfl := Except.ok.inj h; subst_vars; rfl)
    | simp at h

theorem setWidth_txcmd (v : Word) (s : State) :
    hostStore 0x04 ((v.setWidth 8).setWidth 32) s = hostStore 0x04 v s := by
  simp [hostStore, storeLoc]

/-- A write to any other location stores, or is dropped. -/
theorem step_write {s : State} {a : Loc} {v : Word} {rest : List Event} (h : s.inputs = .hostWrite a v :: rest)
    (ha : a ≠ 0x00) : step s = .next (hostStore a v { s with inputs := rest }) := by
  unfold step
  by_cases h4 : a = 0x04
  · subst h4
    cases hd : decodeCode s.cfg.cc (v.setWidth 8) with
    | ok i =>
      have := exec_decodeCode hd { s with inputs := rest } rfl
      rw [setWidth_txcmd] at this
      simpa [fetch, h, fetchHost, decoded, decode, hd] using this
    | error e => simp [fetch, h, fetchHost, decoded, decode, hd, quietStep, perform]
  · have : fetch s = none := by
      simp only [fetch, h, fetchHost]
      rw [if_neg ha, if_neg h4]
    simp [this, quietStep, h, perform]

theorem step_read {s : State} {a : Loc} {rest : List Event} (h : s.inputs = .hostRead a :: rest) :
    step s = .next { s with inputs := rest, hostLog := s.hostLog ++ [hostRead { s with inputs := rest } a] } := by
  simp [step, fetch, h, quietStep, perform]

theorem step_arrive {s : State} {b : Byte} {rest : List Event} (h : s.inputs = .arrive b :: rest) :
    step s = .next (arrive b { s with inputs := rest }) := by
  simp [step, fetch, h, quietStep, perform]

theorem step_tick {s : State} {rest : List Event} (h : s.inputs = .tick :: rest) :
    step s = .next (tick { s with inputs := rest }) := by
  simp [step, fetch, h, quietStep, perform]

theorem step_chanFault {s : State} {rest : List Event} (h : s.inputs = .chanFault :: rest) :
    step s = .next (chanFault { s with inputs := rest }) := by
  simp [step, fetch, h, quietStep, perform]

theorem step_reset {s : State} {rest : List Event} (h : s.inputs = .reset :: rest) :
    step s = .next (resetBlock { s with inputs := rest }) := by
  simp [step, fetch, h, quietStep, perform]

/-! ## Runs -/

theorem stepRun_one {s t : State} (h : step s = .next t) (n : Nat) : stepRun (n + 1) s = stepRun n t := by
  simp [stepRun, h]

/-- A run that gets to a state goes on from it. -/
theorem stepRun_add {m : Nat} {s t : State} (h : stepRun m s = .next t) (n : Nat) :
    stepRun (m + n) s = stepRun n t := by
  induction m generalizing s with
  | zero => simp [stepRun] at h; simp [h]
  | succ m ih =>
    rw [show m + 1 + n = (m + n) + 1 by omega]
    simp only [stepRun] at h ⊢
    cases hs : step s with
    | next u => rw [hs] at h; exact ih h
    | fault f => rw [hs] at h; cases h
    | refused r => rw [hs] at h; cases h

end Sys2Proof.Machine
end

