-- ==== Sys2Proof/Laws/Frames.lean ====
section
/-! SUPPORT. Everything a step can do, said once: the eight kinds of step, and what the block's turn, an accepted
  command and
a host write leave alone. -/

namespace Sys2Proof.Machine

/-- The eight kinds of step, each with the state it answers. -/
theorem step_cases {s t : State} (hs : step s = .next t) :
    (∃ u, s.turn = some u ∧ blockStep u = .next t) ∨
    (∃ v rest, s.inputs = .hostWrite 0x00 v :: rest ∧ t = if s.busy then { s with inputs := rest, ovr := true } else
      accepted (opField v) { s with inputs := rest }) ∨
    (∃ a v rest, s.inputs = .hostWrite a v :: rest ∧ a ≠ 0x00 ∧ t = hostStore a v { s with inputs := rest }) ∨
    (∃ a rest, s.inputs = .hostRead a :: rest ∧ t =
      { s with inputs := rest, hostLog := s.hostLog ++ [hostRead { s with inputs := rest } a] }) ∨
    (∃ b rest, s.inputs = .arrive b :: rest ∧ t = arrive b { s with inputs := rest }) ∨
    (∃ rest, s.inputs = .tick :: rest ∧ t = tick { s with inputs := rest }) ∨
    (∃ rest, s.inputs = .chanFault :: rest ∧ t = chanFault { s with inputs := rest }) ∨
    (∃ rest, s.inputs = .reset :: rest ∧ t = resetBlock { s with inputs := rest }) := by
  cases hin : s.inputs with
  | nil =>
    rw [step_no_input hin] at hs
    exact .inl ⟨s, by simp [State.turn, hin], hs⟩
  | cons e rest =>
    cases e with
    | hostWrite a v =>
      by_cases ha : a = 0x00
      · subst ha
        rw [step_cmd hin, exec_decodeOp] at hs
        obtain rfl := Host.Outcome.next.inj hs
        exact .inr (.inl ⟨v, rest, rfl, rfl⟩)
      · rw [step_write hin ha] at hs
        obtain rfl := Host.Outcome.next.inj hs
        exact .inr (.inr (.inl ⟨a, v, rest, rfl, ha, rfl⟩))
    | hostRead a =>
      rw [step_read hin] at hs
      obtain rfl := Host.Outcome.next.inj hs
      exact .inr (.inr (.inr (.inl ⟨a, rest, rfl, rfl⟩)))
    | arrive b =>
      rw [step_arrive hin] at hs
      obtain rfl := Host.Outcome.next.inj hs
      exact .inr (.inr (.inr (.inr (.inl ⟨b, rest, rfl, rfl⟩))))
    | tick =>
      rw [step_tick hin] at hs
      obtain rfl := Host.Outcome.next.inj hs
      exact .inr (.inr (.inr (.inr (.inr (.inl ⟨rest, rfl, rfl⟩)))))
    | chanFault =>
      rw [step_chanFault hin] at hs
      obtain rfl := Host.Outcome.next.inj hs
      exact .inr (.inr (.inr (.inr (.inr (.inr (.inl ⟨rest, rfl, rfl⟩))))))
    | reset =>
      rw [step_reset hin] at hs
      obtain rfl := Host.Outcome.next.inj hs
      exact .inr (.inr (.inr (.inr (.inr (.inr (.inr (⟨rest, rfl, rfl⟩)))))))
    | block =>
      rw [step_block hin] at hs
      exact .inl ⟨_, by simp only [State.turn, hin], hs⟩

/-- What a turn of the block leaves alone. -/
structure TurnFrame (s t : State) : Prop where
  cfg : t.cfg = s.cfg
  txdir : t.txdir = s.txdir
  txcmd : t.txcmd = s.txcmd
  txsize : t.txsize = s.txsize
  txval : t.txval = s.txval
  rxcap : t.rxcap = s.rxcap
  cksum : t.cksum = s.cksum
  tmr : t.tmr = s.tmr
  ckok : t.ckok = s.ckok
  rspok : t.rspok = s.rspok
  ovr : t.ovr = s.ovr
  chf : t.chf = s.chf
  txbuf : t.txbuf = s.txbuf
  op : t.op = s.op
  hostLog : t.hostLog = s.hostLog
  inputs : t.inputs = s.inputs
  epoch : t.epoch = s.epoch
  data : s.ph ≠ .dec → t.data = s.data
  hdrb : s.ph ≠ .rHdr → t.hdrb = s.hdrb
  rxcnt : s.ph ≠ .rPay → t.rxcnt = s.rxcnt
  rxbuf : t.rxbuf = s.rxbuf ∨
    (s.ph = .rPay ∧ s.idx.toNat < s.cfg.rxbufDepth ∧ ∃ b, t.rxbuf = s.rxbuf.store s.idx.toNat b)
  txlog : t.txlog = s.txlog ∨ s.ph.transmits = true ∧ ∃ b, t.txlog = s.txlog ++ [b]
  rxq : t.rxq = s.rxq ∨ (s.ph ≠ .idle ∧ s.ph.transmits = false ∧ ∃ p, s.rxq = p :: t.rxq)
  rxv : t.rxv = s.rxv ∨ (t.rxv = true ∧ s.ph.ofRecv = true ∧ t.ph = .idle ∧ t.err = .none)

/-- A delivered logical byte (`40_framing_codec.md` R121). -/
theorem deliver_frame {s t : State} {b : Byte} (hs : deliver b s = .next t) :
   TurnFrame s t ∧ t.rxq = s.rxq ∧ t.txlog = s.txlog ∧
     (s.ph.ofRecv = true → t.ph = .idle → t.err = .none → t.rxv = true) := by
  unfold deliver at hs
  split at hs
  · obtain rfl := Host.Outcome.next.inj hs
    next hp => refine ⟨?_, rfl, rfl, by simp [hp, Phase.ofRecv]⟩; constructor <;> simp [hp]
  · next hp =>
    unfold deliverHeader at hs
    split at hs
    · obtain rfl := Host.Outcome.next.inj hs
      refine ⟨?_, rfl, rfl, by simp [hp]⟩; constructor <;> simp [hp]
    · split at hs
      · obtain rfl := Host.Outcome.next.inj hs
        unfold headerReceived
        split
        · refine ⟨?_, rfl, rfl, by simp [complete]⟩; constructor <;> simp [hp]
        · split
          · refine ⟨?_, rfl, rfl, by simp [complete]⟩; constructor <;> simp [hp, Phase.ofRecv]
          · refine ⟨?_, rfl, rfl, by simp [complete]⟩; constructor <;> simp [hp]
      · cases hs
  · next hp =>
    unfold deliverPayload at hs
    split at hs
    · next hlt =>
      split at hs
      · obtain rfl := Host.Outcome.next.inj hs
        refine ⟨?_, rfl, rfl, by simp [complete]⟩; constructor <;> simp [hp, hlt, Phase.ofRecv]
      · obtain rfl := Host.Outcome.next.inj hs
        refine ⟨?_, rfl, rfl, by simp [hp]⟩; constructor <;> simp [hp, hlt, Phase.ofRecv]
    · cases hs
  all_goals
    next hp =>
    obtain rfl := Host.Outcome.next.inj hs
    refine ⟨?_, rfl, rfl, by simp [hp, Phase.ofRecv]⟩; constructor <;> simp

/-- A taken physical byte (`10_state.md` R40). -/
theorem receive_frame {s t : State} {p : Byte} {q : List Byte} (hq : s.rxq = p :: q)
  (hph : s.ph = .dec ∨ s.ph = .rWait ∨ s.ph = .rHdr ∨ s.ph = .rPay ∨ s.ph = .flush)
    (hs : receive p { s with rxq := q } = .next t) : TurnFrame s t ∧
      (s.ph.ofRecv = true → t.ph = .idle → t.err = .none → t.rxv = true) := by
  have lift : ∀ e, ∀ (u : State), u = { s with rxq := q, escp := e } → ∀ b, deliver b u = .next t → s.ph ≠ .idle ∧
    s.ph.transmits = false → TurnFrame s t ∧ (s.ph.ofRecv = true → t.ph = .idle → t.err = .none → t.rxv = true) := by
    rintro e u rfl b hd hi
    obtain ⟨h, h1, h2, h3⟩ := deliver_frame hd
    refine ⟨?_, h3⟩
    obtain ⟨a1, a2, a3, a4, a5, a6, a7, a8, a9, a10, a11, a12, a13, a14, a15, a16, a17, a18, a19, a20, a21, a22, a23,
      a24⟩ := h
    exact ⟨a1, a2, a3, a4, a5, a6, a7, a8, a9, a10, a11, a12, a13, a14, a15, a16, a17, a18, a19, a20, a21, .inl h2,
      .inr ⟨hi.1, hi.2, p, by rw [h1]; exact hq⟩, a24⟩
  have easy : s.ph ≠ .idle ∧ s.ph.transmits = false := by rcases hph with h | h | h | h | h <;>
    simp [h, Phase.transmits]
  have une : (s.ph = .dec ∨ s.ph = .rHdr ∨ s.ph = .rPay) → unescape p { s with rxq := q } = .next t → TurnFrame s t ∧
    (s.ph.ofRecv = true → t.ph = .idle → t.err = .none → t.rxv = true) := by
    intro hp hu
    unfold unescape at hu
    split at hu
    · unfold unescapePair at hu
      split at hu
      · exact lift _ _ rfl _ hu easy
      · obtain rfl := Host.Outcome.next.inj hu
        refine ⟨?_, by simp [complete]⟩
        constructor <;> simp [easy, hq]
    · split at hu
      · obtain rfl := Host.Outcome.next.inj hu
        refine ⟨?_, fun _ h => absurd h easy.1⟩
        constructor <;> simp [easy, hq]
      · exact lift s.escp _ rfl _ hu easy
  unfold receive at hs
  split at hs
  · next hr =>
    have hr : s.ph = .rWait := hr
    obtain rfl := Host.Outcome.next.inj hs
    unfold firstByte
    split
    · refine ⟨?_, by simp⟩
      constructor <;> simp [hr, hq, Phase.transmits]
    · refine ⟨?_, by simp [complete]⟩
      constructor <;> simp [hr, hq, Phase.transmits]
  all_goals first
    | (next hr => have hr : s.ph = _ := hr; exact une (by simp [hr]) hs)
    | (next hr =>
       have hr : s.ph = _ := hr
       obtain rfl := Host.Outcome.next.inj hs
       refine ⟨?_, by simp [hr, Phase.ofRecv]⟩
       constructor <;> simp [hr, hq, Phase.transmits]; done)

/-- A put physical byte (`40_framing_codec.md` R120). -/
theorem tx_frame {s : State} {cur : Byte} {adv : State → State} (hp : s.ph.transmits = true)
   (hadv : ∀ l e, l = s.txlog ∨ (∃ b, l = s.txlog ++ [b]) → TurnFrame s (adv { s with txlog := l, escp := e })) :
    TurnFrame s (txEscape cur adv s) := by
  unfold txEscape
  split
  · exact hadv _ _ (.inr ⟨_, rfl⟩)
  · split
    · constructor <;> simp [serPut, hp]
    · exact hadv _ s.escp (.inr ⟨_, rfl⟩)

/-- The block's step (`10_state.md` R41). -/
theorem block_frame {s t : State} (hs : blockStep s = .next t) : TurnFrame s t ∧
  (s.ph.ofRecv = true → t.ph = .idle → t.err = .none → t.rxv = true) := by
  unfold blockStep at hs
  split at hs
  case h_1 hp => obtain rfl := Host.Outcome.next.inj hs; refine ⟨?_, by simp [hp, Phase.ofRecv]⟩; constructor <;> simp
  case h_2 hp =>
    obtain rfl := Host.Outcome.next.inj hs; refine ⟨?_, by simp [hp, Phase.ofRecv]⟩
    apply tx_frame (by simp [hp, Phase.transmits])
    rintro l e (rfl | ⟨b, rfl⟩) <;> constructor <;> simp [hp, Phase.transmits]
  case h_3 hp => obtain rfl := Host.Outcome.next.inj hs; refine ⟨?_, by simp [hp, Phase.ofRecv]⟩; constructor <;>
    simp [delimPut, hp, Phase.transmits]
  case h_4 hp => obtain rfl := Host.Outcome.next.inj hs; refine ⟨?_, by simp [hp, Phase.ofRecv]⟩; constructor <;>
    simp [openPut, hp, Phase.transmits]
  case h_5 hp =>
    unfold hdrPut at hs
    split at hs
    · obtain rfl := Host.Outcome.next.inj hs; refine ⟨?_, by simp [hp, Phase.ofRecv]⟩
      apply tx_frame (by simp [hp, Phase.transmits])
      rintro l e (rfl | ⟨b, rfl⟩) <;> unfold hdrAdvance <;> repeat' split
      all_goals constructor <;> simp [hp, Phase.transmits]
    · cases hs
  case h_6 hp =>
    unfold payPut at hs
    split at hs
    · obtain rfl := Host.Outcome.next.inj hs; refine ⟨?_, by simp [hp, Phase.ofRecv]⟩
      apply tx_frame (by simp [hp, Phase.transmits])
      rintro l e (rfl | ⟨b, rfl⟩) <;> unfold payAdvance <;> repeat' split
      all_goals constructor <;> simp [hp, Phase.transmits]
    · cases hs
  case h_7 hp => obtain rfl := Host.Outcome.next.inj hs; refine ⟨?_, by simp [hp, Phase.ofRecv]⟩; constructor <;>
    simp [closePut, hp, Phase.transmits]
  all_goals
    next hp =>
    split at hs
    · obtain rfl := Host.Outcome.next.inj hs; refine ⟨?_, by simp [hp, Phase.ofRecv]⟩; constructor <;> simp [hp]
    · next hq => exact receive_frame hq (by simp [hp]) hs

/-- What an accepted command leaves alone, and the phase it starts (`10_state.md` R44). -/
structure AcceptFrame (op : BitVec 4) (s t : State) : Prop where
  cfg : t.cfg = s.cfg
  txdir : t.txdir = s.txdir
  txcmd : t.txcmd = s.txcmd
  txsize : t.txsize = s.txsize
  txval : t.txval = s.txval
  rxcap : t.rxcap = s.rxcap
  data : t.data = s.data
  ovr : t.ovr = s.ovr
  chf : t.chf = s.chf
  txbuf : t.txbuf = s.txbuf
  rxbuf : t.rxbuf = s.rxbuf
  rxq : t.rxq = s.rxq
  txlog : t.txlog = s.txlog
  hostLog : t.hostLog = s.hostLog
  inputs : t.inputs = s.inputs
  epoch : t.epoch = s.epoch
  hdrb : t.hdrb = s.hdrb
  cksum : t.cksum ≠ s.cksum → op = 0x8 ∨ op = 0x9
  ckok : t.ckok ≠ s.ckok → op = 0xA
  rspok : t.rspok ≠ s.rspok → op = 0x6
  rxcnt : t.rxcnt ≠ s.rxcnt → op = 0x5
  tmr : t.tmr ≠ s.tmr → op = 0x5
  rxv : t.rxv = s.rxv ∨ (op = 0x5 ∧ t.ph = .rWait ∧ t.rxv = false)
  wait : t.ph = .rWait → t.rxv = false
  ph : t.ph = phaseAccepted s op

/-- SEND's start (`41_packet_tx.md` R141). -/
theorem sendStart_frame {s : State} (hc : s.chf = false) : AcceptFrame 0x4 s (sendStart (accept 0x4 s)) := by
  unfold sendStart
  split
  · next hz =>
    have hz : s.txsize.toNat > s.cfg.txbufDepth := hz
    constructor <;> simp [phaseAccepted, hc, hz]
  · next hz =>
    have hz : s.txsize.toNat ≤ s.cfg.txbufDepth := Nat.not_lt.1 hz
    constructor <;> simp [phaseAccepted, hc, hz]

/-- RECV's start (`42_packet_rx.md` R161). -/
theorem recvStart_frame {s : State} (hc : s.chf = false) : AcceptFrame 0x5 s (recvStart (accept 0x5 s)) := by
  unfold recvStart
  split
  · next hz =>
    have hz : s.rxcap.toNat > s.cfg.rxbufDepth := hz
    constructor <;> simp [phaseAccepted, hc, hz]
  · next hz =>
    have hz : s.rxcap.toNat ≤ s.cfg.rxbufDepth := Nat.not_lt.1 hz
    constructor <;> simp [phaseAccepted, hc, hz]

/-- An accepted command (R44). -/
theorem accepted_frame (op : BitVec 4) (s : State) : AcceptFrame op s (accepted op s) := by
  unfold accepted
  split
  · next h =>
    have hc : s.chf = true := by simp at h; exact h.2
    constructor <;> simp [phaseAccepted, hc]
  · next hc =>
    obtain ⟨n, rfl⟩ : ∃ n : Fin 16, op = BitVec.ofFin n := ⟨op.toFin, rfl⟩
    fin_cases n
    all_goals simp only [isChannelOp] at hc
    all_goals try (constructor <;> simp_all [commandStart, phaseAccepted, rspchkRun, accept, complete]; done)
    · exact sendStart_frame (by simpa using hc)
    · exact recvStart_frame (by simpa using hc)

/-- The block's turn starts from the state with its event taken. -/
theorem turn_eq {s u : State} (h : s.turn = some u) : ∃ l, u = { s with inputs := l } := by
  unfold State.turn at h
  split at h
  · cases h; exact ⟨s.inputs, rfl⟩
  · cases h; exact ⟨_, rfl⟩
  · cases h

theorem not_busy {s : State} (h : ¬ s.busy = true) : s.busy = false := by simpa using h

/-- A host write to a location other than `CMD` (`20_memory.md` R62): dropped, a register, or a `TXBUF` byte. -/
theorem store_cases (a : Loc) (v : Word) (s : State) :
   (s.busy = true ∧ hostStore a v s = { s with ovr := true }) ∨
   (s.busy = false ∧ ∃ d td tc ts tv rc, hostStore a v s =
     { s with data := d, txdir := td, txcmd := tc, txsize := ts, txval := tv, rxcap := rc }) ∨
   (s.busy = false ∧ ∃ i b, a.toNat = 0x10000 + i ∧ i < s.cfg.txbufDepth ∧ hostStore a v s =
     { s with txbuf := s.txbuf.store i b }) := by
  unfold hostStore
  split
  · next h => exact .inl ⟨h, rfl⟩
  · next h =>
    right
    unfold storeLoc
    split
    case h_7 =>
      split
      · right; exact ⟨not_busy h, a.toNat - 0x10000, _, by omega, by omega, rfl⟩
      · left; exact ⟨not_busy h, _, _, _, _, _, _, rfl⟩
    all_goals (left; exact ⟨not_busy h, _, _, _, _, _, _, rfl⟩)

end Sys2Proof.Machine
end

