-- ==== Sys2Proof/Laws/Runs.lean ====
section
/-! SUPPORT. Runs of the block's own steps, one logical byte at a time: what a run of one or two steps does in a phase that
unescapes and in a phase that escapes. -/

namespace Sys2Proof.Machine

theorem stepRun_zero (s : State) : stepRun 0 s = .next s := rfl

/-- A run is the run of its first part, then of the rest. -/
theorem stepRun_trans {m n : Nat} {s t u : State} (h₁ : stepRun m s = .next t) (h₂ : stepRun n t = .next u) :
    stepRun (m + n) s = .next u := by rw [stepRun_add h₁, h₂]

/-- A run of one step is the step. -/
theorem stepRun_single (s : State) : stepRun 1 s = step s := by
  simp only [stepRun]
  cases step s <;> rfl

/-- What a state does by itself when nothing comes from outside. -/
theorem step_receives {s : State} {p : Byte} {q : List Byte} (hin : s.inputs = [])
    (hph : s.ph = .dec ∨ s.ph = .rHdr ∨ s.ph = .rPay) (hq : s.rxq = p :: q) :
    step s = unescape p { s with rxq := q } := by
  rw [step_no_input hin, blockStep_receives (by tauto) hq]
  exact receive_unescapes (s := { s with rxq := q }) hph p

/-- The escape byte is taken and remembered (`40_framing_codec.md` R121). -/
theorem step_takes_escape {s : State} {q : List Byte} (hin : s.inputs = [])
    (hph : s.ph = .dec ∨ s.ph = .rHdr ∨ s.ph = .rPay) (he : s.escp = false) (hq : s.rxq = Config.esc :: q) :
    step s = .next { s with rxq := q, escp := true } := by
  rw [step_receives hin hph hq]
  simp [unescape, he]

/-- The second byte of a pair is taken (R121). -/
theorem step_takes_second {s : State} {t : Byte} {q : List Byte} (hin : s.inputs = [])
    (hph : s.ph = .dec ∨ s.ph = .rHdr ∨ s.ph = .rPay) (he : s.escp = true) (hq : s.rxq = t :: q) :
    step s = unescapePair t { s with rxq := q } := by
  rw [step_receives hin hph hq, unescape, if_pos he]

/-- Two steps take a whole pair. -/
theorem stepRun_pair {s : State} {t : Byte} {q : List Byte} (hin : s.inputs = [])
    (hph : s.ph = .dec ∨ s.ph = .rHdr ∨ s.ph = .rPay) (he : s.escp = false) (hq : s.rxq = Config.esc :: t :: q) :
    stepRun 2 s = unescapePair t { s with rxq := q } := by
  rw [stepRun_one (step_takes_escape hin hph he hq), stepRun_single,
    step_takes_second (s := { s with rxq := t :: q, escp := true }) hin hph rfl rfl]
  simp only [unescapePair]

/-- The physical bytes of one logical byte, as `dec1` reads them, are taken and it is delivered. -/
theorem stepRun_logical {s : State} {b : Byte} {q : List Byte} (hin : s.inputs = [])
    (hph : s.ph = .dec ∨ s.ph = .rHdr ∨ s.ph = .rPay) (he : s.escp = false) (hd : dec1 s.rxq = .ok b q) :
    q.length < s.rxq.length ∧ stepRun (s.rxq.length - q.length) s = deliver b { s with rxq := q } := by
  match hq : s.rxq with
  | [] => rw [hq] at hd; cases hd
  | [p] =>
    rw [hq, dec1] at hd
    by_cases hp : p = Config.esc
    · simp [hp] at hd
    · simp only [if_neg hp, Dec.ok.injEq] at hd
      obtain ⟨rfl, rfl⟩ := hd
      refine ⟨by simp, ?_⟩
      simp only [List.length_cons, List.length_nil, Nat.sub_zero, Nat.zero_add]
      rw [stepRun_single, step_receives hin hph hq, unescape]
      simp [he, hp]
  | p :: t :: r =>
    rw [hq, dec1] at hd
    by_cases hp : p = Config.esc
    · subst hp
      simp only [if_true] at hd
      cases hu : unpair t with
      | none => simp [hu] at hd
      | some c =>
        simp only [hu, Dec.ok.injEq] at hd
        obtain ⟨rfl, rfl⟩ := hd
        refine ⟨by simp, ?_⟩
        rw [show (Config.esc :: t :: r).length - r.length = 2 by simp; omega, stepRun_pair hin hph he hq]
        simp only [unescapePair, hu, ← he]
    · simp only [if_neg hp, Dec.ok.injEq] at hd
      obtain ⟨rfl, rfl⟩ := hd
      refine ⟨by simp, ?_⟩
      rw [show (p :: t :: r).length - (t :: r).length = 1 by simp, stepRun_single, step_receives hin hph hq, unescape]
      simp [he, hp]

/-- The escape byte of a pair is put (`40_framing_codec.md` R120). -/
theorem txEscape_first {s : State} {cur : Byte} (advance : State → State) (he : s.escp = false)
    (hc : cur = Config.delim ∨ cur = Config.esc) :
    txEscape cur advance s = { s with txlog := s.txlog ++ [Config.esc], escp := true } := by
  rw [txEscape, if_neg (by simp [he]), if_pos hc]; rfl

/-- The second byte of a pair is put, and the logical byte is done (R120). -/
theorem txEscape_second {s : State} {cur : Byte} (advance : State → State) (he : s.escp = true) :
    txEscape cur advance s =
      advance { s with txlog := s.txlog ++ [if cur = Config.delim then Config.escDelim else Config.escEsc], escp := false } := by
  rw [txEscape, if_pos he]; rfl

/-- A byte that needs no escape is put, and is done (R120). -/
theorem txEscape_literal {s : State} {cur : Byte} (advance : State → State) (he : s.escp = false)
    (hd : cur ≠ Config.delim) (hc : cur ≠ Config.esc) :
    txEscape cur advance s = advance { s with txlog := s.txlog ++ [cur] } := by
  rw [txEscape, if_neg (by simp [he]), if_neg (by tauto)]; rfl

/-- The physical bytes of one logical byte are put, when the phase's step escapes `cur` (R120): the operation's `advance`
runs once, with the encoding of `cur` appended. -/
theorem stepRun_escaped {s : State} {cur : Byte} {advance : State → State} (he : s.escp = false)
    (h₁ : step s = .next (txEscape cur advance s))
    (h₂ : step { s with txlog := s.txlog ++ [Config.esc], escp := true } =
      .next (txEscape cur advance { s with txlog := s.txlog ++ [Config.esc], escp := true })) :
    stepRun (enc cur).length s = .next (advance { s with txlog := s.txlog ++ enc cur }) := by
  have pair (hc : cur = Config.delim ∨ cur = Config.esc) (t : Byte)
      (ht : (if cur = Config.delim then Config.escDelim else Config.escEsc) = t) :
      stepRun 2 s = .next (advance { s with txlog := s.txlog ++ [Config.esc, t] }) := by
    rw [txEscape_first advance he hc] at h₁
    rw [txEscape_second advance rfl, ht] at h₂
    rw [stepRun_one h₁, stepRun_single, h₂]
    simp [← he]
  rcases enc_cases cur with ⟨hc, hcur⟩ | ⟨hc, hcur⟩ | ⟨hd, hc, hcur⟩ <;> rw [hcur]
  · exact pair (.inl hc) _ (if_pos hc)
  · exact pair (.inr hc) _ (if_neg (by rw [hc]; exact esc_ne_delim))
  · rw [txEscape_literal advance he hd hc] at h₁
    exact (stepRun_single s).trans h₁

end Sys2Proof.Machine
end

