-- ==== Sys2Proof/Laws/Interleave.lean ====
section
/-! SUPPORT. Runs with other events in between: what a turn of the block does in another environment, and that an operation
interleaved with arriving bytes, ticks, reads and dropped writes goes as it does alone (`20_memory.md` R71, R75). -/

namespace Sys2Proof.Machine

@[simp] theorem withEnv_inputs (s : State) (i : List Event) (q : List Byte) (o : Bool) (l : List Word) (m : BitVec 15) :
    (s.withEnv i q o l m).inputs = i := rfl
@[simp] theorem withEnv_ph (s : State) (i : List Event) (q : List Byte) (o : Bool) (l : List Word) (m : BitVec 15) :
    (s.withEnv i q o l m).ph = s.ph := rfl
@[simp] theorem withEnv_busy (s : State) (i : List Event) (q : List Byte) (o : Bool) (l : List Word) (m : BitVec 15) :
    (s.withEnv i q o l m).busy = s.busy := rfl
@[simp] theorem withEnv_rxq (s : State) (i : List Event) (q : List Byte) (o : Bool) (l : List Word) (m : BitVec 15) :
    (s.withEnv i q o l m).rxq = q := rfl
@[simp] theorem withEnv_idx (s : State) (i : List Event) (q : List Byte) (o : Bool) (l : List Word) (m : BitVec 15) :
    (s.withEnv i q o l m).idx = s.idx := rfl
@[simp] theorem withEnv_escp (s : State) (i : List Event) (q : List Byte) (o : Bool) (l : List Word) (m : BitVec 15) :
    (s.withEnv i q o l m).escp = s.escp := rfl
@[simp] theorem withEnv_txsize (s : State) (i : List Event) (q : List Byte) (o : Bool) (l : List Word) (m : BitVec 15) :
    (s.withEnv i q o l m).txsize = s.txsize := rfl
@[simp] theorem withEnv_rxcap (s : State) (i : List Event) (q : List Byte) (o : Bool) (l : List Word) (m : BitVec 15) :
    (s.withEnv i q o l m).rxcap = s.rxcap := rfl
@[simp] theorem withEnv_hdrb (s : State) (i : List Event) (q : List Byte) (o : Bool) (l : List Word) (m : BitVec 15) :
    (s.withEnv i q o l m).hdrb = s.hdrb := rfl
@[simp] theorem withEnv_cfg (s : State) (i : List Event) (q : List Byte) (o : Bool) (l : List Word) (m : BitVec 15) :
    (s.withEnv i q o l m).cfg = s.cfg := rfl
@[simp] theorem withEnv_withEnv (s : State) (i j : List Event) (q r : List Byte) (o d : Bool) (l k : List Word)
    (m n : BitVec 15) : (s.withEnv i q o l m).withEnv j r d k n = s.withEnv j r d k n := rfl
/-- A state's own environment. -/
theorem withEnv_self (s : State) : s.withEnv s.inputs s.rxq s.ovr s.hostLog s.tmr = s := rfl

/-- Putting a byte reads and writes nothing of the environment but `TXLOG`. -/
theorem txEscape_withEnv {cur : Byte} {adv : State → State} {s : State} {i : List Event} {q : List Byte} {o : Bool}
    {l : List Word} {m : BitVec 15} (hadv : ∀ u : State, adv (u.withEnv i q o l m) = (adv u).withEnv i q o l m) :
    txEscape cur adv (s.withEnv i q o l m) = (txEscape cur adv s).withEnv i q o l m := by
  unfold txEscape
  rw [withEnv_escp]
  split
  · exact hadv { serPut _ s with escp := false }
  · split
    · rfl
    · exact hadv (serPut cur s)

/-- A turn in a transmit phase is the same in every environment, and leaves `RXQ` alone. -/
theorem blockStep_transmits {s t : State} (hp : s.ph.transmits = true) (h : blockStep s = .next t) :
    t.rxq = s.rxq ∧ ∀ i q o l m, blockStep (s.withEnv i q o l m) = .next (t.withEnv i q o l m) := by
  have hadv (i q o l m) (u : State) : hdrAdvance (u.withEnv i q o l m) = (hdrAdvance u).withEnv i q o l m := by
    unfold hdrAdvance
    rw [withEnv_idx, withEnv_txsize]
    repeat' split
    all_goals rfl
  have padv (i q o l m) (u : State) : payAdvance (u.withEnv i q o l m) = (payAdvance u).withEnv i q o l m := by
    unfold payAdvance
    rw [withEnv_idx, withEnv_txsize]
    split <;> rfl
  refine ⟨?_, fun i q o l m => ?_⟩
  · rcases (block_frame h).1.rxq with hq | ⟨_, hn, _⟩
    · exact hq
    · rw [hp] at hn; cases hn
  · unfold blockStep at h ⊢
    rw [withEnv_ph]
    cases hph : s.ph <;> simp only [hph, Phase.transmits, Bool.false_eq_true] at hp h ⊢
    case enc =>
      obtain rfl := Host.Outcome.next.inj h
      exact congrArg _ (txEscape_withEnv fun _ => rfl)
    case sHdr =>
      unfold hdrPut at h ⊢
      split at h
      · next hi =>
        obtain rfl := Host.Outcome.next.inj h
        rw [if_pos (show (s.withEnv i q o l m).idx.toNat ≤ 7 from hi)]
        exact congrArg _ (txEscape_withEnv (hadv i q o l m))
      · cases h
    case sPay =>
      unfold payPut at h ⊢
      split at h
      · next hi =>
        obtain rfl := Host.Outcome.next.inj h
        rw [if_pos (show (s.withEnv i q o l m).idx.toNat < (s.withEnv i q o l m).cfg.txbufDepth from hi)]
        exact congrArg _ (txEscape_withEnv (padv i q o l m))
      · cases h
    all_goals (obtain rfl := Host.Outcome.next.inj h; rfl)

/-- The capacity check is the same in every environment. -/
theorem headerReceived_withEnv (s : State) (i : List Event) (q : List Byte) (o : Bool) (l : List Word) (m : BitVec 15) :
    headerReceived (s.withEnv i q o l m) = (headerReceived s).withEnv i q o l m := by
  unfold headerReceived
  rw [withEnv_hdrb, withEnv_rxcap]
  repeat' split
  all_goals rfl

/-- Delivering a logical byte is the same in every environment. -/
theorem deliver_withEnv {b : Byte} {s t : State} (h : deliver b s = .next t) (i : List Event) (q : List Byte) (o : Bool)
    (l : List Word) (m : BitVec 15) : deliver b (s.withEnv i q o l m) = .next (t.withEnv i q o l m) := by
  unfold deliver at h ⊢
  rw [withEnv_ph]
  cases hph : s.ph <;> simp only [hph] at h ⊢
  case rHdr =>
    unfold deliverHeader at h ⊢
    rw [withEnv_idx]
    by_cases h₁ : s.idx.toNat < 7
    · rw [if_pos h₁] at h ⊢; obtain rfl := Host.Outcome.next.inj h; rfl
    · rw [if_neg h₁] at h ⊢
      by_cases h₂ : s.idx.toNat = 7
      · rw [if_pos h₂] at h ⊢
        obtain rfl := Host.Outcome.next.inj h
        refine congrArg Host.Outcome.next (headerReceived_withEnv { s with hdrb := s.hdrb.set 7 b } i q o l m)
      · rw [if_neg h₂] at h; cases h
  case rPay =>
    unfold deliverPayload at h ⊢
    rw [withEnv_idx, withEnv_cfg, withEnv_hdrb]
    by_cases h₁ : s.idx.toNat < s.cfg.rxbufDepth
    · rw [if_pos h₁] at h ⊢
      by_cases h₂ : s.idx.toNat + 1 = s.hdrb.size.toNat
      · rw [if_pos h₂] at h ⊢; obtain rfl := Host.Outcome.next.inj h; rfl
      · rw [if_neg h₂] at h ⊢; obtain rfl := Host.Outcome.next.inj h; rfl
    · rw [if_neg h₁] at h; cases h
  all_goals (obtain rfl := Host.Outcome.next.inj h; rfl)

/-- Taking a byte is the same in every environment, in the phases that take one. -/
theorem receive_withEnv {p : Byte} {s t : State}
    (hp : s.ph = .dec ∨ s.ph = .rWait ∨ s.ph = .rHdr ∨ s.ph = .rPay ∨ s.ph = .flush) (h : receive p s = .next t)
    (i : List Event) (q : List Byte) (o : Bool) (l : List Word) (m : BitVec 15) :
    receive p (s.withEnv i q o l m) = .next (t.withEnv i q o l m) := by
  have une (h : unescape p s = .next t) : unescape p (s.withEnv i q o l m) = .next (t.withEnv i q o l m) := by
    unfold unescape unescapePair at h ⊢
    rw [withEnv_escp]
    by_cases h₁ : s.escp = true
    · rw [if_pos h₁] at h ⊢
      cases hu : unpair p with
      | none => simp only [hu] at h ⊢; obtain rfl := Host.Outcome.next.inj h; rfl
      | some b => simp only [hu] at h ⊢; exact deliver_withEnv h i q o l m
    · rw [if_neg h₁] at h ⊢
      by_cases h₂ : p = Config.esc
      · rw [if_pos h₂] at h ⊢; obtain rfl := Host.Outcome.next.inj h; rfl
      · rw [if_neg h₂] at h ⊢; exact deliver_withEnv h i q o l m
  unfold receive at h ⊢
  rw [withEnv_ph]
  rcases hp with hp | hp | hp | hp | hp <;> simp only [hp] at h ⊢
  · exact une h
  · obtain rfl := Host.Outcome.next.inj h
    unfold firstByte
    split <;> rfl
  · exact une h
  · exact une h
  · obtain rfl := Host.Outcome.next.inj h; rfl

/-- A turn of a busy block, whatever comes in between: it takes a piece of the queue (one byte, or none), and does the same
in every environment whose queue begins with that piece. A turn that ends a flush needs the queue empty; a turn that finds
no byte to take changes nothing. -/
theorem blockStep_withEnv {s t : State} (hb : s.busy = true) (h : blockStep s = .next t) :
    ∃ piece, s.rxq = piece ++ t.rxq ∧
      ((piece = [] ∧ t = s ∧ s.ph.transmits = false) ∨
        ∀ i X o l m, (t.busy = false → X = t.rxq) →
          blockStep (s.withEnv i (piece ++ X) o l m) = .next (t.withEnv i X o l m)) := by
  by_cases hp : s.ph.transmits = true
  · obtain ⟨hq, he⟩ := blockStep_transmits hp h
    exact ⟨[], by simp [hq], .inr fun i X o l m _ => he i X o l m⟩
  · have hph : s.ph = .dec ∨ s.ph = .rWait ∨ s.ph = .rHdr ∨ s.ph = .rPay ∨ s.ph = .flush := by
      cases hc : s.ph <;> simp_all [State.busy, Phase.transmits]
    cases hq : s.rxq with
    | nil =>
      by_cases hf : s.ph = .flush
      · refine ⟨[], ?_, .inr fun i X o l m hX => ?_⟩
        all_goals simp only [blockStep, hf, hq] at h; obtain rfl := Host.Outcome.next.inj h
        · simp [hq]
        · obtain rfl : X = [] := by simpa [hq] using hX (by simp [State.busy])
          simp only [blockStep, withEnv_ph, hf, withEnv_rxq, List.nil_append]
          rfl
      · refine ⟨[], ?_, .inl ?_⟩
        all_goals
          obtain rfl : s = t := by
            unfold blockStep at h
            rcases hph with hph | hph | hph | hph | hph <;> simp_all
        · simp [hq]
        · exact ⟨rfl, rfl, by simpa using hp⟩
    | cons p q =>
      have hr : blockStep s = receive p { s with rxq := q } := by
        unfold blockStep
        rcases hph with hph | hph | hph | hph | hph <;> simp only [hph, hq]
      rw [hr] at h
      have hq' : t.rxq = q := by
        have := receive_withEnv (s := { s with rxq := q }) hph h s.inputs q s.ovr s.hostLog s.tmr
        rw [show ({ s with rxq := q } : State).withEnv s.inputs q s.ovr s.hostLog s.tmr = { s with rxq := q } from rfl,
          h] at this
        rw [Host.Outcome.next.inj this, withEnv_rxq]
      refine ⟨[p], by simp [hq'], .inr fun i X o l m _ => ?_⟩
      have := receive_withEnv (s := { s with rxq := q }) hph h i X o l m
      rw [← this]
      unfold blockStep
      rw [withEnv_ph]
      rcases hph with hph | hph | hph | hph | hph <;> simp only [hph, withEnv_rxq, List.singleton_append] <;> rfl

/-- An event in between, while an operation runs: only the environment's part changes, or a tick ends the window. -/
theorem step_between {s : State} {e : Event} {rest : List Event} (hin : s.inputs = e :: rest) (he : e.harmless = true)
    (hne : e ≠ .block) (hb : s.busy = true) :
    ∃ l m t, step s = .next t ∧ s.hostLog <+: l ∧ (s.ph ≠ .rWait → m = s.tmr) ∧
      (t = s.withEnv rest (s.rxq ++ arrivals [e]) (s.ovr || e.isWrite) l m ∨ (t.busy = false ∧ s.ph = .rWait)) := by
  have hdrop : ({ s with inputs := rest, ovr := true } : State) =
      s.withEnv rest (s.rxq ++ []) (s.ovr || true) s.hostLog s.tmr := by simp [State.withEnv]
  cases e with
  | chanFault => cases he
  | reset => cases he
  | block => exact absurd rfl hne
  | hostWrite a v =>
    refine ⟨s.hostLog, s.tmr, { s with inputs := rest, ovr := true }, ?_, List.prefix_refl _, fun _ => rfl, .inl hdrop⟩
    by_cases ha : a = 0x00
    · subst ha
      exact (step_cmd hin).trans ((exec_decodeOp _ _).trans (congrArg _ (if_pos hb)))
    · exact (step_write hin ha).trans (congrArg _ (if_pos hb))
  | hostRead a =>
    exact ⟨s.hostLog ++ [hostRead { s with inputs := rest } a], s.tmr, _, step_read hin, List.prefix_append _ _,
      fun _ => rfl, .inl (by simp [State.withEnv, arrivals, Event.isWrite])⟩
  | arrive b =>
    exact ⟨s.hostLog, s.tmr, _, step_arrive hin, List.prefix_refl _, fun _ => rfl,
      .inl (by simp [State.withEnv, arrivals, Event.isWrite, arrive])⟩
  | tick =>
    have henv (m : BitVec 15) : ({ s with inputs := rest, tmr := m } : State) =
        s.withEnv rest (s.rxq ++ []) (s.ovr || false) s.hostLog m := by simp [State.withEnv]
    by_cases hw : s.ph = .rWait ∧ s.rxq = []
    · refine ⟨s.hostLog, s.tmr + 1, _, step_tick hin, List.prefix_refl _, fun h => absurd hw.1 h, ?_⟩
      rw [tick, if_pos hw]
      split
      · exact .inr ⟨rfl, hw.1⟩
      · exact .inl (henv _)
    · refine ⟨s.hostLog, s.tmr, _, step_tick hin, List.prefix_refl _, fun _ => rfl, .inl ?_⟩
      rw [tick, if_neg hw]
      exact henv _

/-- A running operation interleaved with harmless events goes as it does alone: it takes a piece `taken` of what is in the
queue or arrives, in at most as many turns, and alone with that piece it gets to the same state. -/
theorem stepRun_interleaved (evs : List Event) {s u : State} {rest : List Event} (he : evs.all Event.harmless = true)
    (hin : s.inputs = evs ++ rest) (hrun : stepRun evs.length s = .next u)
    (hb : ∀ k w, k ≤ evs.length → stepRun k s = .next w → w.busy = true) :
    ∃ taken k, k ≤ evs.count .block ∧ s.rxq ++ arrivals evs = taken ++ u.rxq ∧ u.inputs = rest ∧
      ∀ X o l m, stepRun k (s.withEnv [] (taken ++ X) o l m) = .next (u.withEnv [] X o l m) := by
  induction evs generalizing s with
  | nil =>
    obtain rfl := Host.Outcome.next.inj hrun
    exact ⟨[], 0, Nat.zero_le _, by simp [arrivals], by simpa using hin, fun _ _ _ _ => rfl⟩
  | cons e evs ih =>
    simp only [List.all_cons, Bool.and_eq_true] at he
    have hs : s.busy = true := hb 0 s (Nat.zero_le _) rfl
    have next {t : State} (h : step s = .next t) : stepRun evs.length t = .next u ∧ t.busy = true ∧
        ∀ k w, k ≤ evs.length → stepRun k t = .next w → w.busy = true := by
      refine ⟨by rwa [List.length_cons, stepRun_one h] at hrun, ?_, fun k w hk hw => ?_⟩
      · exact hb 1 t (by simp) (by rw [stepRun_single, h])
      · exact hb (k + 1) w (by simpa using hk) (by rw [stepRun_one h, hw])
    by_cases hbl : e = .block
    · subst hbl
      have hstep := step_block (s := s) (rest := evs ++ rest) hin
      cases ht : blockStep { s with inputs := evs ++ rest } with
      | fault f => rw [List.length_cons, stepRun, hstep, ht] at hrun; cases hrun
      | refused r => rw [List.length_cons, stepRun, hstep, ht] at hrun; cases hrun
      | next t =>
        rw [ht] at hstep
        obtain ⟨hr, htb, hbs⟩ := next hstep
        have hti : t.inputs = evs ++ rest := (block_frame ht).1.inputs
        obtain ⟨taken, k, hk, hq, hu, hX⟩ := ih he.2 hti hr hbs
        obtain ⟨piece, hp, ⟨rfl, hts, _⟩ | hp'⟩ := blockStep_withEnv (s := { s with inputs := evs ++ rest }) hs ht
        · refine ⟨taken, k, by simp; omega, ?_, hu, fun X o l m => ?_⟩
          · rw [← hq, hts]; rfl
          · rw [← hX X o l m, hts]; rfl
        · refine ⟨piece ++ taken, k + 1, by simp; omega, ?_, hu, fun X o l m => ?_⟩
          · rw [show s.rxq = piece ++ t.rxq from hp]
            simp only [arrivals, List.append_assoc, ← hq]
          · have hone : step (s.withEnv [] (piece ++ (taken ++ X)) o l m) = .next (t.withEnv [] (taken ++ X) o l m) := by
              rw [step_no_input rfl]
              exact hp' [] (taken ++ X) o l m (by simp [htb])
            rw [List.append_assoc, stepRun_one hone, hX]
    · obtain ⟨l', m', t, hstep, -, -, ht | ⟨ht, -⟩⟩ := step_between hin he.1 hbl hs
      · obtain ⟨hr, htb, hbs⟩ := next hstep
        subst ht
        obtain ⟨taken, k, hk, hq, hu, hX⟩ := ih he.2 rfl hr hbs
        refine ⟨taken, k, by rw [List.count_cons_of_ne hbl]; exact hk, ?_, hu, fun X o l m => ?_⟩
        · rw [← hq, withEnv_rxq, List.append_assoc]
          cases e <;> rfl
        · rw [← hX X o l m]; rfl
      · have := (next hstep).2.1
        rw [ht] at this; cases this

/-- SEND's start is the same in every environment. -/
theorem sendStart_withEnv (s : State) (i : List Event) (q : List Byte) (o : Bool) (l : List Word) (m : BitVec 15) :
    sendStart (accept 0x4 (s.withEnv i q o l m)) = (sendStart (accept 0x4 s)).withEnv i q o l m := by
  unfold sendStart
  rw [accept_txsize, accept_cfg, accept_txsize, accept_cfg, withEnv_txsize, withEnv_cfg]
  split <;> rfl

/-- RECV's start is the same in every environment, and clears `TMR`. -/
theorem recvStart_withEnv (s : State) (i : List Event) (q : List Byte) (o : Bool) (l : List Word)
    (hb : (recvStart (accept 0x5 s)).busy = true) :
    recvStart (accept 0x5 (s.withEnv i q o l s.tmr)) = (recvStart (accept 0x5 s)).withEnv i q o l 0 := by
  unfold recvStart at hb ⊢
  rw [accept_rxcap, accept_cfg, accept_rxcap, accept_cfg, withEnv_rxcap, withEnv_cfg]
  rw [accept_rxcap, accept_cfg] at hb
  split at hb
  · cases hb
  · next h => rw [if_neg h, if_neg h]; rfl

/-- A command accepted in another environment: the same, but for `TMR`, which RECV clears. -/
theorem accepted_withEnv (op : BitVec 4) (s : State) (i : List Event) (q : List Byte) (o : Bool) (l : List Word)
    (hb : (accepted op s).busy = true) :
    accepted op (s.withEnv i q o l s.tmr) =
      (accepted op s).withEnv i q o l (if op = 0x5 then 0 else s.tmr) := by
  unfold accepted at hb ⊢
  rw [show (s.withEnv i q o l s.tmr).chf = s.chf from rfl]
  by_cases h : (isChannelOp op && s.chf) = true
  · rw [if_pos h] at hb; cases hb
  · rw [if_neg h] at hb ⊢
    rw [if_neg h]
    obtain ⟨n, rfl⟩ : ∃ n : Fin 16, op = BitVec.ofFin n := ⟨op.toFin, rfl⟩
    fin_cases n
    all_goals try (cases hb; done)
    all_goals try rfl
    · exact sendStart_withEnv s i q o l _
    · exact recvStart_withEnv s i q o l hb

/-- An idle block with nothing coming stays as it is. -/
theorem stepRun_idle {s : State} (hp : s.ph = .idle) (hin : s.inputs = []) (n : Nat) : stepRun n s = .next s := by
  induction n with
  | zero => rfl
  | succ n ih => rw [stepRun_one (t := s) (by rw [step_no_input hin]; simp only [blockStep, hp]), ih]

/-- A turn in a transmit phase stays in a transmit phase or ends the operation. -/
theorem blockStep_transmits_phase {s t : State} (hp : s.ph.transmits = true) (h : blockStep s = .next t) :
    t.ph.transmits = true ∨ t.ph = .idle := by
  have esc (cur : Byte) (adv : State → State)
      (hadv : ∀ u : State, u.ph = s.ph → (adv u).ph.transmits = true ∨ (adv u).ph = .idle) :
      (txEscape cur adv s).ph.transmits = true ∨ (txEscape cur adv s).ph = .idle := by
    unfold txEscape
    split
    · exact hadv _ rfl
    · split
      · exact .inl hp
      · exact hadv _ rfl
  unfold blockStep at h
  cases hph : s.ph <;> simp only [hph, Phase.transmits, Bool.false_eq_true] at hp h
  case enc => obtain rfl := Host.Outcome.next.inj h; exact esc _ _ fun _ _ => .inr rfl
  case sHdr =>
    unfold hdrPut at h
    split at h
    · obtain rfl := Host.Outcome.next.inj h
      refine esc _ _ fun u hu => .inl ?_
      unfold hdrAdvance
      repeat' split
      all_goals simp [hu, hph, Phase.transmits]
    · cases h
  case sPay =>
    unfold payPut at h
    split at h
    · obtain rfl := Host.Outcome.next.inj h
      refine esc _ _ fun u hu => .inl ?_
      unfold payAdvance
      split <;> simp [hu, hph, Phase.transmits]
    · cases h
  all_goals (obtain rfl := Host.Outcome.next.inj h; first | exact .inr rfl | exact .inl rfl)

/-- A transmission alone goes the same in every environment. -/
theorem stepRun_transmits_withEnv (n : Nat) {s w : State} (hp : s.ph.transmits = true) (hi : s.inputs = [])
    (h : stepRun n s = .next w) (hw : w.ph.transmits = true) (q : List Byte) (o : Bool) (l : List Word) (m : BitVec 15) :
    stepRun n (s.withEnv [] q o l m) = .next (w.withEnv [] q o l m) := by
  induction n generalizing s with
  | zero => obtain rfl := Host.Outcome.next.inj h; rfl
  | succ n ih =>
    cases hs : step s with
    | fault f => rw [stepRun, hs] at h; cases h
    | refused r => rw [stepRun, hs] at h; cases h
    | next t =>
      rw [stepRun_one hs] at h
      rw [step_no_input hi] at hs
      have hti : t.inputs = [] := (block_frame hs).1.inputs.trans hi
      rcases blockStep_transmits_phase hp hs with htp | htp
      · rw [stepRun_one (t := t.withEnv [] q o l m)]
        · exact ih htp hti h
        · rw [step_no_input rfl]; exact (blockStep_transmits hp hs).2 [] q o l m
      · rw [stepRun_idle htp hti] at h
        obtain rfl := Host.Outcome.next.inj h
        rw [htp] at hw; cases hw

/-- A transmission interleaved with harmless events: after as many turns it is where it would be alone, and the events have
changed only the environment's part. -/
theorem stepRun_transmits (evs : List Event) {s w : State} {rest : List Event} (he : evs.all Event.harmless = true)
    (hin : s.inputs = evs ++ rest) (hp : s.ph.transmits = true)
    (hrun : stepRun (evs.count .block) (s.withEnv [] [] false [] 0) = .next w) (hw : w.ph.transmits = true) :
    ∃ l, stepRun evs.length s =
        .next (w.withEnv rest (s.rxq ++ arrivals evs) (s.ovr || evs.any Event.isWrite) l s.tmr) ∧ s.hostLog <+: l := by
  induction evs generalizing s with
  | nil =>
    obtain rfl := Host.Outcome.next.inj hrun
    refine ⟨s.hostLog, ?_, List.prefix_refl _⟩
    simp only [List.nil_append] at hin
    simp [stepRun, arrivals, ← hin, withEnv_self]
  | cons e evs ih =>
    simp only [List.all_cons, Bool.and_eq_true] at he
    by_cases hbl : e = .block
    · subst hbl
      rw [List.count_cons_self] at hrun
      have hs0 := step_no_input (s := s.withEnv [] [] false [] 0) rfl
      cases h0 : blockStep (s.withEnv [] [] false [] 0) with
      | fault f => rw [stepRun, hs0, h0] at hrun; cases hrun
      | refused r => rw [stepRun, hs0, h0] at hrun; cases hrun
      | next t =>
        rw [h0] at hs0
        rw [stepRun_one hs0] at hrun
        have henv := (blockStep_transmits (s := s.withEnv [] [] false [] 0) hp h0).2
        have hti : t = t.withEnv [] [] false [] 0 := by
          have := henv [] [] false [] 0
          rw [withEnv_withEnv, h0] at this
          exact Host.Outcome.next.inj this
        have htp : t.ph.transmits = true := by
          refine (blockStep_transmits_phase (s := s.withEnv [] [] false [] 0) hp h0).resolve_right fun hidle => ?_
          rw [stepRun_idle hidle (by rw [hti]; rfl)] at hrun
          obtain rfl := Host.Outcome.next.inj hrun
          rw [hidle] at hw; cases hw
        have hstep : step s = .next (t.withEnv (evs ++ rest) s.rxq s.ovr s.hostLog s.tmr) := by
          rw [step_block (s := s) (rest := evs ++ rest) hin]
          exact henv (evs ++ rest) s.rxq s.ovr s.hostLog s.tmr
        obtain ⟨l, hl, hpre⟩ := ih (s := t.withEnv (evs ++ rest) s.rxq s.ovr s.hostLog s.tmr) he.2 rfl htp
          (by rw [withEnv_withEnv, ← hti]; exact hrun)
        exact ⟨l, by rw [List.length_cons, stepRun_one hstep, hl]; rfl, hpre⟩
    · have hbusy : s.busy = true := by cases hph : s.ph <;> simp_all [State.busy, Phase.transmits]
      have hnw : s.ph ≠ .rWait := by intro h; rw [h] at hp; cases hp
      obtain ⟨l', m', t, hstep, hpre', hm, rfl | ⟨-, ht⟩⟩ := step_between hin he.1 hbl hbusy
      · rw [List.count_cons_of_ne hbl] at hrun
        obtain ⟨l, hl, hpre⟩ := ih (s := s.withEnv (evs ++ rest) (s.rxq ++ arrivals [e]) (s.ovr || e.isWrite) l' m') he.2
          rfl hp hrun
        refine ⟨l, ?_, hpre'.trans hpre⟩
        refine (stepRun_one hstep _).trans (hl.trans ?_)
        rw [hm hnw]
        have ha : arrivals (e :: evs) = arrivals [e] ++ arrivals evs := by cases e <;> rfl
        rw [ha, ← List.append_assoc, List.any_cons, ← Bool.or_assoc]
        rfl
      · exact absurd ht hnw

end Sys2Proof.Machine
end

