-- ==== Sys2Proof/Laws/Keeps.lean ====
section
/-! SUPPORT. Each part of a step keeps the invariant. -/

namespace Sys2Proof.Machine

/-- The invariant says nothing of the coming events. -/
theorem invariant_inputs {s : State} (h : Invariant s) (l) : Invariant { s with inputs := l } := by
  cases h; constructor <;> assumption
/-- The invariant says nothing of the host's log. -/
theorem invariant_hostLog {s : State} (h : Invariant s) (l) : Invariant { s with hostLog := l } := by
  cases h; constructor <;> assumption
/-- The invariant says nothing of the receive stream. -/
theorem invariant_rxq {s : State} (h : Invariant s) (l) : Invariant { s with rxq := l } := by
  cases h; constructor <;> assumption
/-- The invariant says nothing of the transmit stream. -/
theorem invariant_txlog {s : State} (h : Invariant s) (l) : Invariant { s with txlog := l } := by
  cases h; constructor <;> assumption
/-- The invariant says nothing of `OVR`. -/
theorem invariant_ovr {s : State} (h : Invariant s) (b) : Invariant { s with ovr := b } := by
  cases h; constructor <;> assumption

/-- A completion keeps the invariant (`10_state.md` R43). -/
theorem invariant_complete {s : State} (h : Invariant s) (e) : Invariant (complete e s) := by
  cases h; constructor <;> simp_all [complete, State.busy, State.escpLegal, Phase.opcode, Phase.ofSend, Phase.ofRecv]

/-- `ChanFault` keeps the invariant (`10_state.md` R45). -/
theorem invariant_chanFault {s : State} (h : Invariant s) : Invariant (chanFault s) := by
  unfold chanFault
  split
  · cases h; constructor <;> simp_all
    [complete, State.busy, State.escpLegal, Phase.opcode, Phase.ofSend, Phase.ofRecv]
  · next hb =>
    have hp : s.ph = .idle := by simpa [State.busy] using hb
    cases h; constructor <;> simp_all [State.busy, State.escpLegal, Phase.opcode, Phase.ofSend, Phase.ofRecv]

/-- `Reset` keeps the invariant (R51). -/
theorem invariant_resetBlock {s : State} (h : Invariant s) : Invariant (resetBlock s) := by
  have := h.cfg_wf
  constructor <;> first
    | exact this
    | rfl
    | (show Config.ckInit.toNat < 256; decide)
    | (simp [resetBlock, State.reset, State.busy, State.escpLegal, Phase.opcode, Phase.ofSend, Phase.ofRecv]; done)

/-- `Tick` keeps the invariant (R46). -/
theorem invariant_tick {s : State} (h : Invariant s) : Invariant (tick s) := by
  unfold tick
  have hT : 1 ≤ s.cfg.rxTimeoutMs ∧ s.cfg.rxTimeoutMs < 32768 := by
    have := h.cfg_wf
    simp [Config.wf] at this; omega
  split
  · next hc =>
    have hw := h.recv_wait hc.1
    have : (s.tmr + 1).toNat = s.tmr.toNat + 1 := by rw [BitVec.toNat_add]; simp; omega
    rw [this]
    split
    · cases h; constructor <;> simp_all
      [complete, State.busy, State.escpLegal, Phase.opcode, Phase.ofSend, Phase.ofRecv] <;> omega
    · cases h; constructor <;> simp_all [State.busy, State.escpLegal, Phase.opcode, Phase.ofSend, Phase.ofRecv] <;>
      omega
  · exact h

/-- A host write keeps the invariant (`20_memory.md` R62). -/
theorem invariant_hostStore {s : State} (h : Invariant s) (a : Loc) (v : Word) : Invariant (hostStore a v s) := by
  unfold hostStore
  split
  · exact invariant_ovr h _
  · next hb =>
    have hp : s.ph = .idle := by simpa [State.busy] using hb
    have easy : ∀ t : State, t.cfg = s.cfg → t.txbuf = s.txbuf → t.rxbuf = s.rxbuf → t.cksum = s.cksum → t.tmr = s.tmr
      → t.ph = .idle → t.escp = s.escp → t.rxv = s.rxv → t.rxcnt = s.rxcnt → t.hdrb = s.hdrb → Invariant t := by
      intro t h1 h2 h3 h4 h5 h6 h7 h8 h9 h10
      cases h; constructor <;> simp_all [State.busy, State.escpLegal, Phase.opcode, Phase.ofSend, Phase.ofRecv]
    unfold storeLoc
    split
    all_goals first
      | (apply easy <;> first | rfl | exact hp)
      | skip
    split
    · next hn =>
      have hb := h.txbuf_below
      have hw := h.txbuf_wf
      have h1 := Memory.below_store hb (a := a.toNat - 0x10000) (by omega) (v.setWidth 8)
      have h2 := Memory.wf_store hw (a.toNat - 0x10000) (v.setWidth 8)
      cases h; constructor <;> simp_all [State.busy, State.escpLegal, Phase.opcode, Phase.ofSend, Phase.ofRecv]
    · exact h

/-- Folding a byte keeps bits 31:8 zero. -/
theorem ckFold_byte {c : Word} (h : c.toNat < 256) (b : Byte) : (ckFold c b).toNat < 256 := by
  unfold ckFold
  rw [BitVec.toNat_xor]
  have : (b.setWidth 32).toNat < 2 ^ 8 := by simp; omega
  exact Nat.xor_lt_two_pow (n := 8) h this

/-- A state whose operation has ended, or never ran. -/
theorem invariant_of_idle {s t : State} (h : Invariant s) (h1 : t.cfg = s.cfg) (h2 : t.txbuf = s.txbuf)
  (h3 : t.rxbuf = s.rxbuf)
    (h4 : t.cksum.toNat < 256) (h5 : t.tmr = s.tmr) (h6 : t.ph = .idle) (h7 : t.escp = false)
      (h8 : t.rxv = true → t.rxcnt = t.hdrb.size) : Invariant t := by
  cases h; constructor <;> simp_all [State.busy, State.escpLegal, Phase.opcode, Phase.ofSend, Phase.ofRecv]

/-- A state whose operation has just started. -/
theorem invariant_of_start {s : State} (h : Invariant s) (op) (ph : Phase) (h0 : s.chf = false)
  (h6 : ph.opcode = some op) (h9 : ph = .sOpen → s.txsize.toNat ≤ s.cfg.txbufDepth)
  (h10 : ph = .enc ∨ ph = .dec ∨ ph = .dlm ∨ ph = .flush ∨ ph = .sOpen) :
   Invariant { accept op s with ph := ph } where
  cfg_wf := h.cfg_wf
  txbuf_wf := h.txbuf_wf
  txbuf_below := h.txbuf_below
  rxbuf_wf := h.rxbuf_wf
  rxbuf_below := h.rxbuf_below
  cksum_byte := h.cksum_byte
  tmr_range := h.tmr_range
  busy_not_done := fun _ => rfl
  busy_no_err := fun _ => rfl
  op_owns_phase := .inr h6
  busy_no_chf := fun _ => h0
  escp_legal := fun he => by cases he
  send_fits := fun hf => h9 (by rcases h10 with rfl | rfl | rfl | rfl | rfl <;> simp [Phase.ofSend] at *)
  send_hdr := fun hf => by rcases h10 with rfl | rfl | rfl | rfl | rfl <;> cases hf
  send_pay := fun hf => by rcases h10 with rfl | rfl | rfl | rfl | rfl <;> cases hf
  recv_fits := fun hf => by rcases h10 with rfl | rfl | rfl | rfl | rfl <;> cases hf
  recv_not_valid := fun hf => by rcases h10 with rfl | rfl | rfl | rfl | rfl <;> cases hf
  recv_wait := fun hf => by rcases h10 with rfl | rfl | rfl | rfl | rfl <;> cases hf
  recv_hdr := fun hf => by rcases h10 with rfl | rfl | rfl | rfl | rfl <;> cases hf
  recv_pay := fun hf => by rcases h10 with rfl | rfl | rfl | rfl | rfl <;> cases hf
  rxv_whole := h.rxv_whole

/-- An accepted command keeps the invariant (R44). -/
theorem invariant_accepted {s : State} (h : Invariant s) (hp : s.ph = .idle) (op : BitVec 4) : Invariant
  (accepted op s) := by
  have hT : 1 ≤ s.cfg.rxTimeoutMs ∧ s.cfg.rxTimeoutMs < 32768 := by
    have := h.cfg_wf
    simp [Config.wf] at this; omega
  have hk := ckFold_byte h.cksum_byte
  unfold accepted
  split
  · exact invariant_of_idle h rfl rfl rfl h.cksum_byte rfl rfl rfl h.rxv_whole
  · next hc =>
    obtain ⟨n, rfl⟩ : ∃ n : Fin 16, op = BitVec.ofFin n := ⟨op.toFin, rfl⟩
    fin_cases n
    · exact invariant_of_idle h rfl rfl rfl h.cksum_byte rfl rfl rfl h.rxv_whole
    · exact invariant_of_start h _ .enc (by simpa [isChannelOp] using hc) rfl (by simp) (by simp)
    · exact invariant_of_start h _ .dec (by simpa [isChannelOp] using hc) rfl (by simp) (by simp)
    · exact invariant_of_start h _ .dlm (by simpa [isChannelOp] using hc) rfl (by simp) (by simp)
    · show Invariant (sendStart _)
      unfold sendStart
      split
      · exact invariant_of_idle h rfl rfl rfl h.cksum_byte rfl rfl rfl h.rxv_whole
      · next hz =>
          exact invariant_of_start h _ .sOpen (by simpa [isChannelOp] using hc) rfl (fun _ => Nat.not_lt.1 hz)
            (by simp)
    · show Invariant (recvStart _)
      unfold recvStart
      split
      · exact invariant_of_idle h rfl rfl rfl h.cksum_byte rfl rfl rfl h.rxv_whole
      · next hz =>
        have hc' : s.chf = false := by simpa [isChannelOp] using hc
        have hz' : s.rxcap.toNat ≤ s.cfg.rxbufDepth := Nat.not_lt.1 hz
        cases h; constructor <;> simp_all
          [accept, State.busy, State.escpLegal, Phase.opcode, Phase.ofSend, Phase.ofRecv] <;> omega
    · exact invariant_of_idle h rfl rfl rfl h.cksum_byte rfl rfl rfl h.rxv_whole
    · exact invariant_of_start h _ .flush (by simpa [isChannelOp] using hc) rfl (by simp) (by simp)
    · exact invariant_of_idle h rfl rfl rfl (by show BitVec.toNat Config.ckInit < 256; decide) rfl rfl rfl h.rxv_whole
    · exact invariant_of_idle h rfl rfl rfl (hk _) rfl rfl rfl h.rxv_whole
    all_goals exact invariant_of_idle h rfl rfl rfl h.cksum_byte rfl rfl rfl h.rxv_whole

/-- A state whose operation has gone on. -/
theorem invariant_progress {s : State} (h : Invariant s) (ph : Phase) (i : Half) (e : Bool) (r : Half) (hd : HdrBytes)
  (m : Memory)
    (hb : s.ph ≠ .idle) (hop : ph.opcode = s.ph.opcode)
    (hm : m.wf = true ∧ m.below s.cfg.rxbufDepth = true)
    (h1 : e = true → ({ s with ph := ph, idx := i, escp := e, rxcnt := r, hdrb := hd, rxbuf := m } : State).escpLegal
      = true)
    (h2 : ph = .sHdr → i.toNat ≤ 7) (h3 : ph = .sPay → i.toNat < s.txsize.toNat)
    (h4 : ph = .rWait → s.ph = .rWait ∧ r = s.rxcnt) (h5 : ph = .rHdr → i.toNat ≤ 7 ∧ r = 0)
      (h6 : ph = .rPay → i.toNat < hd.size.toNat ∧ hd.size.toNat ≤ s.rxcap.toNat ∧ r = i)
    (h7 : s.rxv = true → r = s.rxcnt ∧ hd = s.hdrb) :
    Invariant { s with ph := ph, idx := i, escp := e, rxcnt := r, hdrb := hd, rxbuf := m } where
  cfg_wf := h.cfg_wf
  txbuf_wf := h.txbuf_wf
  txbuf_below := h.txbuf_below
  rxbuf_wf := hm.1
  rxbuf_below := hm.2
  cksum_byte := h.cksum_byte
  tmr_range := h.tmr_range
  busy_not_done := fun _ => h.busy_not_done (by simpa [State.busy] using hb)
  busy_no_err := fun _ => h.busy_no_err (by simpa [State.busy] using hb)
  op_owns_phase := by show ph.opcode = _ ∨ _; rw [hop]; exact h.op_owns_phase
  busy_no_chf := fun _ => h.busy_no_chf (by simpa [State.busy] using hb)
  escp_legal := h1
  send_fits := fun hf => h.send_fits
    (by cases ph <;> simp [Phase.ofSend] at hf <;> cases hq : s.ph <;> simp [hq, Phase.opcode, Phase.ofSend] at * )
  send_hdr := h2
  send_pay := h3
  recv_fits := fun hf => h.recv_fits
    (by cases ph <;> simp [Phase.ofRecv] at hf <;> cases hq : s.ph <;> simp [hq, Phase.opcode, Phase.ofRecv] at * )
  recv_not_valid := fun hf => h.recv_not_valid
    (by cases ph <;> simp [Phase.ofRecv] at hf <;> cases hq : s.ph <;> simp [hq, Phase.opcode, Phase.ofRecv] at * )
  recv_wait := fun hf => by
    have := h4 hf
    exact ⟨(h.recv_wait this.1).1, this.2.trans (h.recv_wait this.1).2⟩
  recv_hdr := h5
  recv_pay := h6
  rxv_whole := fun hv => by
    have := h7 hv
    show r = hd.size
    rw [this.1, this.2]; exact h.rxv_whole hv

/-- A put byte keeps the invariant (`40_framing_codec.md` R120). -/
theorem invariant_txEscape {s : State} (h : Invariant s) (cur : Byte) (adv : State → State)
    (hleg : needsEscape cur = true → ∀ l, State.escpLegal { s with txlog := l, escp := true } = true)
    (hb : s.ph ≠ .idle) (hph : s.ph = .enc ∨ s.ph = .sHdr ∨ s.ph = .sPay)
    (hadv : ∀ l, Invariant (adv { s with txlog := l, escp := false })) : Invariant (txEscape cur adv s) := by
  unfold txEscape
  split
  · exact hadv _
  · next he =>
    have he' : s.escp = false := by simpa using he
    split
    · next hc =>
      have := invariant_progress (s := serPut Config.esc s) (invariant_txlog h _) s.ph s.idx true s.rxcnt s.hdrb
        s.rxbuf hb rfl ⟨h.rxbuf_wf, h.rxbuf_below⟩
        (fun _ => hleg (by simpa [needsEscape] using hc) _) h.send_hdr h.send_pay (fun h => ⟨h, rfl⟩) h.recv_hdr
          h.recv_pay (fun _ => ⟨rfl, rfl⟩)
      exact this
    · have := hadv (s.txlog ++ [cur])
      rw [← he'] at this
      exact this

/-- A delivered byte keeps the invariant. -/
theorem invariant_deliver {s t : State} (h : Invariant s) (b : Byte) (he : s.escp = false)
  (hs : deliver b s = .next t) : Invariant t := by
  unfold deliver at hs
  split at hs
  · obtain rfl := Host.Outcome.next.inj hs
    next hp =>
    exact invariant_of_idle h rfl rfl rfl h.cksum_byte rfl rfl rfl h.rxv_whole
  · next hp =>
    have hr := h.recv_hdr hp
    have hnv := h.recv_not_valid (by simp [hp, Phase.ofRecv])
    unfold deliverHeader at hs
    split at hs
    · obtain rfl := Host.Outcome.next.inj hs
      have := invariant_progress h .rHdr (s.idx+1) s.escp s.rxcnt (s.hdrb.set s.idx.toNat b) s.rxbuf (by simp [hp])
        (by simp [hp]) ⟨h.rxbuf_wf, h.rxbuf_below⟩ (by simp [he]) (by simp) (by simp) (by simp)
        (fun _ => ⟨by rw [BitVec.toNat_add]; simp; omega, hr.2⟩) (by simp) (by simp [hnv])
      rw [← hp] at this
      exact this
    · split at hs
      · obtain rfl := Host.Outcome.next.inj hs
        unfold headerReceived
        split
        · exact invariant_of_idle h rfl rfl rfl h.cksum_byte rfl rfl rfl (by simp [complete, hnv])
        · next hz =>
          split
          · next h0 =>
              exact invariant_of_idle h rfl rfl rfl h.cksum_byte rfl rfl rfl
                (by intro _; show s.rxcnt = (s.hdrb.set 7 b).size; rw [hr.2]; exact h0.symm)
          · next h0 =>
            have := invariant_progress h .rPay 0 s.escp s.rxcnt (s.hdrb.set 7 b) s.rxbuf (by simp [hp])
              (by simp [hp, Phase.opcode]) ⟨h.rxbuf_wf, h.rxbuf_below⟩ (by simp [he]) (by simp) (by simp) (by simp)
              (by simp) (fun _ => ⟨by
               show 0 < _
               rcases Nat.eq_zero_or_pos (s.hdrb.set 7 b).size.toNat with h' | h'
               · exact absurd (BitVec.eq_of_toNat_eq h') h0
               · exact h', by simpa using hz, hr.2⟩) (by simp [hnv])
            exact this
      · cases hs
  · next hp =>
    have hr := h.recv_pay hp
    have hnv := h.recv_not_valid (by simp [hp, Phase.ofRecv])
    have hfit := h.recv_fits (by simp [hp, Phase.ofRecv])
    unfold deliverPayload at hs
    split at hs
    · next hlt =>
      have m1 := Memory.wf_store h.rxbuf_wf s.idx.toNat b
      have m2 := Memory.below_store h.rxbuf_below hlt b
      split at hs
      · next heq =>
        obtain rfl := Host.Outcome.next.inj hs
        have := invariant_progress h .rPay s.idx s.escp s.idx s.hdrb (s.rxbuf.store s.idx.toNat b) (by simp [hp])
          (by simp [hp]) ⟨m1, m2⟩ (by simp [he]) (by simp) (by simp) (by simp) (by simp)
          (fun _ => ⟨hr.1, hr.2.1, rfl⟩) (by simp [hnv])
        refine invariant_of_idle this rfl rfl rfl h.cksum_byte rfl rfl rfl ?_
        intro _
        show s.idx + 1 = s.hdrb.size
        apply BitVec.eq_of_toNat_eq
        rw [BitVec.toNat_add, ← heq]; have := s.hdrb.size.isLt; simp; omega
      · next hne =>
        obtain rfl := Host.Outcome.next.inj hs
        have := invariant_progress h .rPay (s.idx+1) s.escp (s.idx+1) s.hdrb (s.rxbuf.store s.idx.toNat b)
          (by simp [hp]) (by simp [hp]) ⟨m1, m2⟩ (by simp [he]) (by simp) (by simp) (by simp) (by simp)
          (fun _ => ⟨by have := s.hdrb.size.isLt; rw [BitVec.toNat_add]; simp; omega, hr.2.1, rfl⟩) (by simp [hnv])
        rw [← hp] at this
        exact this
    · cases hs
  all_goals
    obtain rfl := Host.Outcome.next.inj hs
    exact h

/-- `ESCP` may take either value where bytes are unescaped. -/
theorem invariant_escp {s : State} (h : Invariant s) (hp : s.ph = .dec ∨ s.ph = .rHdr ∨ s.ph = .rPay) (e) : Invariant
  { s with escp := e } :=
  invariant_progress h s.ph s.idx e s.rxcnt s.hdrb s.rxbuf (by rcases hp with h | h | h <;> simp [h]) rfl
    ⟨h.rxbuf_wf, h.rxbuf_below⟩
        (fun _ => by rcases hp with h | h | h <;> simp [State.escpLegal, h]) h.send_hdr h.send_pay (fun h => ⟨h, rfl⟩)
          h.recv_hdr h.recv_pay (fun _ => ⟨rfl, rfl⟩)

/-- A taken byte keeps the invariant (R121). -/
theorem invariant_receive {s t : State} (h : Invariant s) (p : Byte) (hs : receive p s = .next t) : Invariant t := by
  by_cases hp : s.ph = .dec ∨ s.ph = .rHdr ∨ s.ph = .rPay
  · rw [receive_unescapes hp, unescape] at hs
    split at hs
    · unfold unescapePair at hs
      split at hs
      · exact invariant_deliver (invariant_escp h hp false) _ rfl hs
      · obtain rfl := Host.Outcome.next.inj hs
        exact invariant_complete (invariant_escp h hp false) _
    · next he =>
      split at hs
      · obtain rfl := Host.Outcome.next.inj hs
        exact invariant_escp h hp true
      · exact invariant_deliver h _ (by simpa using he) hs
  · unfold receive at hs
    split at hs
    · next hq =>
      obtain rfl := Host.Outcome.next.inj hs
      unfold firstByte
      split
      · have hw := h.recv_wait hq
        have hl := h.escp_legal
        have hne : s.escp = false := by
          cases he : s.escp
          · rfl
          · have := hl he; simp [State.escpLegal, hq] at this
        exact invariant_progress h .rHdr 0 s.escp s.rxcnt s.hdrb s.rxbuf (by simp [hq]) (by simp [hq, Phase.opcode])
          ⟨h.rxbuf_wf, h.rxbuf_below⟩ (by simp [hne]) (by simp) (by simp) (by simp) (fun _ => ⟨by simp, hw.2⟩)
          (by simp) (fun _ => ⟨rfl, rfl⟩)
      · exact invariant_complete h _
    all_goals first
      | (exfalso; apply hp; tauto)
      | (obtain rfl := Host.Outcome.next.inj hs
         first | exact h | exact invariant_rxq h _)

/-- The block's step keeps the invariant. -/
theorem invariant_blockStep {s t : State} (h : Invariant s) (hs : blockStep s = .next t) : Invariant t := by
  unfold blockStep at hs
  split at hs
  · obtain rfl := Host.Outcome.next.inj hs; exact h
  · next hp =>
    obtain rfl := Host.Outcome.next.inj hs
    apply invariant_txEscape h
    · intro hn l; simp [State.escpLegal, hp]; exact hn
    · simp [hp]
    · simp [hp]
    · intro l; exact invariant_of_idle h rfl rfl rfl h.cksum_byte rfl rfl rfl h.rxv_whole
  · obtain rfl := Host.Outcome.next.inj hs
    exact invariant_complete (invariant_txlog h _) _
  · next hp =>
    obtain rfl := Host.Outcome.next.inj hs
    have hne : s.escp = false := by
      cases he : s.escp
      · rfl
      · have := h.escp_legal he; simp [State.escpLegal, hp] at this
    exact invariant_progress (invariant_txlog h (s.txlog ++ [Config.delim])) .sHdr 0 s.escp s.rxcnt s.hdrb s.rxbuf
      (by simp [hp]) (by simp [hp, Phase.opcode]) ⟨h.rxbuf_wf, h.rxbuf_below⟩ (by simp [hne]) (by simp) (by simp)
      (by simp) (by simp) (by simp) (fun _ => ⟨rfl, rfl⟩)
  · next hp =>
    unfold hdrPut at hs
    split at hs
    · next h7 =>
      obtain rfl := Host.Outcome.next.inj hs
      apply invariant_txEscape h
      · intro hn l; simp [State.escpLegal, hp]; exact hn
      · simp [hp]
      · simp [hp]
      · intro l
        unfold hdrAdvance
        split
        · next hlt =>
          have := invariant_progress (invariant_txlog h l) .sHdr (s.idx+1) false s.rxcnt s.hdrb s.rxbuf (by simp [hp])
            (by simp [hp]) ⟨h.rxbuf_wf, h.rxbuf_below⟩ (by simp)
            (fun _ => by rw [BitVec.toNat_add]; simp; have : s.idx.toNat < 7 := hlt; omega) (by simp) (by simp)
            (by simp) (by simp) (fun _ => ⟨rfl, rfl⟩)
          rw [← hp] at this
          exact this
        · split
          · exact invariant_progress (invariant_txlog h l) .sClose 0 false s.rxcnt s.hdrb s.rxbuf (by simp [hp])
              (by simp [hp, Phase.opcode]) ⟨h.rxbuf_wf, h.rxbuf_below⟩ (by simp) (by simp) (by simp) (by simp) (by simp)
              (by simp) (fun _ => ⟨rfl, rfl⟩)
          · next h0 =>
            have hpos : 0 < s.txsize.toNat := by
              rcases Nat.eq_zero_or_pos s.txsize.toNat with h' | h'
              · exact absurd (BitVec.eq_of_toNat_eq h') h0
              · exact h'
            exact invariant_progress (invariant_txlog h l) .sPay 0 false s.rxcnt s.hdrb s.rxbuf (by simp [hp])
              (by simp [hp, Phase.opcode]) ⟨h.rxbuf_wf, h.rxbuf_below⟩ (by simp) (by simp) (fun _ => hpos) (by simp)
              (by simp) (by simp) (fun _ => ⟨rfl, rfl⟩)
    · cases hs
  · next hp =>
    unfold payPut at hs
    split at hs
    · next h7 =>
      obtain rfl := Host.Outcome.next.inj hs
      apply invariant_txEscape h
      · intro hn l; simp [State.escpLegal, hp]; exact hn
      · simp [hp]
      · simp [hp]
      · intro l
        unfold payAdvance
        split
        · next hlt =>
          have hlt' : s.idx.toNat + 1 < s.txsize.toNat := hlt
          have := invariant_progress (invariant_txlog h l) .sPay (s.idx+1) false s.rxcnt s.hdrb s.rxbuf (by simp [hp])
            (by simp [hp]) ⟨h.rxbuf_wf, h.rxbuf_below⟩ (by simp) (by simp)
            (fun _ => by have := s.txsize.isLt; rw [BitVec.toNat_add]; simp; omega) (by simp) (by simp) (by simp)
            (fun _ => ⟨rfl, rfl⟩)
          rw [← hp] at this
          exact this
        · exact invariant_progress (invariant_txlog h l) .sClose s.idx false s.rxcnt s.hdrb s.rxbuf (by simp [hp])
            (by simp [hp, Phase.opcode]) ⟨h.rxbuf_wf, h.rxbuf_below⟩ (by simp) (by simp) (by simp) (by simp) (by simp)
            (by simp) (fun _ => ⟨rfl, rfl⟩)
    · cases hs
  · obtain rfl := Host.Outcome.next.inj hs
    exact invariant_complete (invariant_txlog h _) _
  all_goals
    split at hs
    · obtain rfl := Host.Outcome.next.inj hs
      first | exact h | exact invariant_complete h _
    · exact invariant_receive (invariant_rxq h _) _ hs

end Sys2Proof.Machine
end

