-- ==== Sys2Proof/Laws/RecvRuns.lean ====
section
/-! SUPPORT. RECV's runs, several logical bytes at a time (`42_packet_rx.md` R165 to R167). -/

namespace Sys2Proof.Machine

/-- `decN` of one more byte. -/
theorem decN_succ {n : Nat} {q bytes r : List Byte} (h : decN (n + 1) q = some (bytes, r)) :
    ∃ b q' s, dec1 q = .ok b q' ∧ decN n q' = some (s, r) ∧ bytes = b :: s := by
  rw [decN] at h
  split at h
  · next b q' hd =>
    split at h
    · next s r' hn =>
      simp only [Option.some.injEq, Prod.mk.injEq] at h
      obtain ⟨rfl, rfl⟩ := h
      exact ⟨b, q', s, hd, hn, rfl⟩
    · cases h
  · cases h
  · cases h

/-- `decN` of a sum reads the first bytes, then the others. -/
theorem decN_add {m n : Nat} {q bytes r : List Byte} (h : decN (m + n) q = some (bytes, r)) :
    ∃ s q' t, decN m q = some (s, q') ∧ decN n q' = some (t, r) ∧ bytes = s ++ t := by
  induction m generalizing q bytes with
  | zero => rw [Nat.zero_add] at h; exact ⟨[], q, bytes, rfl, h, rfl⟩
  | succ m ih =>
    rw [show m + 1 + n = (m + n) + 1 by omega] at h
    obtain ⟨b, q₁, s, hd, hn, rfl⟩ := decN_succ h
    obtain ⟨s', q', t, h₁, h₂, rfl⟩ := ih hn
    exact ⟨b :: s', q', t, by simp [decN, hd, h₁], h₂, rfl⟩

/-- `dec1` consumes something. -/
theorem dec1_shorter {q q' : List Byte} {b : Byte} (h : dec1 q = .ok b q') : q'.length < q.length := by
  unfold dec1 at h
  repeat' split at h
  all_goals first
    | (obtain ⟨rfl, rfl⟩ := Dec.ok.inj h
       simp only [List.length_cons]
       omega)
    | cases h

/-- `decN` consumes no less than nothing, and answers as many bytes as asked. -/
theorem decN_shorter {n : Nat} {q bytes r : List Byte} (h : decN n q = some (bytes, r)) :
    r.length ≤ q.length ∧ bytes.length = n := by
  induction n generalizing q bytes with
  | zero => simp only [decN, Option.some.injEq, Prod.mk.injEq] at h; obtain ⟨rfl, rfl⟩ := h; simp
  | succ n ih =>
    obtain ⟨b, q', s, hd, hn, rfl⟩ := decN_succ h
    have := dec1_shorter hd
    have := ih hn
    simp; omega

/-- Header bytes `idx` to `idx + n - 1`, none of them the eighth, fill `HDRB` (R165). -/
theorem stepRun_header_prefix (n : Nat) {s : State} {bytes r : List Byte} (hin : s.inputs = []) (hp : s.ph = .rHdr)
    (he : s.escp = false) (hi : s.idx.toNat + n ≤ 7) (hd : decN n s.rxq = some (bytes, r)) :
    ∃ h : HdrBytes, stepRun (s.rxq.length - r.length) s =
        .next { s with hdrb := h, idx := s.idx + BitVec.ofNat 16 n, rxq := r } ∧
      ∀ i, i < 8 → h.get i =
        if s.idx.toNat ≤ i ∧ i < s.idx.toNat + n then bytes.getD (i - s.idx.toNat) 0 else s.hdrb.get i := by
  induction n generalizing s bytes with
  | zero =>
    simp only [decN, Option.some.injEq, Prod.mk.injEq] at hd
    obtain ⟨rfl, rfl⟩ := hd
    refine ⟨s.hdrb, by rw [Nat.sub_self, stepRun_zero]; simp, fun i _ => ?_⟩
    rw [if_neg (by omega)]
  | succ n ih =>
    obtain ⟨b, q, l, h1, h2, rfl⟩ := decN_succ hd
    obtain ⟨hlt, hrun⟩ := stepRun_logical hin (.inr (.inl hp)) he h1
    have hle := (decN_shorter h2).1
    have hdel : deliver b { s with rxq := q } =
        .next { s with rxq := q, hdrb := s.hdrb.set s.idx.toNat b, idx := s.idx + 1 } := by
      simp only [deliver, hp, deliverHeader]
      rw [if_pos (by omega)]
    have hidx : (s.idx + 1).toNat = s.idx.toNat + 1 := by rw [BitVec.toNat_add]; simp; omega
    obtain ⟨h, hr, hh⟩ := ih (s := { s with rxq := q, hdrb := s.hdrb.set s.idx.toNat b, idx := s.idx + 1 }) hin hp he
      (by simp only [hidx]; omega) h2
    refine ⟨h, ?_, fun i hi8 => ?_⟩
    · rw [show s.rxq.length - r.length = (s.rxq.length - q.length) + (q.length - r.length) by omega,
        stepRun_add (hrun.trans hdel)]
      rw [hr]
      simp [BitVec.add_assoc, BitVec.ofNat_add, BitVec.add_comm (1#16)]
    · rw [hh i hi8]
      simp only [hidx]
      by_cases hc : s.idx.toNat + 1 ≤ i ∧ i < s.idx.toNat + 1 + n
      · rw [if_pos hc, if_pos (by omega), show i - s.idx.toNat = (i - (s.idx.toNat + 1)) + 1 by omega]
        simp
      · rw [if_neg hc]
        by_cases hs : i = s.idx.toNat
        · subst hs
          rw [if_pos (by omega), HdrBytes.get_set_same _ (by omega)]
          simp
        · rw [if_neg (by omega), HdrBytes.get_set_other _ (by omega) (by omega) hs]

/-- Payload bytes `idx` to `idx + n - 1`, none of them the last, are stored (R167). -/
theorem stepRun_payload_prefix (n : Nat) {s : State} {bytes r : List Byte} (hin : s.inputs = []) (hp : s.ph = .rPay)
    (he : s.escp = false) (hc : s.rxcnt = s.idx) (hi : s.idx.toNat + n < s.hdrb.size.toNat)
    (hz : s.hdrb.size.toNat ≤ s.cfg.rxbufDepth) (hd : decN n s.rxq = some (bytes, r)) :
    ∃ m : Memory, stepRun (s.rxq.length - r.length) s =
        .next { s with rxbuf := m, rxcnt := s.idx + BitVec.ofNat 16 n, idx := s.idx + BitVec.ofNat 16 n, rxq := r } ∧
      ∀ i, m.lookup i =
        if s.idx.toNat ≤ i ∧ i < s.idx.toNat + n then some (bytes.getD (i - s.idx.toNat) 0) else s.rxbuf.lookup i :=
          by
  induction n generalizing s bytes with
  | zero =>
    simp only [decN, Option.some.injEq, Prod.mk.injEq] at hd
    obtain ⟨rfl, rfl⟩ := hd
    have hd0 : s = { s with rxcnt := s.idx + BitVec.ofNat 16 0, idx := s.idx + BitVec.ofNat 16 0 } := by
      rw [show s.idx + BitVec.ofNat 16 0 = s.idx from BitVec.add_zero _]
      exact congrArg (fun x => ({ s with rxcnt := x } : State)) hc
    refine ⟨s.rxbuf, by rw [Nat.sub_self, stepRun_zero]; exact congrArg Host.Outcome.next hd0, fun i => ?_⟩
    rw [if_neg (by omega)]
  | succ n ih =>
    obtain ⟨b, q, l, h1, h2, rfl⟩ := decN_succ hd
    obtain ⟨hlt, hrun⟩ := stepRun_logical hin (.inr (.inr hp)) he h1
    have hle := (decN_shorter h2).1
    have hdel : deliver b { s with rxq := q } =
        .next { s with rxq := q, rxbuf := s.rxbuf.store s.idx.toNat b, rxcnt := s.idx + 1, idx := s.idx + 1 } := by
      simp only [deliver, hp, deliverPayload]
      rw [if_pos (by omega), if_neg (by omega)]
      rfl
    have hidx : (s.idx + 1).toNat = s.idx.toNat + 1 := by
      have := s.hdrb.size.isLt
      rw [BitVec.toNat_add]; simp; omega
    obtain ⟨m, hr, hh⟩ := ih
      (s := { s with rxq := q, rxbuf := s.rxbuf.store s.idx.toNat b, rxcnt := s.idx + 1, idx := s.idx + 1 }) hin hp he
      rfl (by simp only [hidx]; omega) hz h2
    refine ⟨m, ?_, fun i => ?_⟩
    · rw [show s.rxq.length - r.length = (s.rxq.length - q.length) + (q.length - r.length) by omega,
        stepRun_add (hrun.trans hdel)]
      rw [hr]
      simp [BitVec.add_assoc, BitVec.ofNat_add, BitVec.add_comm (1#16)]
    · rw [hh i]
      simp only [hidx]
      by_cases hc : s.idx.toNat + 1 ≤ i ∧ i < s.idx.toNat + 1 + n
      · rw [if_pos hc, if_pos (by omega), show i - s.idx.toNat = (i - (s.idx.toNat + 1)) + 1 by omega]
        simp
      · rw [if_neg hc]
        by_cases hs : i = s.idx.toNat
        · subst hs
          rw [if_pos (by omega), Memory.lookup_store_same]
          simp
        · rw [if_neg (by omega), Memory.lookup_store_other _ _ hs]

end Sys2Proof.Machine
end

