-- ==== Sys2Proof/Laws/SendRuns.lean ====
section
/-! SUPPORT. SEND's runs, one logical byte and one part of the frame at a time (`41_packet_tx.md` R142 to R145). -/

namespace Sys2Proof.Machine

/-- The block puts one header byte and advances (R143). -/
theorem stepRun_header_byte {s : State} (hin : s.inputs = []) (hp : s.ph = .sHdr) (he : s.escp = false)
    (hi : s.idx.toNat ≤ 7) :
    stepRun (enc (s.txHeader.get s.idx.toNat)).length s =
      .next (hdrAdvance { s with txlog := s.txlog ++ enc (s.txHeader.get s.idx.toNat) }) := by
  apply stepRun_escaped he
  · rw [step_no_input hin]
    simp only [blockStep, hp, hdrPut, if_pos hi]
  · rw [step_no_input (s := { s with txlog := s.txlog ++ [Config.esc], escp := true }) hin]
    simp only [blockStep, hp, hdrPut, if_pos hi]
    rfl

/-- The block puts one payload byte and advances (R144). -/
theorem stepRun_payload_byte {s : State} (hin : s.inputs = []) (hp : s.ph = .sPay) (he : s.escp = false)
    (hi : s.idx.toNat < s.cfg.txbufDepth) :
    stepRun (enc (s.txByte s.idx.toNat)).length s =
      .next (payAdvance { s with txlog := s.txlog ++ enc (s.txByte s.idx.toNat) }) := by
  apply stepRun_escaped he
  · rw [step_no_input hin]
    simp only [blockStep, hp, payPut, if_pos hi]
  · rw [step_no_input (s := { s with txlog := s.txlog ++ [Config.esc], escp := true }) hin]
    simp only [blockStep, hp, payPut, if_pos hi]
    rfl

/-- From header byte `i` the block puts the rest of the header (R143). -/
theorem stepRun_header_rest (n : Nat) {s : State} (hin : s.inputs = []) (hp : s.ph = .sHdr) (he : s.escp = false)
    (hi : s.idx.toNat + n = 7) :
    stepRun (encs (s.txHeader.toList.drop s.idx.toNat)).length s =
      .next { s with txlog := s.txlog ++ encs (s.txHeader.toList.drop s.idx.toNat), ph := if s.txsize = 0 then .sClose else .sPay, idx := 0 } := by
  have hdrop : s.txHeader.toList.drop s.idx.toNat =
      s.txHeader.get s.idx.toNat :: s.txHeader.toList.drop (s.idx.toNat + 1) := by
    have hlen : s.idx.toNat < s.txHeader.toList.length := by simp [HdrBytes.toList]; omega
    rw [List.drop_eq_getElem_cons hlen]
    have := s.txHeader.toList_get (i := s.idx.toNat) (by omega)
    rw [List.getElem?_eq_getElem hlen, Option.some.injEq] at this
    rw [this]
  have h1 := stepRun_header_byte hin hp he (by omega)
  induction n generalizing s with
  | zero =>
    have h7 : s.idx.toNat = 7 := by omega
    have hend : s.txHeader.toList.drop (7 + 1) = [] := rfl
    rw [hdrop, encs_cons, h7, hend, encs_nil, List.append_nil]
    rw [h7] at h1
    rw [h1, hdrAdvance]
    simp only [h7, Nat.lt_irrefl, if_false]
    by_cases hz : s.txsize = 0
    · rw [if_pos hz, if_pos hz]
    · rw [if_neg hz, if_neg hz]
  | succ n ih =>
    rw [hdrAdvance, if_pos (show s.idx.toNat < 7 by omega)] at h1
    have hidx : (s.idx + 1).toNat = s.idx.toNat + 1 := by rw [BitVec.toNat_add]; simp; omega
    rw [hdrop, encs_cons, List.length_append]
    rw [stepRun_add h1]
    have hs : ({ s with txlog := s.txlog ++ enc (s.txHeader.get s.idx.toNat), idx := s.idx + 1 } : State).txHeader =
        s.txHeader := rfl
    have hdrop' : s.txHeader.toList.drop (s.idx.toNat + 1) =
        s.txHeader.get (s.idx.toNat + 1) :: s.txHeader.toList.drop (s.idx.toNat + 1 + 1) := by
      have hlen : s.idx.toNat + 1 < s.txHeader.toList.length := by simp [HdrBytes.toList]; omega
      rw [List.drop_eq_getElem_cons hlen]
      have := s.txHeader.toList_get (i := s.idx.toNat + 1) (by omega)
      rw [List.getElem?_eq_getElem hlen, Option.some.injEq] at this
      rw [this]
    have := ih (s := { s with txlog := s.txlog ++ enc (s.txHeader.get s.idx.toNat), idx := s.idx + 1 }) hin hp he
      (by simp only [hidx]; omega) (by simp only [hidx, hs]; exact hdrop')
      (stepRun_header_byte hin hp he (by simp only [hidx]; omega))
    simp only [hidx, hs] at this
    simpa [List.append_assoc] using this

/-- From payload byte `i` the block puts the rest of the payload (R144). -/
theorem stepRun_payload_rest (n : Nat) {s : State} (hin : s.inputs = []) (hp : s.ph = .sPay) (he : s.escp = false)
    (hi : s.idx.toNat + n + 1 = s.txsize.toNat) (hd : s.txsize.toNat ≤ s.cfg.txbufDepth) :
    stepRun (encs ((List.range' s.idx.toNat (n + 1)).map s.txByte)).length s =
      .next { s with txlog := s.txlog ++ encs ((List.range' s.idx.toNat (n + 1)).map s.txByte), ph := .sClose, idx :=
        s.txsize - 1 } := by
  have h1 := stepRun_payload_byte hin hp he (by omega)
  induction n generalizing s with
  | zero =>
    simp only [List.range'_succ, List.range'_zero, List.map_cons, List.map_nil, encs_cons, encs_nil, List.append_nil,
      Nat.zero_add]
    rw [h1, payAdvance, if_neg (by show ¬ s.idx.toNat + 1 < s.txsize.toNat; omega)]
    have : s.idx = s.txsize - 1 := by
      apply BitVec.eq_of_toNat_eq
      have := s.txsize.isLt
      rw [BitVec.toNat_sub]; simp; omega
    simp [this]
  | succ n ih =>
    rw [payAdvance, if_pos (show s.idx.toNat + 1 < s.txsize.toNat by omega)] at h1
    have hidx : (s.idx + 1).toNat = s.idx.toNat + 1 := by
      have := s.txsize.isLt
      rw [BitVec.toNat_add]; simp; omega
    rw [List.range'_succ, List.map_cons, encs_cons, List.length_append, stepRun_add h1]
    have hs : ({ s with txlog := s.txlog ++ enc (s.txByte s.idx.toNat), idx := s.idx + 1 } : State).txByte =
      s.txByte := rfl
    have := ih (s := { s with txlog := s.txlog ++ enc (s.txByte s.idx.toNat), idx := s.idx + 1 }) hin hp he
      (by simp only [hidx]; omega) hd (stepRun_payload_byte hin hp he (by simp only [hidx]; omega))
    simp only [hidx, hs] at this
    simpa [List.append_assoc] using this

/-- The opening delimiter (R143). -/
theorem step_opens {s : State} (hin : s.inputs = []) (hp : s.ph = .sOpen) :
    step s = .next { s with txlog := s.txlog ++ [Config.delim], ph := .sHdr, idx := 0 } := by
  rw [step_no_input hin]
  simp [blockStep, hp, openPut, serPut]

/-- The closing delimiter (R145). -/
theorem step_closes {s : State} (hin : s.inputs = []) (hp : s.ph = .sClose) :
    step s =
      .next { s with txlog := s.txlog ++ [Config.delim], err := .none, done := true, ph := .idle, escp := false } :=
        by
  rw [step_no_input hin]
  simp [blockStep, hp, closePut, serPut, complete]

end Sys2Proof.Machine
end

