-- ==== Sys2Proof/Tests/Slice0.lean ====
section
/-! SUPPORT. Tests, and for each statement that has hypotheses a state and operands that meet them. Expected values come
from `spec/95_test_vectors.md` (its vector numbers are named) and from the encoding tables of `spec/30_encoding.md`. -/

namespace Sys2Proof.Tests

open Sys2Proof Sys2Proof.Machine

/-! ## Small states -/

/-- What a next state holds; `none` for a stop. -/
def got {α : Type} (o : Host.Outcome State Fault Refusal) (f : State → α) : Option α :=
  match o with
  | .next s => some (f s)
  | .fault _ => none
  | .refused _ => none

/-- The state after reset. -/
def idle : State := State.reset

/-- An operation in progress in the phase `ph`, with the code that owns it. -/
def during (ph : Phase) : State := { idle with ph := ph, op := ph.opcode.getD 0 }

/-- RECV in `R_WAIT` from reset, with the largest capacity. -/
def waiting : State := { during .rWait with rxcap := 1040 }

/-- RECV at the eighth header byte of a `SYNC` response of two payload bytes, capacity `cap`. -/
def lastHeaderByte (cap : Half) : State :=
  { during .rHdr with idx := 7, hdrb := ⟨0x01, 0x08, 0x02, 0, 0, 0, 0, 0⟩, rxcap := cap }

/-- RECV at payload byte `i` of two. -/
def payload (i : Half) : State :=
  { during .rPay with idx := i, hdrb := ⟨0x01, 0x08, 0x02, 0, 0, 0, 0, 0⟩, rxcap := 4, rxcnt := i }

/-- After vector RX1: a valid response of two zero bytes. -/
def responded : State :=
  { idle with done := true, op := 0x5, rxv := true, hdrb := ⟨0x01, 0x08, 0x02, 0, 0, 0, 0, 0⟩, rxcnt := 2, rxbuf := [(0, 0), (1, 0)], rxcap := 4 }

/-- Two payload bytes to send. -/
def toSend : State := { idle with txcmd := 0x08, txsize := 2, txbuf := [(0, 0xC0), (1, 0xDB)] }

/-! ## Well-formed terms: each check refuses an ill-formed one -/

theorem test_wellFormed_lit_refuses_delim : (Instr.lit 0xC0).wellFormed = false := by decide
theorem test_wellFormed_lit_refuses_esc : (Instr.lit 0xDB).wellFormed = false := by decide
theorem test_wellFormed_escBad_refuses_escDelim : (Instr.escBad 0xDC).wellFormed = false := by decide
theorem test_wellFormed_escBad_refuses_escEsc : (Instr.escBad 0xDD).wellFormed = false := by decide
theorem test_wellFormed_neighbours :
    (Instr.lit 0xBF).wellFormed = true ∧ (Instr.lit 0xDC).wellFormed = true ∧ (Instr.escBad 0xDB).wellFormed = true ∧
      (Instr.escBad 0xC0).wellFormed = true := by decide

/-! ## Decoding: words written out from the tables R90, R96, R104, R216 -/

theorem test_decode_command_words :
    decodeTableWord 32 0b0000 = some .nop ∧ decodeTableWord 32 0b0001 = some .encb ∧
    decodeTableWord 32 0b0010 = some .decb ∧ decodeTableWord 32 0b0011 = some .txdelim ∧
    decodeTableWord 32 0b0100 = some .send ∧ decodeTableWord 32 0b0101 = some .recv ∧
    decodeTableWord 32 0b0110 = some .rspchk ∧ decodeTableWord 32 0b0111 = some .rxflush ∧
    decodeTableWord 32 0b1000 = some .ckinit ∧ decodeTableWord 32 0b1001 = some .ckupd ∧
    decodeTableWord 32 0b1010 = some .ckchk ∧ decodeTableWord 32 0b1011 = some .reservedB ∧
    decodeTableWord 32 0b1100 = some .reservedC ∧ decodeTableWord 32 0b1101 = some .reservedD ∧
    decodeTableWord 32 0b1110 = some .reservedE ∧ decodeTableWord 32 0b1111 = some .reservedF := by decide

/-- HP4: bits 31:4 are ignored. -/
theorem test_decode_ignores_high_bits : decodeTableWord 32 0xFFFFFFF8 = some .ckinit := by decide

theorem test_decode_symbols :
    decodeTableWord 8 0b01000001 = some (.lit 0x41) ∧ decodeTableWord 8 0b11000000 = some .wireEnd ∧
    decodeTableWord 16 0b1101101111011100 = some .escEnd ∧ decodeTableWord 16 0b1101101111011101 = some .escEsc ∧
    decodeTableWord 16 0b1101101100000000 = some (.escBad 0x00) ∧
    decodeTableWord 16 0b1101101111011110 = some (.escBad 0xDE) := by decide

/-- Refused by name (R91). -/
theorem test_decode_refusals :
    decode Config.default (.wire []) = .error .noBytes ∧ decode Config.default (.wire [0xDB]) = .error .truncatedSymbol ∧
    decode Config.default (.wire [0x41, 0xDC]) = .error .trailingBytes ∧
    decode Config.default (.hdr [1, 2, 3]) = .error .headerLength ∧
    decode Config.default (.code 0x0B) = .error .notACommandCode := by decide

/-- The header of TX3: `direction` 1, `command` `0xDB`, `size` 2, `value` `0xC0DBC0DB`, byte 0 in bits 7:0. -/
theorem test_decode_header : decodeTableWord 64 0xC0DBC0DB0002DB01 = some (.header 0x01 0xDB 0x0002 0xC0DBC0DB) := by
  decide

theorem test_decode_command_codes :
    decodeTableWord 8 0x02 = some .ccFlashBegin ∧ decodeTableWord 8 0x03 = some .ccFlashData ∧
    decodeTableWord 8 0x04 = some .ccFlashEnd ∧ decodeTableWord 8 0x05 = some .ccMemBegin ∧
    decodeTableWord 8 0x06 = some .ccMemEnd ∧ decodeTableWord 8 0x07 = some .ccMemData ∧
    decodeTableWord 8 0x08 = some .ccSync ∧ decodeTableWord 8 0x09 = some .ccWriteReg ∧
    decodeTableWord 8 0x0A = some .ccReadReg := by decide

/-! ## The placed word is what the next step runs -/

/-- A header of size 0, the shape of RX4: RECV is complete. -/
theorem test_place_header : got (step (State.reset.withFetchWord 64 0x0000000000000801))
    (fun s => (s.hdrb, s.rxv, s.ph, s.rxq)) = some (⟨1, 8, 0, 0, 0, 0, 0, 0⟩, true, .idle, []) := by decide
theorem test_place_command : got (step (State.reset.withFetchWord 32 0x4)) (fun s => (s.op, s.ph)) = some (0x4, .sOpen) := by
  decide
theorem test_place_pair : got (step (State.reset.withFetchWord 16 0xDBDD)) (fun s => (s.data, s.done)) =
    some (0x000000DB, true) := by decide
theorem test_place_bad_pair : got (step (State.reset.withFetchWord 16 0xDB00)) (fun s => (s.err, s.data)) =
    some (.framing, 0) := by decide
theorem test_place_literal : got (step (State.reset.withFetchWord 8 0x41)) (fun s => (s.data, s.rxq)) =
    some (0x00000041, []) := by decide
theorem test_place_code : got (step (State.reset.withFetchWord 8 0x08)) (fun s => (s.txcmd, s.inputs)) =
    some (0x08, []) := by decide

/-! ## Commands, one step each -/

/-- HP2. -/
theorem test_nop : got (exec .nop idle) State.status = some 0x002 := by decide
/-- HP5: the next acceptance clears `ERR`. -/
theorem test_nop_clears_err : got (exec .nop { idle with done := true, err := .badcmd, op := 0xB }) State.status =
    some 0x002 := by decide
/-- EN4, first step of two: the escape byte. -/
theorem test_encb_first_byte :
    got (step { during .enc with data := 0xFFFFFFC0 }) (fun s => (s.txlog, s.escp, s.ph)) = some ([0xDB], true, .enc) := by
  decide
/-- EN11. -/
theorem test_encb_on_faulted_channel :
    got (exec .encb { idle with data := 0xC0, chf := true }) (fun s => (s.status, s.txlog)) = some (0x216, []) := by decide
/-- DE11: the escape byte is taken and DECB goes on. -/
theorem test_decb_takes_escape :
    got (step { during .dec with rxq := [0xDB] }) (fun s => (s.status, s.escp, s.rxq)) = some (0x001, true, []) := by decide
theorem test_decb_starts : got (exec .decb idle) (fun s => (s.status, s.ph, s.op)) = some (0x001, .dec, 0x2) := by decide
/-- EN14. -/
theorem test_txdelim_puts : got (step (during .dlm)) (fun s => (s.txlog, s.status)) = some ([0xC0], 0x002) := by decide
/-- TX9. -/
theorem test_send_too_large : got (exec .send { idle with txsize := 1041 }) State.status = some 0x01A := by decide
/-- TX10. -/
theorem test_send_boundary : got (exec .send { idle with txsize := 1040 }) (fun s => (s.status, s.ph)) =
    some (0x001, .sOpen) := by decide
/-- RX16: refused, `TMR` and `RXV` unchanged. -/
theorem test_recv_too_large :
    got (exec .recv { responded with rxcap := 1041, tmr := 7 }) (fun s => (s.err, s.tmr, s.rxv, s.rxcnt)) =
      some (.badcmd, 7, true, 2) := by decide
theorem test_recv_starts :
    got (exec .recv { responded with tmr := 7 }) (fun s => (s.ph, s.tmr, s.rxv, s.rxcnt)) = some (.rWait, 0, false, 0) := by
  decide
/-- RS8: only `DATA[7:0]` is compared. -/
theorem test_rspchk_accepts : got (exec .rspchk { responded with data := 0xFFFFFF08 }) (fun s => (s.rspok, s.err)) =
    some (true, .none) := by decide
/-- RS10: the direction must be exactly 1. -/
theorem test_rspchk_direction :
    got (exec .rspchk { responded with data := 0x08, hdrb := ⟨0x02, 0x08, 0x02, 0, 0, 0, 0, 0⟩ })
      (fun s => (s.rspok, s.err)) = some (false, .proto) := by decide
/-- HP14. -/
theorem test_rxflush_ends : got (step (during .flush)) State.status = some 0x002 := by decide
/-- HP13: one byte a step, discarded undecoded. -/
theorem test_rxflush_takes : got (step { during .flush with rxq := [0xDB, 0x55] }) (fun s => (s.rxq, s.escp, s.ph)) =
    some ([0x55], false, .flush) := by decide
/-- HP4. -/
theorem test_ckinit : got (exec .ckinit { idle with cksum := 5 }) (fun s => (s.cksum, s.status)) =
    some (0x000000EF, 0x002) := by decide
/-- CK12. -/
theorem test_ckupd_low_byte : got (exec .ckupd { idle with data := 0x12345680 }) (·.cksum) = some 0x0000006F := by decide
/-- CK6, one byte of it: `2F ^ DB = F4`. -/
theorem test_ckupd_folds : got (exec .ckupd { idle with cksum := 0x2F, data := 0xDB }) (·.cksum) = some 0x000000F4 := by
  decide
theorem test_ckchk_match : got (exec .ckchk { idle with cksum := 0x1A, data := 0x1A }) (fun s => (s.ckok, s.err)) =
    some (true, .none) := by decide
/-- After CK6: all 32 bits are compared, and a mismatch is no error. -/
theorem test_ckchk_all_bits :
    got (exec .ckchk { idle with cksum := 0x1A, data := 0x0100001A, ckok := true }) (fun s => (s.ckok, s.err)) =
      some (false, .none) := by decide
/-- HP3. -/
theorem test_reserved_codes :
    got (exec .reservedB idle) (fun s => (s.status, s.op)) = some (0x01A, 0xB) ∧
    got (exec .reservedC idle) (fun s => (s.status, s.op)) = some (0x01A, 0xC) ∧
    got (exec .reservedD idle) (fun s => (s.status, s.op)) = some (0x01A, 0xD) ∧
    got (exec .reservedE idle) (fun s => (s.status, s.op)) = some (0x01A, 0xE) ∧
    got (exec .reservedF idle) (fun s => (s.status, s.op)) = some (0x01A, 0xF) := by decide
/-- HP11: dropped while busy. -/
theorem test_command_while_busy : got (exec .nop waiting) (fun s => (s.status, s.ph)) = some (0x101, .rWait) := by decide

/-! ## Wire symbols, the header, the command codes -/

/-- DE1. -/
theorem test_lit_decb : got (exec (.lit 0x41) { during .dec with data := 0x12345678 }) (fun s => (s.data, s.status)) =
    some (0x00000041, 0x002) := by decide
/-- RX2: a first byte that is no delimiter. -/
theorem test_lit_first_byte : got (exec (.lit 0x55) waiting) (fun s => (s.err, s.ph, s.rxcnt)) =
    some (.framing, .idle, 0) := by decide
/-- DE2. -/
theorem test_end_is_data : got (exec .wireEnd (during .dec)) (·.data) = some 0x000000C0 := by decide
theorem test_end_opens : got (exec .wireEnd waiting) (fun s => (s.ph, s.idx)) = some (.rHdr, 0) := by decide
/-- DE4. -/
theorem test_escEnd_decb : got (exec .escEnd (during .dec)) (·.data) = some 0x000000C0 := by decide
/-- RX14: the second byte of the pair stays in `RXQ`. -/
theorem test_escEnd_first_byte : got (exec .escEnd waiting) (fun s => (s.err, s.rxq)) = some (.framing, [0xDC]) := by decide
/-- DE5. -/
theorem test_escEsc_decb : got (exec .escEsc (during .dec)) (·.data) = some 0x000000DB := by decide
/-- RX5, its last payload byte. -/
theorem test_escEsc_payload : got (exec .escEsc (payload 1)) (fun s => (s.rxbuf, s.rxcnt, s.rxv, s.ph)) =
    some ([(1, 0xDB)], 2, true, .idle) := by decide
/-- DE6. -/
theorem test_escBad_decb : got (exec (.escBad 0x00) { during .dec with data := 0x12345678 }) (fun s => (s.err, s.data)) =
    some (.framing, 0x12345678) := by decide
/-- RX6: the count of the bytes before the bad pair stays. -/
theorem test_escBad_payload : got (exec (.escBad 0x22) (payload 1)) (fun s => (s.err, s.rxcnt, s.rxv)) =
    some (.framing, 1, false) := by decide
/-- RX3: the oversized response. -/
theorem test_header_too_large :
    got (exec (.header 0x01 0x08 0x0040 0) { during .rHdr with rxcap := 4 })
      (fun s => (s.err, s.hdrb.size, s.rxcnt, s.rxv)) = some (.bufsmall, 64, 0, false) := by decide
/-- RX12: `size == cap` passes. -/
theorem test_header_fits :
    got (exec (.header 0x01 0x08 0x0002 0) { during .rHdr with rxcap := 2 }) (fun s => (s.ph, s.idx)) =
      some (.rPay, 0) := by decide
theorem test_command_codes_load :
    got (exec .ccFlashBegin idle) (·.txcmd) = some 0x02 ∧ got (exec .ccFlashData idle) (·.txcmd) = some 0x03 ∧
    got (exec .ccFlashEnd idle) (·.txcmd) = some 0x04 ∧ got (exec .ccMemBegin idle) (·.txcmd) = some 0x05 ∧
    got (exec .ccMemEnd idle) (·.txcmd) = some 0x06 ∧ got (exec .ccMemData idle) (·.txcmd) = some 0x07 ∧
    got (exec .ccSync idle) (·.txcmd) = some 0x08 ∧ got (exec .ccWriteReg idle) (·.txcmd) = some 0x09 ∧
    got (exec .ccReadReg idle) (·.txcmd) = some 0x0A := by decide
/-- P7: dropped while busy. -/
theorem test_command_code_while_busy : got (exec .ccSync (during .sOpen)) (fun s => (s.txcmd, s.ovr)) =
    some (0, true) := by decide

/-! ## The codec, the checksum, the planner -/

/-- TX3's frame, and its inverse RX5. -/
theorem test_frame_TX3 :
    frame (HdrBytes.ofFields 0x01 0xDB 0x0002 0xC0DBC0DB) [0xC0, 0xDB] =
      [0xC0, 0x01, 0xDB, 0xDD, 0x02, 0x00, 0xDB, 0xDD, 0xDB, 0xDC, 0xDB, 0xDD, 0xDB, 0xDC, 0xDB, 0xDC, 0xDB, 0xDD,
        0xC0] := by decide
/-- EN12, DE10. -/
theorem test_codec_EN12 :
    encs [0xC0, 0xDB, 0xDC, 0xDD] = [0xDB, 0xDC, 0xDB, 0xDD, 0xDC, 0xDD] ∧
    decN 4 [0xDB, 0xDC, 0xDB, 0xDD, 0xDC, 0xDD] = some ([0xC0, 0xDB, 0xDC, 0xDD], []) := by decide
/-- DE7, DE11, DE12. -/
theorem test_dec1 :
    dec1 [0xDB, 0xDB, 0xDC] = .err [0xDC] ∧ dec1 [0xDB] = .more ∧ dec1 [] = .more := by decide
/-- CK1, CK6, CK9. -/
theorem test_checksum :
    checksum [] = 0xEF ∧ checksum [0xC0, 0xDB, 0x01, 0xEF] = 0x1A ∧ checksum [0x07, 0x07, 0x12, 0x20] = 0xDD := by decide
/-- PL1, PL3, PL5, PL9. -/
theorem test_eraseSize :
    Session.eraseSize 0 2500 = 1 ∧ Session.eraseSize 0x1000 131072 = 69632 ∧ Session.eraseSize 0xF000 8192 = 4096 ∧
    Session.eraseSize 0 126977 = 65536 := by decide

/-! ## Events and the host port -/

/-- RX8: the tick before the last, and the last. -/
theorem test_tick_counts : got (step { waiting with tmr := 19998, inputs := [.tick] }) (fun s => (s.tmr, s.status)) =
    some (19999, 0x001) := by decide
theorem test_tick_times_out : got (step { waiting with tmr := 19999, inputs := [.tick] }) (fun s => (s.tmr, s.status)) =
    some (20000, 0x00A) := by decide
/-- RX9: no tick counts once a byte has come. -/
theorem test_tick_after_header : got (step { during .rHdr with tmr := 19999, inputs := [.tick] }) (fun s => (s.tmr, s.ph)) =
    some (19999, .rHdr) := by decide
/-- P7: a fault in the middle of a frame. -/
theorem test_chanFault : got (step { during .sHdr with ovr := true, inputs := [.chanFault] }) State.status =
    some 0x316 := by decide
/-- P7: reset clears the block and leaves `TXLOG`. -/
theorem test_reset :
    got (step { during .sHdr with ovr := true, chf := true, txlog := [0xC0], inputs := [.reset] })
      (fun s => (s.status, s.ph, s.txlog)) = some (0x000, .idle, [0xC0]) := by decide
/-- HP12. -/
theorem test_arrive : got (step { idle with inputs := [.arrive 0x41] }) State.status = some 0x400 := by decide
/-- HP6. -/
theorem test_read_unmapped :
    got (step { idle with inputs := [.hostRead 0x3FFFF] }) (·.hostLog) = some [0] ∧
    got (step { idle with inputs := [.hostRead 0x10410] }) (·.hostLog) = some [0] := by decide
/-- The views of RX5's header. -/
theorem test_read_header :
    hostRead { idle with hdrb := ⟨0x01, 0xDB, 0x02, 0x00, 0xDB, 0xC0, 0xDB, 0xC0⟩ } 0x0B = 0xC0DBC0DB := by decide
/-- HP8, HP9. -/
theorem test_write_truncates :
    got (step { idle with inputs := [.hostWrite 0x05 0x12345] }) (·.txsize) = some 0x2345 ∧
    got (step { idle with inputs := [.hostWrite 0x10005 0x1AB] }) (·.txbuf) = some [(5, 0xAB)] := by decide
/-- HP7. -/
theorem test_write_read_only :
    got (step { idle with inputs := [.hostWrite 0x20000 0xAA] }) (fun s => (s.rxbuf, s.ovr)) = some ([], false) ∧
    got (step { idle with inputs := [.hostWrite 0x0C 5] }) (fun s => (s.rxcnt, s.ovr)) = some (0, false) := by decide
/-- HP10. -/
theorem test_write_while_busy :
    got (step { waiting with inputs := [.hostWrite 0x02 7] }) (fun s => (s.data, s.status)) = some (0, 0x101) := by decide

/-! ## Witnesses: for each statement with hypotheses, values that meet them all -/

theorem witness_StepRunsTheDecodedInstruction :
    (let s : State := { idle with inputs := [.hostWrite 0x00 0xFFFFFFF4] }
     s.inputs = .hostWrite 0x00 0xFFFFFFF4 :: [] ∧ decode s.cfg (.cmd 0xFFFFFFF4) = .ok .send) ∧
    (let s : State := { idle with inputs := [.hostWrite 0x04 0x108] }
     s.inputs = .hostWrite 0x04 0x108 :: [] ∧ decode s.cfg (.code ((0x108 : Word).setWidth 8)) = .ok .ccSync) ∧
    (let s : State := { waiting with rxq := [0xC0, 0x01] }
     s.turn = some s ∧ s.ph = .rWait ∧ s.rxq = 0xC0 :: [0x01] ∧ decode s.cfg (.wire [0xC0]) = .ok .wireEnd) ∧
    (let s : State := { payload 1 with escp := true, rxq := [0xDC] }
     s.turn = some s ∧ (s.ph = .dec ∨ s.ph = .rHdr ∨ s.ph = .rPay) ∧ s.rxq = 0xDC :: [] ∧
       decode s.cfg (.wire (if s.escp then [Config.esc, 0xDC] else [0xDC])) = .ok .escEnd ∧
       (s.ph = .rHdr → s.idx = 7 → logicalByte .escEnd = none)) ∧
    (let s : State := { lastHeaderByte 4 with rxq := [0x00] }
     s.turn = some s ∧ s.ph = .rHdr ∧ s.idx = 7 ∧ s.rxq = 0x00 :: [] ∧
       decode s.cfg (.wire (if s.escp then [Config.esc, 0x00] else [0x00])) = .ok (.lit 0x00) ∧
       logicalByte (.lit 0x00) = some 0x00 ∧
       decode s.cfg (.hdr (s.hdrb.set 7 0x00).toList) = .ok (.header 0x01 0x08 0x0002 0)) := by decide

/-- A bad pair at the eighth header byte completes no header: the fourth clause's last hypothesis, met otherwise. -/
theorem witness_StepRunsTheDecodedInstruction_bad_pair :
    let s : State := { lastHeaderByte 4 with escp := true, rxq := [0x00] }
    s.turn = some s ∧ s.ph = .rHdr ∧ s.idx = 7 ∧
      decode s.cfg (.wire (if s.escp then [Config.esc, 0x00] else [0x00])) = .ok (.escBad 0x00) ∧
      logicalByte (.escBad 0x00) = none := by decide

theorem witness_DecodeUndoesEncode :
    Config.default.wf = true ∧ (Instr.lit 0xFF).wellFormed = true ∧ (Instr.escBad 0xDB).wellFormed = true ∧
      (Instr.header 0xFF 0xFF 0xFFFF 0xFFFFFFFF).wellFormed = true := by decide

theorem witness_DecodedWordsReencode :
    decode Config.default (.cmd 0xFFFFFFFF) = .ok .reservedF ∧ decode Config.default (.wire [0xDB, 0xFF]) = .ok (.escBad 0xFF) ∧
      decode Config.default (.hdr [0, 0, 0, 0, 0, 0, 0, 0xFF]) = .ok (.header 0 0 0 0xFF000000) ∧
      decode Config.default (.code 0x02) = .ok .ccFlashBegin := by decide

theorem witness_EncodingIsCompleteShortInjective : encs [0x00, 0xC0] = [0x00] ++ Config.esc :: [0xDC] := by decide

theorem witness_FrameLength :
    encs ((HdrBytes.mk 0xDB 0 0 0 0 0 0 0).toList ++ []) = [] ++ Config.esc :: [0xDD, 0, 0, 0, 0, 0, 0, 0] := by decide

theorem witness_ChecksumLaws : ([0x01, 0x02] : List Byte).Perm [0x02, 0x01] ∧ (0x00 : Byte) ≠ 0xFF := by decide

/-- NopResult, ReservedCodesComplete, ChecksumInit, ChecksumUpdate, and the first clause of ChecksumCheck. -/
theorem witness_idle : idle.busy = false ∧ responded.busy = false := by decide

theorem witness_ChecksumCheck :
    idle.busy = false ∧ ({ idle with cksum := 0xFF, data := 0x100 } : State).cksum.toNat < 256 ∧
      256 ≤ ({ idle with cksum := 0xFF, data := 0x100 } : State).data.toNat := by decide

theorem witness_CommandsWhileBusyAreDropped : waiting.busy = true ∧ (during .sClose).busy = true := by decide

theorem witness_ByteOperationsStart : idle.busy = false ∧ idle.chf = false := by decide

theorem witness_SendStart :
    ({ idle with chf := true } : State).busy = false ∧ ({ idle with chf := true } : State).chf = true ∧
    (let s : State := { idle with txsize := 1041 }
     s.busy = false ∧ s.chf = false ∧ s.cfg.txbufDepth < s.txsize.toNat) ∧
    (let s : State := { idle with txsize := 1040 }
     s.busy = false ∧ s.chf = false ∧ s.txsize.toNat ≤ s.cfg.txbufDepth) ∧
    ({ idle with cfg := { Config.default with txbufDepth := 65535 }, txsize := 65535 } : State).cfg.txbufDepth = 65535 := by
  decide

theorem witness_RecvStart :
    ({ idle with chf := true } : State).busy = false ∧ ({ idle with chf := true } : State).chf = true ∧
    (let s : State := { idle with rxcap := 1041 }
     s.busy = false ∧ s.chf = false ∧ s.cfg.rxbufDepth < s.rxcap.toNat) ∧
    (let s : State := { idle with rxcap := 1040 }
     s.busy = false ∧ s.chf = false ∧ s.rxcap.toNat ≤ s.cfg.rxbufDepth) := by decide

theorem witness_ResponseCheck :
    (let s : State := { responded with data := 0x08 }
     s.busy = false ∧ (s.rxv = true ∧ s.hdrb.direction = 1 ∧ s.hdrb.command = s.data.extractLsb' 0 8 ∧
       1 ≤ s.hdrb.size.toNat ∧ s.rxByte 0 = 0)) ∧
    (let s : State := { responded with data := 0x08, rxbuf := [(0, 1)] }
     s.busy = false ∧ ¬ (s.rxv = true ∧ s.hdrb.direction = 1 ∧ s.hdrb.command = s.data.extractLsb' 0 8 ∧
       1 ≤ s.hdrb.size.toNat ∧ s.rxByte 0 = 0)) := by decide

theorem witness_CommandCodesLoadTxcmd :
    idle.busy = false ∧ waiting.busy = true ∧ Instr.ccReadReg ∈ [Instr.ccFlashBegin, .ccFlashData, .ccFlashEnd,
      .ccMemBegin, .ccMemEnd, .ccMemData, .ccSync, .ccWriteReg, .ccReadReg] := by decide

theorem witness_SymbolsDeliverTheirByte :
    ((Instr.lit 0xDC).wellFormed = true ∧ logicalByte (.lit 0xDC) = some 0xDC ∧
      encode idle.cfg (.lit 0xDC) = .wire [0xDC]) ∧
    (Instr.escEsc.wellFormed = true ∧ logicalByte .escEsc = some 0xDB ∧ encode idle.cfg .escEsc = .wire [0xDB, 0xDD]) ∧
    (Instr.escEnd.wellFormed = true ∧ logicalByte .escEnd = some 0xC0 ∧ encode idle.cfg .escEnd = .wire [0xDB, 0xDC]) ∧
    (Instr.wireEnd.wellFormed = true ∧ logicalByte .wireEnd = some 0xC0 ∧ encode idle.cfg .wireEnd = .wire [0xC0]) ∧
    ((during .dec).escp = false ∧ (during .dec).ph = .dec) ∧
    (waiting.escp = false ∧ waiting.ph = .rWait ∧ Instr.escEnd ≠ .wireEnd) ∧
    ((during .rHdr).escp = false ∧ (during .rHdr).ph = .rHdr ∧ (during .rHdr).idx.toNat < 7) ∧
    ((lastHeaderByte 4).escp = false ∧ (lastHeaderByte 4).ph = .rHdr ∧ (lastHeaderByte 4).idx = 7) ∧
    ((payload 0).escp = false ∧ (payload 0).ph = .rPay ∧ (payload 0).idx.toNat < (payload 0).cfg.rxbufDepth ∧
      (payload 0).idx.toNat + 1 ≠ (payload 0).hdrb.size.toNat) ∧
    ((payload 1).escp = false ∧ (payload 1).ph = .rPay ∧ (payload 1).idx.toNat < (payload 1).cfg.rxbufDepth ∧
      (payload 1).idx.toNat + 1 = (payload 1).hdrb.size.toNat) ∧
    ((during .flush).escp = false ∧ (during .flush).ph = .flush) ∧
    ((during .sPay).escp = false ∧ (during .sPay).ph.transmits = true ∧ idle.escp = false ∧ idle.ph = .idle) ∧
    (let s (ph : Phase) : State := { during ph with escp := true }
     ((s .dec).escp = true → Instr.escEnd = .escEnd ∨ Instr.escEnd = .escEsc) ∧ (s .dec).ph = .dec ∧
       (s .rHdr).ph = .rHdr ∧ (s .rHdr).idx.toNat < 7) ∧
    (let s : State := { during .rHdr with idx := 8 }
     s.escp = false ∧ s.ph = .rHdr ∧ 7 < s.idx.toNat) ∧
    (let s : State := { during .rPay with idx := 1040 }
     s.escp = false ∧ s.ph = .rPay ∧ s.cfg.rxbufDepth ≤ s.idx.toNat) := by decide

theorem witness_BadEscapeIsFraming :
    (Instr.escBad 0xDB).wellFormed = true ∧ (payload 1).ph = .rPay ∧ (during .dec).ph = .dec ∧
      (lastHeaderByte 4).ph = .rHdr ∧ waiting.ph = .rWait ∧ (during .flush).ph = .flush ∧
      (during .enc).ph.transmits = true := by decide

theorem witness_HeaderChecksCapacity :
    ((lastHeaderByte 1).ph = .rHdr ∧ (lastHeaderByte 1).rxcap.toNat < (2 : Half).toNat) ∧
    ((lastHeaderByte 0).ph = .rHdr ∧ (0 : Half) = 0) ∧
    ((lastHeaderByte 2).ph = .rHdr ∧ (2 : Half) ≠ 0 ∧ (2 : Half).toNat ≤ (lastHeaderByte 2).rxcap.toNat) ∧
    waiting.ph ≠ .rHdr := by decide

/-- The two single turns: the escape byte at the last header byte, then its second byte. -/
theorem witness_PairRunsByteByByte_turns :
    (let s : State := { lastHeaderByte 4 with rxq := [0xDB] }
     s.turn = some s ∧ s.ph = .rHdr ∧ s.escp = false ∧ s.rxq = Config.esc :: []) ∧
    (let s : State := { lastHeaderByte 4 with escp := true, rxq := [0xDD] }
     s.turn = some s ∧ s.ph = .rHdr ∧ s.escp = true ∧ s.rxq = 0xDD :: [] ∧
       decode s.cfg (.wire [Config.esc, 0xDD]) = .ok .escEsc) := by decide

theorem witness_PairRunsByteByByte :
    let s : State := { payload 1 with rxq := [0xDB, 0x22, 0x33] }
    s.inputs = [] ∧ (s.ph = .dec ∨ s.ph = .rHdr ∨ s.ph = .rPay) ∧ s.escp = false ∧
      s.rxq = Config.esc :: 0x22 :: [0x33] ∧ decode s.cfg (.wire [Config.esc, 0x22]) = .ok (.escBad 0x22) := by decide

theorem witness_HeaderRunsByteByByte :
    let h : HdrBytes := ⟨0x01, 0xDB, 0x02, 0, 0, 0, 0, 0xC0⟩
    let s : State := { during .rHdr with rxcap := 4, rxq := [0x01, 0xDB, 0xDD, 0x02, 0, 0, 0, 0, 0xDB, 0xDC, 0x11] }
    s.inputs = [] ∧ s.ph = .rHdr ∧ s.escp = false ∧ s.idx = 0 ∧ s.rxq = encs h.toList ++ [0x11] := by decide

theorem witness_ByteTransmitRuns :
    let s (v : Word) : State := { idle with data := 0xC0, inputs := [.hostWrite 0x00 v] }
    ((s 1).busy = false ∧ (s 1).chf = false ∧ (s 1).inputs = [.hostWrite 0x00 1] ∧ opField 1 = 0x1) ∧
    ((s 0xF3).busy = false ∧ (s 0xF3).chf = false ∧ (s 0xF3).inputs = [.hostWrite 0x00 0xF3] ∧ opField 0xF3 = 0x3) := by
  decide

theorem witness_DecbRun :
    let s (q : List Byte) : State := { idle with rxq := q, inputs := [.hostWrite 0x00 2] }
    (s []).busy = false ∧ (s []).chf = false ∧ (s []).inputs = [.hostWrite 0x00 2] ∧ opField 2 = 0x2 ∧
      dec1 (s [0xDB, 0xDD, 0x41]).rxq = .ok 0xDB [0x41] ∧ dec1 (s [0xDB, 0xC0, 0x01]).rxq = .err [0x01] ∧
      dec1 (s [0xDB]).rxq = .more ∧ dec1 (s []).rxq = .more := by decide

theorem witness_FlushRun :
    let s : State := { idle with rxq := [0xC0, 0x55, 0xDB], inputs := [.hostWrite 0x00 7] }
    s.busy = false ∧ s.chf = false ∧ s.inputs = [.hostWrite 0x00 7] ∧ opField 7 = 0x7 ∧
      (let t : State := { during .flush with rxq := [0xDB] }
       t.turn = some t ∧ t.ph = .flush ∧ t.rxq = 0xDB :: []) ∧
      (during .flush).turn = some (during .flush) ∧ (during .flush).rxq = [] := by decide

/-- SEND of an empty packet with a delimiter in its header meets the invariant in each of its phases' corners; the last
state is SEND at payload byte 1 of 2, its escape byte put. -/
theorem witness_TransmitTurn :
    Invariant (during .dlm) ∧ Invariant (during .sOpen) ∧ Invariant (during .sClose) ∧
    Invariant { during .enc with data := 0xC0 } ∧ Invariant { during .sHdr with idx := 7 } ∧
    Invariant { during .sHdr with idx := 6, txsize := 2 } ∧
    Invariant { during .sPay with idx := 1, txsize := 2, escp := true, txbuf := [(0, 0x11), (1, 0xDB)] } := by
  refine ⟨?_, ?_, ?_, ?_, ?_, ?_, ?_⟩ <;> constructor <;> decide

theorem witness_TransmitTurn_bytes :
    (let s : State := { during .enc with data := 0xC0 }
     s.turn = some s ∧ s.escp = false ∧ s.data.extractLsb' 0 8 = (0xC0 : Byte)) ∧
    (let s : State := { during .sHdr with idx := 7 }
     s.turn = some s ∧ s.escp = false ∧ s.txHeader.toList[s.idx.toNat]? = some 0x00 ∧ s.idx = 7 ∧ s.txsize = 0) ∧
    (let s : State := { during .sHdr with idx := 6, txsize := 2 }
     s.turn = some s ∧ s.idx.toNat < 7 ∧ ({ s with idx := 7 } : State).txsize ≠ 0) ∧
    (let s : State := { during .sPay with idx := 1, txsize := 2, escp := true, txbuf := [(0, 0x11), (1, 0xDB)] }
     s.turn = some s ∧ s.txByte s.idx.toNat = 0xDB ∧ s.idx.toNat + 1 = s.txsize.toNat ∧
       ({ s with idx := 0 } : State).idx.toNat + 1 < s.txsize.toNat) := by decide

/-- DECB of a pair whose second byte arrives later, with a tick and a dropped write in between. -/
theorem witness_InterleavedRunsAgree :
    let evs : List Event := [.block, .tick, .hostWrite 0x00 1, .arrive 0xDD]
    let s : State := { idle with rxq := [0xDB], inputs := .hostWrite 0x00 2 :: (evs ++ [.block]) }
    s.busy = false ∧ evs.all Event.harmless = true ∧ s.inputs = .hostWrite 0x00 2 :: (evs ++ .block :: []) ∧
      (∀ k ∈ List.range 5, got (stepRun (1 + k) s) (·.busy) = some true) ∧
      got (stepRun (1 + evs.length + 1) s) (fun t => (t.busy, t.data, t.rxq, t.ovr)) = some (false, 0xDB, [], true) := by
  decide

/-- SEND at both ends of the range of sizes. -/
theorem witness_SendEmitsTheFrame :
    let s (n : Half) : State := { toSend with txsize := n, inputs := [.hostWrite 0x00 4] }
    ∀ n ∈ [(0 : Half), 1, 1040], (s n).busy = false ∧ (s n).chf = false ∧ (s n).txsize.toNat ≤ (s n).cfg.txbufDepth ∧
      (s n).inputs = [.hostWrite 0x00 4] ∧ opField 4 = 0x4 := by
  simp [toSend, idle, State.busy, State.reset, Config.default]
  decide

/-- SEND of an empty packet with a byte arriving, a read, a dropped write and a tick between its ten turns. -/
theorem witness_SendEmitsTheFrame_interleaved :
    let evs : List Event :=
      [.arrive 0x55, .hostRead 0x01, .block, .hostWrite 0x02 7, .tick] ++ List.replicate 8 .block
    let s : State := { idle with txcmd := 0x08, inputs := .hostWrite 0x00 4 :: (evs ++ [.block]) }
    s.busy = false ∧ s.chf = false ∧ s.txsize.toNat ≤ s.cfg.txbufDepth ∧ opField 4 = 0x4 ∧
      s.inputs = .hostWrite 0x00 4 :: (evs ++ .block :: []) ∧ evs.all Event.harmless = true ∧
      evs.count .block + 1 = 2 + 8 + s.txsize.toNat + escapes (s.txHeader.toList ++ s.txPayload) := by decide

/-- RX5's frame: escapes in the header and the payload. -/
theorem witness_RecvDeliversThePacket :
    let q : List Byte := [0x01, 0xDB, 0xDD, 0x02, 0x00, 0xDB, 0xDD, 0xDB, 0xDC, 0xDB, 0xDD, 0xDB, 0xDC, 0xDB, 0xDC, 0xDB,
      0xDD, 0xC0]
    let h : HdrBytes := ⟨0x01, 0xDB, 0x02, 0x00, 0xDB, 0xC0, 0xDB, 0xC0⟩
    let s : State := { idle with rxcap := 2, rxq := Config.delim :: q, inputs := [.hostWrite 0x00 5] }
    s.busy = false ∧ s.chf = false ∧ s.rxcap.toNat ≤ s.cfg.rxbufDepth ∧ s.inputs = [.hostWrite 0x00 5] ∧
      opField 5 = 0x5 ∧ s.rxq = Config.delim :: q ∧
      decN 8 q = some (h.toList, [0xDB, 0xDC, 0xDB, 0xDD, 0xC0]) ∧ h.size.toNat ≤ s.rxcap.toNat ∧
      decN h.size.toNat [0xDB, 0xDC, 0xDB, 0xDD, 0xC0] = some ([0xC0, 0xDB], [0xC0]) := by decide

/-- RX2, RX7, RX13, RX6; and a bad pair at the eighth header byte and at payload byte 0. -/
theorem witness_RecvFailures :
    let s (cap : Half) (q : List Byte) : State := { idle with rxcap := cap, rxq := q, inputs := [.hostWrite 0x00 5] }
    let h : HdrBytes := ⟨0x01, 0x08, 0x02, 0, 0, 0, 0, 0⟩
    ((s 4 []).busy = false ∧ (s 4 []).chf = false ∧ (s 4 []).rxcap.toNat ≤ (s 4 []).cfg.rxbufDepth ∧
      (s 4 []).inputs = [.hostWrite 0x00 5] ∧ opField 5 = 0x5) ∧
    ((s 4 [0x55, 0xC0]).rxq = 0x55 :: [0xC0] ∧ (0x55 : Byte) ≠ Config.delim) ∧
    (decN 2 [0x01, 0x08, 0xDB, 0x00, 0x02] = some ([0x01, 0x08], Config.esc :: 0x00 :: [0x02]) ∧ unpair 0x00 = none) ∧
    (decN 7 [1, 8, 2, 0, 0, 0, 0, 0xDB, 0xDB] = some ([1, 8, 2, 0, 0, 0, 0], Config.esc :: 0xDB :: []) ∧
      unpair 0xDB = none) ∧
    (decN 8 [1, 8, 2, 0, 0, 0, 0, 0, 0, 0, 0xC0] = some (h.toList, [0, 0, 0xC0]) ∧
      (s 1 []).rxcap.toNat < h.size.toNat ∧ h.size.toNat ≤ (s 2 []).rxcap.toNat) ∧
    (decN 1 [0x11, 0xDB, 0x22, 0x33] = some ([0x11], Config.esc :: 0x22 :: [0x33]) ∧ unpair 0x22 = none ∧
      1 < h.size.toNat ∧ decN 0 [0xDB, 0x22] = some ([], Config.esc :: 0x22 :: [])) := by decide

/-- A window of two ticks, at the tick before the last and at the last. -/
theorem witness_RecvTimesOutExactly :
    let s (n : Nat) : State :=
      { idle with cfg := { Config.default with rxTimeoutMs := 2 }, inputs := .hostWrite 0x00 5 :: List.replicate n .tick }
    ∀ n ∈ [1, 2], (s n).cfg.wf = true ∧ (s n).busy = false ∧ (s n).chf = false ∧
      (s n).rxcap.toNat ≤ (s n).cfg.rxbufDepth ∧ (s n).rxq = [] ∧ opField 5 = 0x5 ∧
      (s n).inputs = .hostWrite 0x00 5 :: List.replicate n .tick ∧ n ≤ (s n).cfg.rxTimeoutMs := by decide

theorem witness_PacketRoundTrip :
    let s : State := { toSend with rxcap := 2, inputs := [.hostWrite 0x00 4] }
    s.busy = false ∧ s.chf = false ∧ s.txsize.toNat ≤ s.cfg.txbufDepth ∧ s.txsize.toNat ≤ s.rxcap.toNat ∧
      s.rxcap.toNat ≤ s.cfg.rxbufDepth ∧ opField 4 = 0x4 ∧ opField 5 = 0x5 ∧ s.inputs = [.hostWrite 0x00 4] := by decide

theorem witness_FrameWrappedByHand :
    let s : State := { idle with inputs := Script.frameByHand ⟨0, 8, 1, 0, 0, 0, 0, 0⟩ [0xC0] }
    s.busy = false ∧ s.chf = false ∧ s.inputs = Script.frameByHand ⟨0, 8, 1, 0, 0, 0, 0, 0⟩ [0xC0] :=
  ⟨by decide, by decide, rfl⟩

theorem witness_ChecksumOfABlock :
    let s : State := { idle with chf := true, inputs := Script.ckBlk [0xC0, 0xDB] }
    s.busy = false ∧ s.inputs = Script.ckBlk [0xC0, 0xDB] := by decide

theorem witness_WaitsForEver :
    let s : State := { during .rHdr with escp := true, inputs := List.replicate 3 .tick }
    (s.ph = .dec ∨ s.ph = .rHdr ∨ s.ph = .rPay) ∧ s.rxq = [] ∧ s.inputs = List.replicate 3 .tick := by decide

theorem witness_ArriveAppends : ({ idle with inputs := [.arrive 0xC0] } : State).inputs = .arrive 0xC0 :: [] := by decide

theorem witness_TickCountsTheWindow :
    let s (t : BitVec 15) : State := { waiting with tmr := t, inputs := [.tick] }
    (s 0).inputs = .tick :: [] ∧ ((s 0).ph = .rWait ∧ (s 0).rxq = []) ∧
      ((s 19999).tmr + 1).toNat = (s 19999).cfg.rxTimeoutMs ∧ ((s 19998).tmr + 1).toNat ≠ (s 19998).cfg.rxTimeoutMs ∧
      ({ s 0 with rxq := [0xC0] } : State).rxq ≠ [] ∧ ({ s 0 with ph := .rPay } : State).ph ≠ .rWait := by decide

/-- RECV waiting from reset meets the invariant. -/
theorem waiting_invariant : Invariant waiting := by
  constructor <;> decide

theorem witness_ChannelFaultEndsTheOperation :
    ({ waiting with inputs := [.chanFault] } : State).inputs = .chanFault :: [] ∧ waiting.busy = true ∧ Invariant waiting ∧
      ({ idle with inputs := [.chanFault] } : State).busy = false ∧
      (let s : State := { payload 1 with inputs := [.arrive 0xDB] }
       s.ph = .rPay ∧ s.rxq = [] ∧ got (step s) (·.rxq) = some [0xDB]) :=
  ⟨by decide, by decide, waiting_invariant, by decide, by decide⟩

theorem witness_ResetValues : ({ waiting with inputs := [.reset] } : State).inputs = .reset :: [] := by decide

/-- The ends of the two buffers, and the locations beside them. -/
theorem witness_HostReadReturnsTheLocation :
    ({ waiting with inputs := [.hostRead 0x01] } : State).inputs = .hostRead 0x01 :: [] ∧
    (1039 < idle.cfg.txbufDepth ∧ (0x1040F : Loc).toNat = 0x10000 + 1039) ∧
    (1039 < idle.cfg.rxbufDepth ∧ idle.cfg.txbufDepth ≤ 65535 ∧ (0x2040F : Loc).toNat = 0x20000 + 1039) ∧
    (∀ a ∈ [(0x0F : Loc), 0x0FFFF, 0x10410, 0x1FFFF, 0x20410, 0x3FFFF], 0x0E < a.toNat ∧
      ¬ (0x10000 ≤ a.toNat ∧ a.toNat < 0x10000 + idle.cfg.txbufDepth) ∧
      ¬ (0x20000 ≤ a.toNat ∧ a.toNat < 0x20000 + idle.cfg.rxbufDepth)) := by
  simp [idle, State.reset, Config.default]

theorem witness_HostWriteStores :
    ({ waiting with inputs := [.hostWrite 0x02 7] } : State).inputs = .hostWrite 0x02 7 :: [] ∧ waiting.busy = true ∧
    (∀ a ∈ [(0x00 : Loc), 0x01, 0x02, 0x07, 0x08, 0x10000, 0x1040F, 0x10410, 0x20000, 0x3FFFF],
      ({ idle with inputs := [.hostWrite a 7] } : State).inputs = .hostWrite a 7 :: []) ∧ idle.busy = false ∧
    (∀ i ∈ [0, 1039], i < idle.cfg.txbufDepth ∧ (BitVec.ofNat 18 (0x10000 + i) : Loc).toNat = 0x10000 + i) ∧
    (∀ a ∈ [(0x01 : Loc), 0x08, 0x0FFFF, 0x10410, 0x20000, 0x3FFFF], (a = 0x01 ∨ 0x07 < a.toNat) ∧
      ¬ (0x10000 ≤ a.toNat ∧ a.toNat < 0x10000 + idle.cfg.txbufDepth)) := by
  simp [idle, waiting, during, State.busy, State.reset, Config.default]

theorem witness_CommandRegister :
    let s : State := { idle with inputs := [.hostWrite 0x00 0xFFFFFFF8] }
    s.inputs = .hostWrite 0x00 0xFFFFFFF8 :: [] ∧ (0xFFFFFFF8 : Word).extractLsb' 0 4 = (0x8 : Word).extractLsb' 0 4 ∧
      s.busy = false ∧ got (step s) (·.op) = some 0x8 ∧
      ({ waiting with inputs := [.hostWrite 0x00 0] } : State).busy = true := by decide

theorem witness_OverrunFlag :
    let s : State := { waiting with inputs := [.hostWrite 0x3FFFF 1] }
    s.inputs = .hostWrite 0x3FFFF 1 :: [] ∧ s.busy = true ∧ s.ovr = false ∧ got (step s) (·.ovr) = some true ∧
      ({ s with ovr := true } : State).ovr = true ∧ got (step { s with ovr := true }) (·.ovr) = some true := by decide

theorem witness_ChannelFaultFlag :
    let s : State := { waiting with inputs := [.chanFault] }
    s.inputs = .chanFault :: [] ∧ s.chf = false ∧ got (step s) (·.chf) = some true ∧
      got (step { idle with chf := true, inputs := [.reset] }) (·.chf) = some false ∧
      ({ idle with chf := true } : State).busy = false ∧ (0x7 : BitVec 4) ∈ [0x1#4, 0x2, 0x3, 0x4, 0x5, 0x7] := by decide

/-- OnlyTheirOperationsWrite, StreamsMoveOneByteInOrder, BufferBytesChangeOnlyWhereWritten: a step that changes `HDRB`, one
that changes `RXCNT`, `RXBUF` and `RXQ`, one that changes `TMR`, one that changes `CKSUM`; none is `Reset`. -/
theorem witness_steps_that_write :
    (let s : State := { during .rHdr with rxq := [0x01] }
     got (step s) (·.hdrb.h0) = some 0x01 ∧ s.hdrb.h0 ≠ 0x01 ∧ s.inputs = []) ∧
    (let s : State := { payload 0 with rxq := [0x11] }
     got (step s) (fun t => (t.rxcnt, t.rxbuf, t.rxq)) = some (1, [(0, 0x11)], []) ∧ s.rxcnt ≠ 1 ∧ s.inputs = []) ∧
    (let s : State := { waiting with inputs := [.tick] }
     got (step s) (·.tmr) = some 1 ∧ s.tmr ≠ 1 ∧ s.inputs ≠ [.reset]) ∧
    (let s : State := { idle with data := 0x01, inputs := [.hostWrite 0x00 0x9] }
     got (step s) (·.cksum) = some 0xEE ∧ s.cksum ≠ 0xEE ∧ s.busy = false ∧ opField 0x9 = 0x9) ∧
    (let s : State := { idle with inputs := [.hostWrite 0x10000 0x07] }
     got (step s) (·.txbuf) = some [(0, 0x07)] ∧ s.busy = false ∧ 0 < s.cfg.txbufDepth) := by decide

theorem witness_ValidFlag :
    (let s : State := { responded with inputs := [.hostWrite 0x00 5] }
     s.rxv = true ∧ s.busy = false ∧ opField 5 = 0x5 ∧
       got (step s) (fun t => (t.rxv, t.ph)) = some (false, .rWait)) ∧
    (let s : State := { payload 1 with rxq := [0x00] }
     s.rxv = false ∧ s.ph.ofRecv = true ∧ s.inputs = [] ∧
       got (step s) (fun t => (t.rxv, t.ph, t.err)) = some (true, .idle, .none)) := by decide

/-- RECV at payload byte 1 meets the invariant: the last clause of ValidFlag, PhaseTransitions, StepKeepsInvariant. -/
theorem payload_invariant : Invariant { payload 1 with rxq := [0x00] } := by
  constructor <;> decide

theorem witness_OperandsStableWhileBusy :
    let s : State := { during .rWait with rxcap := 4, rxq := [0xC0], inputs := [.hostWrite 0x03 1] }
    s.busy = true ∧ s.inputs ≠ [.reset] ∧ s.ph ≠ .dec ∧ got (step s) (·.txdir) = some 0 := by decide

theorem witness_PhaseTransitions :
    Invariant { payload 1 with rxq := [0x00] } ∧ got (step { payload 1 with rxq := [0x00] }) (·.ph) = some .idle :=
  ⟨payload_invariant, by decide⟩

/-- StepKeepsInvariant and NoStepStops. -/
theorem witness_StepKeepsInvariant :
    Invariant { payload 1 with rxq := [0x00] } ∧ got (step { payload 1 with rxq := [0x00] }) (·.rxcnt) = some 2 :=
  ⟨payload_invariant, by decide⟩

theorem witness_EraseSizeMonotone :
    (126977 ≤ 131072 ∧ 2 * Session.headSectors 0 ≤ Session.ceilDiv 126977 Session.sectorSize) ∧
    Session.ceilDiv 126976 Session.sectorSize < 2 * Session.headSectors 0 ∧
    Session.ceilDiv 0 Session.sectorSize < 2 * Session.headSectors 0xF000 := by decide

end Sys2Proof.Tests
end

/-! The family `10_state.md`: the events of the channel, the clock and the host, and the two sticky flags `OVR` and `CHF`
(`10_state.md` R32, R33, R35, R45 to R47). -/

namespace Sys2Proof.Machine

/-! ## Host writes, `Tick` and `ChanFault` -/

/-- `BUSY` does not depend on the coming events. -/
@[simp] theorem busy_inputs (s : State) (l : List Event) : State.busy { s with inputs := l } = s.busy := rfl

/-- A write to a location other than `CMD`, dropped while busy (`20_memory.md` R62). -/
theorem hostStore_busy {s : State} (hb : s.busy = true) (a : Loc) (v : Word) :
    hostStore a v s = { s with ovr := true } := if_pos hb

theorem hostStore_idle_ovr {s : State} (hb : s.busy = false) (a : Loc) (v : Word) : (hostStore a v s).ovr = s.ovr := by
  rcases store_cases a v s with ⟨hb', _⟩ | ⟨_, _, _, _, _, _, _, h⟩ | ⟨_, _, _, _, _, h⟩
  · simp [hb] at hb'
  · rw [h]
  · rw [h]

@[simp] theorem hostStore_chf (a : Loc) (v : Word) (s : State) : (hostStore a v s).chf = s.chf := by
  rcases store_cases a v s with ⟨_, h⟩ | ⟨_, _, _, _, _, _, _, h⟩ | ⟨_, _, _, _, _, h⟩ <;> rw [h]

@[simp] theorem tick_ovr (s : State) : (tick s).ovr = s.ovr := by
  unfold tick
  repeat' split
  all_goals rfl

@[simp] theorem tick_chf (s : State) : (tick s).chf = s.chf := by
  unfold tick
  repeat' split
  all_goals rfl

/-- A RECV that waits on an empty `RXQ` counts, and ends at the window (`10_state.md` R46). -/
theorem tick_waiting {s : State} (hp : s.ph = .rWait) (hq : s.rxq = []) :
    tick s = if (s.tmr + 1).toNat = s.cfg.rxTimeoutMs then complete .timeout { s with tmr := s.tmr + 1 }
      else { s with tmr := s.tmr + 1 } := if_pos ⟨hp, hq⟩

/-- Only a RECV that waits on an empty `RXQ` counts (R46). -/
theorem tick_eq_self {s : State} (h : ¬ (s.ph = .rWait ∧ s.rxq = [])) : tick s = s := if_neg h

@[simp] theorem chanFault_ovr (s : State) : (chanFault s).ovr = s.ovr := by
  unfold chanFault
  split <;> rfl

@[simp] theorem chanFault_chf (s : State) : (chanFault s).chf = true := by
  unfold chanFault
  split <;> rfl

@[simp] theorem chanFault_rxq (s : State) : (chanFault s).rxq = s.rxq := by
  unfold chanFault
  split <;> rfl

/-- The block's turn moves neither flag. -/
theorem turn_flags {s u t : State} (hu : s.turn = some u) (ht : blockStep u = .next t) :
    t.ovr = s.ovr ∧ t.chf = s.chf := by
  obtain ⟨l, rfl⟩ := turn_eq hu
  exact ⟨(block_frame ht).1.ovr, (block_frame ht).1.chf⟩

/-- A host write while busy, to `CMD` or to any other location, sets `OVR` and does nothing else (R62). -/
theorem step_write_busy {s : State} {a : Loc} {v : Word} {rest : List Event} (h : s.inputs = .hostWrite a v :: rest)
    (hb : s.busy = true) : step s = .next { s with inputs := rest, ovr := true } := by
  by_cases ha : a = 0x00
  · subst ha
    rw [step_cmd h, exec_decodeOp, if_pos (by exact hb)]
  · rw [step_write h ha, hostStore_busy (by exact hb)]

/-! ## What any step does to the flags -/

/-- `OVR` stays, or a host write while busy sets it, or `Reset` clears it (R32). -/
theorem step_ovr {s t : State} (hs : step s = .next t) :
    t.ovr = s.ovr ∨ (t.ovr = true ∧ s.busy = true ∧ ∃ a v rest, s.inputs = .hostWrite a v :: rest) ∨
      (t.ovr = false ∧ s.resets) := by
  rcases step_cases hs with ⟨u, hu, ht⟩ | ⟨v, rest, hin, rfl⟩ | ⟨a, v, rest, hin, -, rfl⟩ | ⟨a, rest, -, rfl⟩ |
    ⟨b, rest, -, rfl⟩ | ⟨rest, -, rfl⟩ | ⟨rest, -, rfl⟩ | ⟨rest, hin, rfl⟩
  · exact .inl (turn_flags hu ht).1
  · split
    · next hb => exact .inr (.inl ⟨rfl, hb, _, _, _, hin⟩)
    · exact .inl (accepted_frame _ _).ovr
  · by_cases hb : s.busy = true
    · rw [hostStore_busy (s := { s with inputs := rest }) hb]
      exact .inr (.inl ⟨rfl, hb, _, _, _, hin⟩)
    · exact .inl (hostStore_idle_ovr (s := { s with inputs := rest }) (not_busy hb) a v)
  · exact .inl rfl
  · exact .inl rfl
  · exact .inl (tick_ovr _)
  · exact .inl (chanFault_ovr _)
  · exact .inr (.inr ⟨rfl, rest, hin⟩)

/-- `CHF` stays, or `ChanFault` sets it, or `Reset` clears it (R33). -/
theorem step_chf {s t : State} (hs : step s = .next t) :
    t.chf = s.chf ∨ (t.chf = true ∧ ∃ rest, s.inputs = .chanFault :: rest) ∨ (t.chf = false ∧ s.resets) := by
  rcases step_cases hs with ⟨u, hu, ht⟩ | ⟨v, rest, -, rfl⟩ | ⟨a, v, rest, -, -, rfl⟩ | ⟨a, rest, -, rfl⟩ |
    ⟨b, rest, -, rfl⟩ | ⟨rest, -, rfl⟩ | ⟨rest, hin, rfl⟩ | ⟨rest, hin, rfl⟩
  · exact .inl (turn_flags hu ht).2
  · split
    · exact .inl rfl
    · exact .inl (accepted_frame _ _).chf
  · exact .inl (hostStore_chf a v _)
  · exact .inl rfl
  · exact .inl rfl
  · exact .inl (tick_chf _)
  · exact .inr (.inl ⟨chanFault_chf _, rest, hin⟩)
  · exact .inr (.inr ⟨rfl, rest, hin⟩)

/-! ## The channel operations and a RECV stuck in mid-frame -/

theorem isChannelOp_iff (op : BitVec 4) : isChannelOp op = true ↔ op ∈ [0x1#4, 0x2, 0x3, 0x4, 0x5, 0x7] := by
  simp [isChannelOp, or_assoc]

/-- Every phase but `IDLE` belongs to a channel operation (R40, R45). -/
theorem isChannelOp_of_opcode {ph : Phase} {op : BitVec 4} (h : ph.opcode = some op) : isChannelOp op = true := by
  cases ph <;> cases h <;> rfl

theorem opcode_eq_none_iff (ph : Phase) : ph.opcode = none ↔ ph = .idle := by
  cases ph <;> simp [Phase.opcode]

/-- An operation in progress is a channel operation. -/
theorem busy_isChannelOp {s : State} (hb : s.busy = true) (hi : Invariant s) : isChannelOp s.op = true := by
  rcases hi.op_owns_phase with h | h
  · exact absurd ((opcode_eq_none_iff _).1 h) ((busy_eq_true_iff s).1 hb)
  · exact isChannelOp_of_opcode h

/-- On a faulted channel a channel operation completes at acceptance (R33, R44). -/
theorem accepted_faulted {op : BitVec 4} {s : State} (hop : isChannelOp op = true) (hc : s.chf = true) :
    accepted op s = complete .channel (accept op s) := by simp [accepted, hop, hc]

/-- With no byte to take, the turn of a RECV inside a frame does nothing (log 17). -/
theorem blockStep_starved {s : State} (hp : s.ph = .rHdr ∨ s.ph = .rPay) (hq : s.rxq = []) :
    blockStep s = .next s := by
  rcases hp with hp | hp <;> simp [blockStep, hp, hq]

/-- What a step does to a RECV that waits for a byte inside a frame: nothing to its phase, unless it is `ChanFault` or
`Reset`; nothing to the empty `RXQ`, unless it is `Arrive` (R45, R47). -/
theorem step_starved {s t : State} (hp : s.ph = .rHdr ∨ s.ph = .rPay) (hq : s.rxq = []) (hs : step s = .next t) :
    (t.ph = s.ph ∨ (∃ rest, s.inputs = .chanFault :: rest) ∨ s.resets) ∧
      (t.rxq = [] ∨ ∃ b rest, s.inputs = .arrive b :: rest ∧ t.rxq = [b]) := by
  have hb : s.busy = true := by rcases hp with hp | hp <;> simp [State.busy, hp]
  rcases step_cases hs with ⟨u, hu, ht⟩ | ⟨v, rest, -, rfl⟩ | ⟨a, v, rest, -, -, rfl⟩ | ⟨a, rest, -, rfl⟩ |
    ⟨b, rest, hin, rfl⟩ | ⟨rest, -, rfl⟩ | ⟨rest, hin, rfl⟩ | ⟨rest, hin, rfl⟩
  · obtain ⟨l, rfl⟩ := turn_eq hu
    rw [blockStep_starved (s := { s with inputs := l }) hp hq] at ht
    obtain rfl := Host.Outcome.next.inj ht
    exact ⟨.inl rfl, .inl hq⟩
  · rw [if_pos hb]
    exact ⟨.inl rfl, .inl hq⟩
  · rw [hostStore_busy (s := { s with inputs := rest }) hb]
    exact ⟨.inl rfl, .inl hq⟩
  · exact ⟨.inl rfl, .inl hq⟩
  · exact ⟨.inl rfl, .inr ⟨b, rest, hin, by simp [hq]⟩⟩
  · rw [tick_eq_self (by rcases hp with hp | hp <;> simp [hp])]
    exact ⟨.inl rfl, .inl hq⟩
  · exact ⟨.inr (.inl ⟨rest, hin⟩), .inl (by simp [hq])⟩
  · exact ⟨.inr (.inr ⟨rest, hin⟩), .inl hq⟩

/-! ## The obligations -/

/-- Settles O41: the effect of the fault is its definition; the phase of an operation in progress names a channel
operation; a starved RECV is left alone by every other step. -/
theorem channelFaultEndsTheOperation : Obligations.ChannelFaultEndsTheOperation := by
  refine ⟨fun s rest h => ⟨fun hb => ?_, fun hb => ?_⟩, fun s hb hi => ?_, fun s t hp hq hs =>
    ⟨(step_starved hp hq hs).1.resolve_left, (step_starved hp hq hs).2.resolve_left⟩⟩
  · rw [step_chanFault h, chanFault, if_pos (by exact hb)]
    rfl
  · rw [step_chanFault h, chanFault, if_neg (by simp [hb])]
  · simpa using (isChannelOp_iff s.op).1 (busy_isChannelOp hb hi)

/-- Settles O47, from what any step does to `OVR`. -/
theorem overrunFlag : Obligations.OverrunFlag := by
  refine ⟨fun s a v rest h hb => step_write_busy h hb, fun s t hs h0 h1 => ?_, fun s t hs h1 => ?_⟩
  · rcases step_ovr hs with h | ⟨-, hw⟩ | ⟨h, -⟩
    · simp [h, h0] at h1
    · exact hw
    · simp [h] at h1
  · rcases step_ovr hs with h | ⟨ht, -⟩ | ⟨-, hr⟩
    · exact .inl (h.trans h1)
    · exact .inl ht
    · exact .inr hr

/-- Settles O48, from what any step does to `CHF` and from acceptance on a faulted channel. -/
theorem channelFaultFlag : Obligations.ChannelFaultFlag := by
  refine ⟨fun s t hs ⟨rest, h⟩ => ?_, fun s t hs h0 h1 => ?_, fun s t hs h1 => ?_, fun s op hb hc hop => ?_⟩
  · rw [step_chanFault h] at hs
    obtain rfl := Host.Outcome.next.inj hs
    exact chanFault_chf _
  · rcases step_chf hs with h | ⟨-, hin⟩ | ⟨h, -⟩
    · simp [h, h0] at h1
    · exact hin
    · simp [h] at h1
  · rcases step_chf hs with h | ⟨ht, -⟩ | ⟨-, hr⟩
    · exact .inl (h.trans h1)
    · exact .inl ht
    · exact .inr hr
  · rw [exec_decodeOp, if_neg (by simp [hb]), accepted_faulted ((isChannelOp_iff op).2 hop) hc]
    rfl

/-- Settles O39: the step of `Arrive` is `arrive`. -/
theorem arriveAppends : Obligations.ArriveAppends := fun _ _ _ h => step_arrive h

/-- Settles O40, by the two tests of `tick`. -/
theorem tickCountsTheWindow : Obligations.TickCountsTheWindow := by
  intro s rest h
  rw [step_tick h]
  refine ⟨fun hp hq ht => ?_, fun hp hq ht => ?_, fun hn => ?_⟩
  · rw [tick_waiting (s := { s with inputs := rest }) hp hq, if_pos ht]
    rfl
  · rw [tick_waiting (s := { s with inputs := rest }) hp hq, if_neg ht]
  · rw [tick_eq_self (s := { s with inputs := rest }) (by tauto)]

/-- Settles O46: a write to `CMD` runs `exec_decodeOp`'s command, which sees the low four bits only. -/
theorem commandRegister : Obligations.CommandRegister := by
  refine ⟨fun s => rfl, fun s v w rest h hvw => ?_, fun s v rest h hb => ⟨step_cmd h, ?_⟩,
    fun s v rest h hb => step_write_busy h hb⟩
  · rw [step_cmd h, step_cmd (s := { s with inputs := .hostWrite 0x00 w :: rest }) rfl]
    exact congrArg (fun op => exec (decodeOp op) { s with inputs := rest }) hvw
  · refine ⟨accepted (opField v) { s with inputs := rest }, ?_, accepted_op _ _⟩
    rw [step_cmd h, exec_decodeOp, if_neg (by simp [hb])]

end Sys2Proof.Machine

/-! The family `20_memory.md`: what a host read returns and what a host write stores, at every location (R61 to R63). -/

namespace Sys2Proof.Machine

/-! ## Host reads above the registers -/

/-- The locations above `TMR` are the two buffers or unmapped (R63). -/
theorem hostRead_above_registers (s : State) {a : Loc} (ha : 0x0E < a.toNat) :
    hostRead s a =
      if 0x10000 ≤ a.toNat ∧ a.toNat < 0x10000 + s.cfg.txbufDepth then (s.txByte (a.toNat - 0x10000)).setWidth 32
      else if 0x20000 ≤ a.toNat ∧ a.toNat < 0x20000 + s.cfg.rxbufDepth then (s.rxByte (a.toNat - 0x20000)).setWidth 32
      else 0 := by
  unfold hostRead
  split
  case h_16 => rfl
  all_goals omega

theorem hostRead_txbuf {s : State} {a : Loc} {i : Nat} (hi : i < s.cfg.txbufDepth) (ha : a.toNat = 0x10000 + i) :
    hostRead s a = (s.txByte i).setWidth 32 := by
  rw [hostRead_above_registers s (by omega), if_pos (by omega), show a.toNat - 0x10000 = i by omega]

/-- A legal `TXBUF` ends below the first location of `RXBUF`. -/
theorem hostRead_rxbuf {s : State} {a : Loc} {i : Nat} (hi : i < s.cfg.rxbufDepth) (hd : s.cfg.txbufDepth ≤ 65535)
    (ha : a.toNat = 0x20000 + i) : hostRead s a = (s.rxByte i).setWidth 32 := by
  rw [hostRead_above_registers s (by omega), if_neg (by omega), if_pos (by omega),
    show a.toNat - 0x20000 = i by omega]

theorem hostRead_unmapped {s : State} {a : Loc} (ha : 0x0E < a.toNat)
    (ht : ¬ (0x10000 ≤ a.toNat ∧ a.toNat < 0x10000 + s.cfg.txbufDepth))
    (hr : ¬ (0x20000 ≤ a.toNat ∧ a.toNat < 0x20000 + s.cfg.rxbufDepth)) : hostRead s a = 0 := by
  rw [hostRead_above_registers s ha, if_neg ht, if_neg hr]

/-! ## Host writes outside the registers -/

/-- Outside the writable registers a write stores in `TXBUF` or nothing (R62). -/
theorem storeLoc_outside_registers (v : Word) (s : State) {a : Loc} (ha : a.toNat < 0x02 ∨ 0x07 < a.toNat) :
    storeLoc a v s =
      if 0x10000 ≤ a.toNat ∧ a.toNat < 0x10000 + s.cfg.txbufDepth then
        { s with txbuf := s.txbuf.store (a.toNat - 0x10000) (v.setWidth 8) }
      else s := by
  unfold storeLoc
  split
  case h_7 => rfl
  all_goals omega

theorem storeLoc_txbuf {s : State} {a : Loc} {i : Nat} (v : Word) (hi : i < s.cfg.txbufDepth)
    (ha : a.toNat = 0x10000 + i) : storeLoc a v s = { s with txbuf := s.txbuf.store i (v.setWidth 8) } := by
  rw [storeLoc_outside_registers v s (by omega), if_pos (by omega), show a.toNat - 0x10000 = i by omega]

theorem storeLoc_unmapped {s : State} {a : Loc} (v : Word) (ha : a = 0x01 ∨ 0x07 < a.toNat)
    (ht : ¬ (0x10000 ≤ a.toNat ∧ a.toNat < 0x10000 + s.cfg.txbufDepth)) : storeLoc a v s = s := by
  rw [storeLoc_outside_registers v s (ha.imp_left (by rintro rfl; decide)), if_neg ht]

@[simp] theorem txByte_store_same (s : State) (i : Nat) (b : Byte) :
    State.txByte { s with txbuf := s.txbuf.store i b } i = b := by simp [State.txByte]

theorem txByte_store_other (s : State) {i j : Nat} (b : Byte) (h : j ≠ i) :
    State.txByte { s with txbuf := s.txbuf.store i b } j = s.txByte j := by
  simp [State.txByte, Memory.lookup_store_other _ b h]

theorem ne_cmd_of_outside_registers {a : Loc} (ha : a = 0x01 ∨ 0x07 < a.toNat) : a ≠ 0x00 := by
  rintro rfl
  simp at ha

/-- A write to a location other than `CMD` while idle (R62). -/
theorem step_write_idle {s : State} {a : Loc} {v : Word} {rest : List Event} (h : s.inputs = .hostWrite a v :: rest)
    (ha : a ≠ 0x00) (hb : s.busy = false) : step s = .next (storeLoc a v { s with inputs := rest }) := by
  rw [step_write h ha, hostStore, if_neg (by simp [hb])]

/-! ## The obligations of `20_memory.md` -/

/-- Settles O43: a register's value is its row of `hostRead`; above the registers the location lies in `TXBUF`, in
`RXBUF` or in neither. -/
theorem hostReadReturnsTheLocation : Obligations.HostReadReturnsTheLocation := by
  intro s a rest h
  refine ⟨hostRead { s with inputs := rest } a, step_read h, ?_, ?_, ?_, ?_, ?_, ?_, ?_, ?_, ?_, ?_, ?_, ?_, ?_, ?_, ?_,
    fun i hi ha => hostRead_txbuf hi ha, fun i hi hd ha => hostRead_rxbuf hi hd ha,
    fun ha ht hr => hostRead_unmapped ha ht hr⟩
  all_goals
    rintro rfl
    rfl

/-- Settles O45: an idle write to a location other than `CMD` is `storeLoc`, by register, `TXBUF` byte or neither. -/
theorem hostWriteStores : Obligations.HostWriteStores := by
  intro s a v rest h
  rw [← BitVec.setWidth_eq_extractLsb' (w := 8) (by decide), ← BitVec.setWidth_eq_extractLsb' (w := 16) (by decide)]
  refine ⟨step_write_busy h, fun hb => ⟨?cmd, ?_, ?_, ?_, ?_, ?_, ?_, fun i hi ha => ?txbuf, fun ha ht => ?unmapped⟩⟩
  case cmd =>
    rintro rfl
    exact step_cmd h
  case txbuf =>
    rw [step_write_idle h (ne_cmd_of_outside_registers (.inr (by omega))) hb,
      storeLoc_txbuf (s := { s with inputs := rest }) v hi ha]
    exact ⟨_, rfl, rfl, txByte_store_same _ i _, fun j hj => txByte_store_other _ _ hj⟩
  case unmapped =>
    rw [step_write_idle h (ne_cmd_of_outside_registers ha) hb,
      storeLoc_unmapped (s := { s with inputs := rest }) v ha ht]
  all_goals
    rintro rfl
    exact step_write_idle h (by decide) hb

end Sys2Proof.Machine

/-! The family `30_encoding.md`: the header fields on the wire (R96, R97). -/

namespace Sys2Proof

/-! ## The bytes of a serialised header -/

namespace HdrBytes

/-- The eight bytes of a serialised header in wire order: each field from its low byte up (R97). -/
theorem toList_ofFields (d c : Byte) (z : Half) (v : Word) :
    (ofFields d c z v).toList =
      [d, c, z.extractLsb' 0 8, z.extractLsb' 8 8, v.extractLsb' 0 8, v.extractLsb' 8 8, v.extractLsb' 16 8,
        v.extractLsb' 24 8] := rfl

@[simp] theorem ofFields_get_two (d c : Byte) (z : Half) (v : Word) :
    (ofFields d c z v).get 2 = z.extractLsb' 0 8 := rfl

@[simp] theorem ofFields_get_three (d c : Byte) (z : Half) (v : Word) :
    (ofFields d c z v).get 3 = z.extractLsb' 8 8 := rfl

end HdrBytes

/-- R92 on one sequence: the low byte of a size of `0x00C0` is the delimiter and travels as a pair, the high byte as
itself. -/
theorem encs_size_bytes_00C0 :
    encs [BitVec.extractLsb' 0 8 (0x00C0 : Half), BitVec.extractLsb' 8 8 (0x00C0 : Half)] = [0xDB, 0xDC, 0x00] := by
  decide

/-! ## The obligation of `30_encoding.md` -/

/-- Settles O9: the fields of a record are its bytes' weighted sums (`size_toNat`, `value_toNat`), and `ofFields` is
inverse to them on both sides. -/
theorem headerFieldsLittleEndian : Obligations.HeaderFieldsLittleEndian := by
  refine ⟨fun h => ⟨rfl, rfl, h.size_toNat, h.value_toNat, h.ofFields_fields⟩, fun d c z v => ?_, fun d c v => ?_⟩
  · exact ⟨HdrBytes.toList_ofFields d c z v, HdrBytes.ofFields_direction d c z v, HdrBytes.ofFields_command d c z v,
      HdrBytes.ofFields_size d c z v, HdrBytes.ofFields_value d c z v⟩
  · rw [HdrBytes.ofFields_get_two, HdrBytes.ofFields_get_three]
    exact encs_size_bytes_00C0

end Sys2Proof

/-! The family `41_packet_tx.md`: the start of SEND (R141), and for it the acceptance of a command by an idle block, with
and without the `CHF` test in its way (`10_state.md` R44). -/

namespace Sys2Proof.Machine

/-! ## Acceptance by an idle block -/

/-- An idle block accepts every command (R44). -/
theorem exec_decodeOp_idle {s : State} (hb : s.busy = false) (op : BitVec 4) :
    exec (decodeOp op) s = .next (accepted op s) := by rw [exec_decodeOp, if_neg (by simp [hb])]

/-- On a channel without fault the command starts at once (R44). -/
theorem accepted_clear {s : State} (hc : s.chf = false) (op : BitVec 4) :
    accepted op s = commandStart op (accept op s) := by simp [accepted, hc]

/-! ## SEND's two starts -/

theorem sendStart_too_large {t : State} (h : t.cfg.txbufDepth < t.txsize.toNat) : sendStart t = complete .badcmd t :=
  if_pos h

theorem sendStart_fits {t : State} (h : t.txsize.toNat ≤ t.cfg.txbufDepth) : sendStart t = { t with ph := .sOpen } :=
  if_neg (Nat.not_lt.2 h)

theorem exec_send_faulted {s : State} (hb : s.busy = false) (hc : s.chf = true) :
    exec .send s = .next (complete .channel (accept 0x4 s)) :=
  calc exec .send s = .next (accepted 0x4 s) := exec_decodeOp_idle hb 0x4
    _ = .next (complete .channel (accept 0x4 s)) := by rw [accepted_faulted rfl hc]

/-- SEND is the command of code `0x4`, whose start is `sendStart`. -/
theorem exec_send_clear {s : State} (hb : s.busy = false) (hc : s.chf = false) :
    exec .send s = .next (sendStart (accept 0x4 s)) :=
  calc exec .send s = .next (accepted 0x4 s) := exec_decodeOp_idle hb 0x4
    _ = .next (commandStart 0x4 (accept 0x4 s)) := by rw [accepted_clear hc]
    _ = .next (sendStart (accept 0x4 s)) := rfl

end Sys2Proof.Machine

namespace Sys2Proof

/-! ## The obligation of `41_packet_tx.md` -/

/-- Settles O16: acceptance changes neither `TXSIZE` nor the depth, so the test of `Machine.sendStart` is the one on the
idle state; a 16-bit size is at most 65535. -/
theorem sendStart : Obligations.SendStart := by
  refine ⟨fun s hb hc => ?faulted, fun s hb hc hz => ?tooLarge, fun s hb hc hz => ?fits, fun s hd => ?_⟩
  case faulted =>
    rw [Machine.exec_send_faulted hb hc]
    rfl
  case tooLarge =>
    rw [Machine.exec_send_clear hb hc, Machine.sendStart_too_large (by simpa using hz)]
    rfl
  case fits =>
    rw [Machine.exec_send_clear hb hc, Machine.sendStart_fits (by simpa using hz)]
    rfl
  · rw [hd]
    exact Nat.le_of_lt_succ s.txsize.isLt

end Sys2Proof

/-! The family `42_packet_rx.md`: the start of RECV (R161) and the response check RSPCHK (R175). -/

namespace Sys2Proof.Machine

/-! ## RECV's two starts -/

theorem recvStart_too_large {t : State} (h : t.cfg.rxbufDepth < t.rxcap.toNat) : recvStart t = complete .badcmd t :=
  if_pos h

theorem recvStart_fits {t : State} (h : t.rxcap.toNat ≤ t.cfg.rxbufDepth) :
    recvStart t = { t with rxv := false, rxcnt := 0, tmr := 0, ph := .rWait } := if_neg (Nat.not_lt.2 h)

theorem exec_recv_faulted {s : State} (hb : s.busy = false) (hc : s.chf = true) :
    exec .recv s = .next (complete .channel (accept 0x5 s)) :=
  calc exec .recv s = .next (accepted 0x5 s) := exec_decodeOp_idle hb 0x5
    _ = .next (complete .channel (accept 0x5 s)) := by rw [accepted_faulted rfl hc]

/-- RECV is the command of code `0x5`, whose start is `recvStart`. -/
theorem exec_recv_clear {s : State} (hb : s.busy = false) (hc : s.chf = false) :
    exec .recv s = .next (recvStart (accept 0x5 s)) :=
  calc exec .recv s = .next (accepted 0x5 s) := exec_decodeOp_idle hb 0x5
    _ = .next (commandStart 0x5 (accept 0x5 s)) := by rw [accepted_clear hc]
    _ = .next (recvStart (accept 0x5 s)) := rfl

/-! ## RSPCHK -/

/-- A command that is no channel operation starts whatever `CHF` is (R44). -/
theorem accepted_instant {op : BitVec 4} (hop : isChannelOp op = false) (s : State) :
    accepted op s = commandStart op (accept op s) := by simp [accepted, hop]

/-- RSPCHK is the command of code `0x6`, which is no channel operation. -/
theorem exec_rspchk_idle {s : State} (hb : s.busy = false) : exec .rspchk s = .next (rspchkRun (accept 0x6 s)) :=
  calc exec .rspchk s = .next (accepted 0x6 s) := exec_decodeOp_idle hb 0x6
    _ = .next (commandStart 0x6 (accept 0x6 s)) := by rw [accepted_instant rfl]
    _ = .next (rspchkRun (accept 0x6 s)) := rfl

/-- The five terms of R175. -/
theorem responseAccepted_iff (s : State) (first : Byte) :
    s.responseAccepted first = true ↔
      s.rxv = true ∧ s.hdrb.direction = 1 ∧ s.hdrb.command = s.data.extractLsb' 0 8 ∧ 1 ≤ s.hdrb.size.toNat ∧
        first = 0 := by
  simp only [State.responseAccepted, Bool.and_eq_true, beq_iff_eq, decide_eq_true_eq, and_assoc]

/-- Acceptance changes nothing the response predicate reads. -/
theorem responseAccepted_accept (op : BitVec 4) (s : State) :
    (accept op s).responseAccepted ((accept op s).rxByte 0) = s.responseAccepted (s.rxByte 0) := rfl

theorem rspchkRun_of_accepted {t : State} (h : t.responseAccepted (t.rxByte 0) = true) :
    rspchkRun t = complete .none { t with rspok := true } := by simp [rspchkRun, h]

theorem rspchkRun_of_rejected {t : State} (h : t.responseAccepted (t.rxByte 0) = false) :
    rspchkRun t = complete .proto { t with rspok := false } := by simp [rspchkRun, h]

end Sys2Proof.Machine

namespace Sys2Proof

/-! ## The obligations of `42_packet_rx.md` -/

/-- Settles O17: acceptance changes neither `RXCAP` nor the depth, so the test of `Machine.recvStart` is the one on the
idle state. -/
theorem recvStart : Obligations.RecvStart := by
  refine fun s hb => ⟨fun hc => ?faulted, fun hc hz => ?tooLarge, fun hc hz => ?fits⟩
  case faulted =>
    rw [Machine.exec_recv_faulted hb hc]
    rfl
  case tooLarge =>
    rw [Machine.exec_recv_clear hb hc, Machine.recvStart_too_large (by simpa using hz)]
    rfl
  case fits =>
    rw [Machine.exec_recv_clear hb hc, Machine.recvStart_fits (by simpa using hz)]
    rfl

/-- Settles O18: the statement's conjunction is `responseAccepted` on the idle state, which acceptance keeps, and RSPCHK
completes by it. -/
theorem responseCheck : Obligations.ResponseCheck := by
  refine fun s hb => ⟨fun h => ?accepted, fun h => ?rejected, rfl⟩
  case accepted =>
    have hok := (Machine.responseAccepted_iff s (s.rxByte 0)).2 h
    rw [← Machine.responseAccepted_accept 0x6] at hok
    rw [Machine.exec_rspchk_idle hb, Machine.rspchkRun_of_accepted hok]
    rfl
  case rejected =>
    have hno := Bool.eq_false_iff.2 (mt (Machine.responseAccepted_iff s (s.rxByte 0)).1 h)
    rw [← Machine.responseAccepted_accept 0x6] at hno
    rw [Machine.exec_rspchk_idle hb, Machine.rspchkRun_of_rejected hno]
    rfl

end Sys2Proof

/-! The family `43_checksum.md`: the checksum function (R190) and the operations CKINIT, CKUPD and CKCHK (R191, R193,
R196). -/

namespace Sys2Proof.Machine

/-! ## One fold -/

@[simp] theorem ckFold_zero (c : Word) : ckFold c 0 = c := by simp [ckFold]

@[simp] theorem ckFold_ckFold_same (c : Word) (b : Byte) : ckFold (ckFold c b) b = c := by simp [ckFold]

/-- A widened byte meets bits 7:0 only (D19). -/
@[simp] theorem ckFold_high_bits (c : Word) (b : Byte) : (ckFold c b).extractLsb' 8 24 = c.extractLsb' 8 24 := by
  have hb : (b.setWidth 32).extractLsb' 8 24 = 0#24 := by
    ext i hi
    simp
  rw [ckFold, BitVec.extractLsb'_xor, hb, BitVec.xor_zero]

/-- Widening commutes with the exclusive or. -/
theorem ckFold_xor_setWidth (c : Word) (a b : Byte) :
    ckFold (c ^^^ a.setWidth 32) b = c ^^^ (a ^^^ b).setWidth 32 := by
  rw [ckFold, BitVec.setWidth_xor, BitVec.xor_assoc]

/-! ## The checksum of a sequence -/

@[simp] theorem checksum_nil : checksum [] = Config.ckInit := rfl

theorem checksum_append_singleton (s : List Byte) (b : Byte) : checksum (s ++ [b]) = ckFold (checksum s) b := by
  rw [checksum, checksum, List.foldl_concat]

/-- Folding from a value that already holds the byte `a` folds on in `a`. -/
theorem foldl_ckFold_xor_setWidth (c : Word) (s : List Byte) (a : Byte) :
    s.foldl ckFold (c ^^^ a.setWidth 32) = c ^^^ (s.foldl (fun a b => a ^^^ b) a).setWidth 32 := by
  induction s generalizing a with
  | nil => rfl
  | cons b s ih => rw [List.foldl_cons, List.foldl_cons, ckFold_xor_setWidth, ih]

theorem checksum_eq_xor (s : List Byte) :
    checksum s = Config.ckInit ^^^ (s.foldl (fun a b => a ^^^ b) (0 : Byte)).setWidth 32 := by
  have hz : Config.ckInit ^^^ (0 : Byte).setWidth 32 = Config.ckInit := by decide
  rw [← foldl_ckFold_xor_setWidth, hz, checksum]

/-! ## CKINIT, CKUPD and CKCHK -/

/-- An idle block runs an instant command whole, whatever `CHF` is (`10_state.md` R44). -/
theorem exec_instant_idle {s : State} (hb : s.busy = false) {op : BitVec 4} (hop : isChannelOp op = false) :
    exec (decodeOp op) s = .next (commandStart op (accept op s)) := by
  rw [exec_decodeOp_idle hb, accepted_instant hop]

theorem exec_ckinit_idle {s : State} (hb : s.busy = false) :
    exec .ckinit s = .next (complete .none { accept 0x8 s with cksum := Config.ckInit }) :=
  exec_instant_idle (op := 0x8) hb rfl

/-- Acceptance changes neither operand of CKUPD. -/
theorem exec_ckupd_idle {s : State} (hb : s.busy = false) :
    exec .ckupd s = .next (complete .none { accept 0x9 s with cksum := ckFold s.cksum s.dataByte }) :=
  exec_instant_idle (op := 0x9) hb rfl

/-- Acceptance changes neither operand of CKCHK. -/
theorem exec_ckchk_idle {s : State} (hb : s.busy = false) :
    exec .ckchk s = .next (complete .none { accept 0xA s with ckok := s.cksumMatches }) :=
  exec_instant_idle (op := 0xA) hb rfl

theorem cksumMatches_eq_decide (s : State) : s.cksumMatches = decide (s.cksum = s.data) := by
  rw [State.cksumMatches, beq_eq_decide]

/-- A value above `0xFF` is no checksum below `0x100` (R196, R37). -/
theorem cksum_ne_data_of_large {s : State} (hc : s.cksum.toNat < 256) (hd : 256 ≤ s.data.toNat) : s.cksum ≠ s.data :=
  fun h => absurd hd (by rw [← h]; omega)

end Sys2Proof.Machine

namespace Sys2Proof

/-! ## The obligations of `43_checksum.md` -/

/-- Settles O10: the checksum is a left fold, so a last byte is folded last, and the whole fold is that of the bytes'
exclusive or. -/
theorem checksumFunction : Obligations.ChecksumFunction :=
  ⟨Machine.checksum_nil, Machine.checksum_append_singleton, Machine.checksum_eq_xor⟩

/-- Settles O19: the frame is that of acceptance and completion. -/
theorem checksumInit : Obligations.ChecksumInit :=
  fun _ hb => ⟨Machine.exec_ckinit_idle hb, rfl⟩

/-- Settles O20: the run is `Machine.exec_ckupd_idle`, the corner cases are those of one fold. -/
theorem checksumUpdate : Obligations.ChecksumUpdate := by
  refine ⟨fun s hb => Machine.exec_ckupd_idle hb, Machine.ckFold_zero,
    fun c b => ⟨Machine.ckFold_ckFold_same c b, Machine.ckFold_high_bits c b⟩, fun s hb t ht => ?_, rfl⟩
  rw [Machine.exec_ckupd_idle hb] at ht
  obtain rfl := Host.Outcome.next.inj ht
  rfl

/-- Settles O21: the boolean comparison of CKCHK decides the equality of all 32 bits, and unequal numbers are unequal
words. -/
theorem checksumCheck : Obligations.ChecksumCheck := by
  refine fun s hb => ⟨?_, fun hc hd => decide_eq_false (Machine.cksum_ne_data_of_large hc hd), rfl⟩
  rw [Machine.exec_ckchk_idle hb, Machine.cksumMatches_eq_decide]
  rfl

end Sys2Proof

/-! The family `44_control_ops.md`: NOP (R205) and the reserved codes (R207), which complete at once and move nothing. -/

namespace Sys2Proof.Machine

/-- The frame of an operation that only completes: acceptance and completion write the six elements of R42 and R43, and
every other element stays as it was. -/
theorem complete_accept (e : Err) (op : BitVec 4) (s : State) :
    complete e (accept op s) = { s with op := op, done := true, err := e, ph := .idle, escp := false, idx := 0 } := rfl

theorem exec_nop_idle {s : State} (hb : s.busy = false) : exec .nop s = .next (complete .none (accept 0x0 s)) :=
  exec_instant_idle (op := 0x0) hb rfl

/-- The codes from `0xB` on are no channel operations (R104). -/
theorem isChannelOp_of_reserved {op : BitVec 4} (hop : 0xB ≤ op) : isChannelOp op = false := by
  revert op
  decide

/-- The codes from `0xB` on fall to the last row of the command table (R207). -/
theorem commandStart_of_reserved {op : BitVec 4} (hop : 0xB ≤ op) (t : State) :
    commandStart op t = complete .badcmd t := by
  have hge : 11 ≤ op.toNat := BitVec.le_def.1 hop
  unfold commandStart
  split
  case h_12 => rfl
  all_goals omega

/-- All reserved codes at once: whichever code it is, `OP` holds it afterwards and `ERR` is `BADCMD` (R207, D7). -/
theorem exec_reserved_idle {s : State} (hb : s.busy = false) {op : BitVec 4} (hop : 0xB ≤ op) :
    exec (decodeOp op) s =
      .next { s with op := op, done := true, err := .badcmd, ph := .idle, escp := false, idx := 0 } := by
  rw [exec_instant_idle hb (isChannelOp_of_reserved hop), commandStart_of_reserved hop, complete_accept]

end Sys2Proof.Machine

namespace Sys2Proof

/-! ## The obligations of `44_control_ops.md` -/

/-- Settles O12: NOP is an instant command, so `CHF` is not tested, and it only completes. -/
theorem nopResult : Obligations.NopResult := by
  refine fun s hb => ⟨?_, rfl, rfl⟩
  rw [Machine.exec_nop_idle hb, Machine.complete_accept]

/-- Settles O13: each code is an instance of `Machine.exec_reserved_idle`. -/
theorem reservedCodesComplete : Obligations.ReservedCodesComplete := fun _ hb =>
  ⟨Machine.exec_reserved_idle (op := 0xB) hb (by decide), Machine.exec_reserved_idle (op := 0xC) hb (by decide),
    Machine.exec_reserved_idle (op := 0xD) hb (by decide), Machine.exec_reserved_idle (op := 0xE) hb (by decide),
    Machine.exec_reserved_idle (op := 0xF) hb (by decide), rfl, rfl, rfl, rfl, rfl⟩

end Sys2Proof

/-! The encodings (`30_encoding.md`): decode and encode are inverse to each other, word by word. -/

namespace Sys2Proof

/-! ## Command words -/

@[simp] theorem opField_cmdWord (op : BitVec 4) : opField (cmdWord op) = op := by
  apply BitVec.eq_of_toNat_eq
  have := op.isLt
  simp [opField, cmdWord]
  omega

/-- The command word of a code decodes to the operation of the code. -/
theorem decode_cmdWord (c : Config) (op : BitVec 4) : decode c (.cmd (cmdWord op)) = .ok (decodeOp op) := by
  rw [decode, opField_cmdWord]

/-- Every operation of a code is well formed, and its word is the code's. -/
theorem encode_decodeOp (c : Config) (op : BitVec 4) :
    (decodeOp op).wellFormed = true ∧ encode c (decodeOp op) = .cmd (cmdWord op) := by
  obtain ⟨n, rfl⟩ : ∃ n : Fin 16, op = BitVec.ofFin n := ⟨op.toFin, rfl⟩
  fin_cases n <;> exact ⟨rfl, rfl⟩

/-! ## Wire symbols -/

theorem checkLit_iff (b : Byte) : checkLit b = true ↔ b ≠ Config.delim ∧ b ≠ Config.esc := by simp [checkLit]

theorem checkEscBad_iff (t : Byte) : checkEscBad t = true ↔ t ≠ Config.escDelim ∧ t ≠ Config.escEsc := by
  simp [checkEscBad]

theorem decodeSymbol_lit {b : Byte} (h : checkLit b = true) : decodeSymbol [b] = .ok (.lit b) := by
  obtain ⟨hd, he⟩ := (checkLit_iff b).1 h
  rw [decodeSymbol, if_neg he, if_neg hd]

theorem decodeSymbol_escBad {t : Byte} (h : checkEscBad t = true) :
    decodeSymbol [Config.esc, t] = .ok (.escBad t) := by
  obtain ⟨hd, he⟩ := (checkEscBad_iff t).1 h
  rw [decodeSymbol, if_pos rfl, if_neg hd, if_neg he]

/-- The bytes that decode as a symbol: one literal, the delimiter, or an escape byte with its second byte (R90). -/
theorem decodeSymbol_ok {bytes : List Byte} {i : Instr} (h : decodeSymbol bytes = .ok i) :
    (∃ b, bytes = [b] ∧ i = .lit b ∧ checkLit b = true) ∨ (bytes = [Config.delim] ∧ i = .wireEnd) ∨
    (bytes = [Config.esc, Config.escDelim] ∧ i = .escEnd) ∨ (bytes = [Config.esc, Config.escEsc] ∧ i = .escEsc) ∨
    (∃ t, bytes = [Config.esc, t] ∧ i = .escBad t ∧ checkEscBad t = true) := by
  match bytes with
  | [] => cases h
  | [p] =>
    rw [decodeSymbol] at h
    by_cases he : p = Config.esc
    · rw [if_pos he] at h; cases h
    · rw [if_neg he] at h
      by_cases hd : p = Config.delim
      · rw [if_pos hd] at h
        exact .inr (.inl ⟨by rw [hd], (Except.ok.inj h).symm⟩)
      · rw [if_neg hd] at h
        exact .inl ⟨p, rfl, (Except.ok.inj h).symm, (checkLit_iff p).2 ⟨hd, he⟩⟩
  | [p, t] =>
    rw [decodeSymbol] at h
    by_cases he : p = Config.esc
    · subst he
      rw [if_pos rfl] at h
      by_cases h₁ : t = Config.escDelim
      · rw [if_pos h₁] at h
        exact .inr (.inr (.inl ⟨by rw [h₁], (Except.ok.inj h).symm⟩))
      · rw [if_neg h₁] at h
        by_cases h₂ : t = Config.escEsc
        · rw [if_pos h₂] at h
          exact .inr (.inr (.inr (.inl ⟨by rw [h₂], (Except.ok.inj h).symm⟩)))
        · rw [if_neg h₂] at h
          exact .inr (.inr (.inr (.inr ⟨t, rfl, (Except.ok.inj h).symm, (checkEscBad_iff t).2 ⟨h₁, h₂⟩⟩)))
    · rw [if_neg he] at h; cases h
  | _ :: _ :: _ :: _ => cases h

/-! ## Headers -/

theorem decodeHeader_toList (h : HdrBytes) :
    decodeHeader h.toList = .ok (.header h.direction h.command h.size h.value) := rfl

theorem HdrBytes.toList_of_ofList {bytes : List Byte} {h : HdrBytes} (hb : HdrBytes.ofList bytes = some h) :
    bytes = h.toList := by
  unfold HdrBytes.ofList at hb
  split at hb
  · obtain rfl := Option.some.inj hb
    rfl
  · cases hb

/-- The bytes that decode as a header: those of its record (R96). -/
theorem decodeHeader_ok {bytes : List Byte} {i : Instr} (hd : decodeHeader bytes = .ok i) :
    ∃ h : HdrBytes, bytes = h.toList ∧ i = .header h.direction h.command h.size h.value := by
  unfold decodeHeader at hd
  split at hd
  · next h hb => exact ⟨h, HdrBytes.toList_of_ofList hb, (Except.ok.inj hd).symm⟩
  · cases hd

/-! ## Command codes -/

/-- In a legal configuration the nine codes are pairwise different (R7, D29). -/
theorem Config.cc_nodup {c : Config} (h : c.wf = true) : c.cc.toList.Nodup := by
  simp only [Config.wf, Bool.and_eq_true, decide_eq_true_eq] at h
  exact h.2

/-- The code of a command, for the nine rows of format CC; `none` for every other row. -/
def Instr.codeOf (c : CommandCodes) : Instr → Option Byte
  | .ccFlashBegin => some c.flashBegin
  | .ccFlashData => some c.flashData
  | .ccFlashEnd => some c.flashEnd
  | .ccMemBegin => some c.memBegin
  | .ccMemEnd => some c.memEnd
  | .ccMemData => some c.memData
  | .ccSync => some c.sync
  | .ccWriteReg => some c.writeReg
  | .ccReadReg => some c.readReg
  | _ => none

/-- Different codes decode each to its own row (R216). -/
theorem decodeCode_codeOf {c : CommandCodes} (hn : c.toList.Nodup) {i : Instr} {b : Byte} (hb : i.codeOf c = some b) :
    decodeCode c b = .ok i := by
  simp only [CommandCodes.toList, List.nodup_cons, List.mem_cons, List.not_mem_nil, or_false, not_or] at hn
  unfold Instr.codeOf at hb
  split at hb
  case h_10 => cases hb
  all_goals
    obtain rfl := Option.some.inj hb
    simp [decodeCode, hn, eq_comm]

/-- A byte that decodes as a code is the code of its row. -/
theorem codeOf_decodeCode {c : CommandCodes} {b : Byte} {i : Instr} (h : decodeCode c b = .ok i) :
    i.codeOf c = some b := by
  unfold decodeCode at h
  repeat' split at h
  case isFalse => cases h
  all_goals
    obtain rfl := Except.ok.inj h
    subst b
    rfl

/-- A row with a code is well formed, and its word is the code. -/
theorem encode_codeOf {c : Config} {i : Instr} {b : Byte} (h : i.codeOf c.cc = some b) :
    i.wellFormed = true ∧ encode c i = .code b := by
  unfold Instr.codeOf at h
  split at h
  case h_10 => cases h
  all_goals
    obtain rfl := Option.some.inj h
    exact ⟨rfl, rfl⟩

/-! ## The obligations of decode and encode -/

/-- Settles O4, by the four formats: a command word carries its code back, a well-formed symbol its byte, a header its
four fields, and a command code is met first at its own row, the nine being different. -/
theorem decodeUndoesEncode : Obligations.DecodeUndoesEncode := by
  intro c i hc hi
  have code {b : Byte} (hb : i.codeOf c.cc = some b) (he : encode c i = .code b) : decode c (encode c i) = .ok i := by
    rw [he, decode, decodeCode_codeOf (Config.cc_nodup hc) hb]
  cases i
  case lit b => exact decodeSymbol_lit hi
  case wireEnd | escEnd | escEsc => rfl
  case escBad t => exact decodeSymbol_escBad hi
  case header d k z v =>
    rw [encode, decode, decodeHeader_toList]
    simp
  case ccFlashBegin | ccFlashData | ccFlashEnd | ccMemBegin | ccMemEnd | ccMemData | ccSync | ccWriteReg | ccReadReg =>
    exact code rfl rfl
  all_goals exact decode_cmdWord c _

/-- Settles O5, by the four formats: what decodes has the shape its decoder read, and that shape is encoded back. -/
theorem decodedWordsReencode : Obligations.DecodedWordsReencode := by
  intro c e i h
  cases e with
  | cmd v =>
    obtain rfl := Except.ok.inj h
    exact encode_decodeOp c (opField v)
  | wire bytes =>
    rcases decodeSymbol_ok h with ⟨b, rfl, rfl, hb⟩ | ⟨rfl, rfl⟩ | ⟨rfl, rfl⟩ | ⟨rfl, rfl⟩ | ⟨t, rfl, rfl, ht⟩
    · exact ⟨hb, rfl⟩
    · exact ⟨rfl, rfl⟩
    · exact ⟨rfl, rfl⟩
    · exact ⟨rfl, rfl⟩
    · exact ⟨ht, rfl⟩
  | hdr bytes =>
    obtain ⟨h, rfl, rfl⟩ := decodeHeader_ok h
    exact ⟨rfl, by rw [encode, HdrBytes.ofFields_fields]⟩
  | code b => exact encode_codeOf (codeOf_decodeCode h)

/-- Settles O3: a symbol's or code's row is found by comparing closed bytes. -/
theorem sampleWordsDecode : Obligations.SampleWordsDecode := by
  unfold Obligations.SampleWordsDecode
  decide

end Sys2Proof

/-! The invariant of the machine: reset has it, every step keeps it, from it no step stops, and from it the phases go as
the transition table says (`44_control_ops.md` R210). -/

namespace Sys2Proof.Machine

/-! ## One turn by its phases -/

/-- The transmit escaper either puts the escape byte, the logical byte unfinished, or puts one byte and advances
(`40_framing_codec.md` R120). -/
theorem txEscape_cases (cur : Byte) (adv : State → State) (s : State) :
    (s.finishes cur = false ∧ txEscape cur adv s = { s with txlog := s.txlog ++ [Config.esc], escp := true }) ∨
    (s.finishes cur = true ∧ ∃ b, txEscape cur adv s = adv { s with txlog := s.txlog ++ [b], escp := false }) := by
  cases he : s.escp with
  | true => exact .inr ⟨by simp [State.finishes, he], _, txEscape_second adv he⟩
  | false =>
    by_cases hc : cur = Config.delim ∨ cur = Config.esc
    · exact .inl ⟨by rcases hc with rfl | rfl <;> simp [State.finishes, he, needsEscape], txEscape_first adv he hc⟩
    · obtain ⟨hd, hc⟩ := not_or.1 hc
      refine .inr ⟨by simp [State.finishes, needsEscape, hd, hc], cur, ?_⟩
      rw [txEscape_literal adv he hd hc, ← he]

/-- The receive unescaper by what the byte is to it: the escape byte, a bad second byte, or a logical byte (R121). -/
theorem unescape_takes (p : Byte) (s : State) :
    unescape p s =
      match s.takes p with
      | none => .next { s with escp := true }
      | some none => .next (complete .framing { s with escp := false })
      | some (some b) => deliver b { s with escp := false } := by
  cases he : s.escp with
  | true =>
    rw [unescape, if_pos he, unescapePair, State.takes, if_pos he]
    cases unpair p <;> rfl
  | false =>
    have hne : ¬ s.escp = true := by simp [he]
    by_cases hp : p = Config.esc
    · have ht : s.takes p = none := by rw [State.takes, if_neg hne, if_pos hp]
      rw [ht, unescape, if_neg hne, if_pos hp]
    · have ht : s.takes p = some (some p) := by rw [State.takes, if_neg hne, if_neg hp]
      rw [ht, unescape, if_neg hne, if_neg hp, ← he]

/-- The turn of a phase that takes bytes, with one in `RXQ` (`10_state.md` R40). -/
theorem blockStep_takes {s : State} {p : Byte} {q : List Byte}
    (h : s.ph = .dec ∨ s.ph = .rWait ∨ s.ph = .rHdr ∨ s.ph = .rPay ∨ s.ph = .flush) (hq : s.rxq = p :: q) :
    blockStep s = receive p { s with rxq := q } := by
  rcases h with h | h | h | h | h <;> simp only [blockStep, h, hq]

/-- A receive phase waits for its byte (log 17). -/
theorem blockStep_waits {s : State} (h : s.ph = .dec ∨ s.ph = .rWait ∨ s.ph = .rHdr ∨ s.ph = .rPay)
    (hq : s.rxq = []) : blockStep s = .next s := by
  rcases h with h | h | h | h <;> simp only [blockStep, h, hq]

/-- With `RXQ` empty the flush ends (`42_packet_rx.md` R178). -/
theorem blockStep_flushEnd {s : State} (h : s.ph = .flush) (hq : s.rxq = []) :
    blockStep s = .next (complete .none s) := by simp only [blockStep, h, hq]

/-! ## Progress -/

/-- The invariant keeps every index of a delivery inside the header or the buffer (`20_memory.md` R77). -/
theorem deliver_answers {s : State} (h : Invariant s) (b : Byte) : ∃ t, deliver b s = .next t := by
  unfold deliver
  cases hp : s.ph
  case rHdr =>
    have hi := (h.recv_hdr hp).1
    simp only [deliverHeader]
    by_cases h7 : s.idx.toNat < 7
    · exact ⟨_, if_pos h7⟩
    · rw [if_neg h7, if_pos (by omega)]
      exact ⟨_, rfl⟩
  case rPay =>
    obtain ⟨hi, hz, -⟩ := h.recv_pay hp
    have hd := h.recv_fits (by simp [hp, Phase.ofRecv])
    simp only [deliverPayload]
    rw [if_pos (by omega)]
    split <;> exact ⟨_, rfl⟩
  all_goals exact ⟨_, rfl⟩

theorem unescape_answers {s : State} (h : Invariant s) (hp : s.ph = .dec ∨ s.ph = .rHdr ∨ s.ph = .rPay) (p : Byte) :
    ∃ t, unescape p s = .next t := by
  rw [unescape_takes]
  split
  · exact ⟨_, rfl⟩
  · exact ⟨_, rfl⟩
  · exact deliver_answers (invariant_escp h hp false) _

theorem receive_answers {s : State} (h : Invariant s) (p : Byte) : ∃ t, receive p s = .next t := by
  by_cases hp : s.ph = .dec ∨ s.ph = .rHdr ∨ s.ph = .rPay
  · rw [receive_unescapes hp]
    exact unescape_answers h hp p
  · unfold receive
    split
    case h_2 | h_3 | h_4 => tauto
    all_goals exact ⟨_, rfl⟩

theorem blockStep_answers {s : State} (h : Invariant s) : ∃ t, blockStep s = .next t := by
  by_cases hr : s.ph = .dec ∨ s.ph = .rWait ∨ s.ph = .rHdr ∨ s.ph = .rPay ∨ s.ph = .flush
  · cases hq : s.rxq with
    | cons p q =>
      rw [blockStep_takes hr hq]
      exact receive_answers (invariant_rxq h q) p
    | nil =>
      by_cases hf : s.ph = .flush
      · exact ⟨_, blockStep_flushEnd hf hq⟩
      · exact ⟨_, blockStep_waits (by tauto) hq⟩
  · unfold blockStep
    cases hp : s.ph
    case dec | rWait | rHdr | rPay | flush => simp [hp] at hr
    case sHdr => exact ⟨_, if_pos (h.send_hdr hp)⟩
    case sPay =>
      have hi := h.send_pay hp
      have hz := h.send_fits (by simp [hp, Phase.ofSend])
      exact ⟨_, if_pos (by omega)⟩
    all_goals exact ⟨_, rfl⟩

/-! ## The phase after a turn -/

/-- The capacity check leads out of `R_HDR` as the table says (`42_packet_rx.md` R166). -/
theorem headerReceived_ph (s : State) :
    (headerReceived s).ph =
      if s.hdrb.size.toNat > s.rxcap.toNat then .idle else if s.hdrb.size = 0 then .idle else .rPay := by
  unfold headerReceived
  split
  · rfl
  · split <;> rfl

/-- The last header byte is no byte of the field `size` (`30_encoding.md` R97). -/
@[simp] theorem set_seven_size (h : HdrBytes) (b : Byte) : (h.set 7 b).size = h.size := rfl

theorem deliver_ph {s t : State} {b : Byte} (h : Invariant s) (hd : deliver b s = .next t) :
    t.ph = match s.ph with
      | .dec => .idle
      | .rHdr =>
        if s.idx.toNat < 7 then .rHdr
        else if s.hdrb.size.toNat > s.rxcap.toNat then .idle
        else if s.hdrb.size = 0 then .idle
        else .rPay
      | .rPay => if s.idx.toNat + 1 < s.hdrb.size.toNat then .rPay else .idle
      | ph => ph := by
  unfold deliver at hd
  cases hp : s.ph <;> simp only [hp] at hd
  case rHdr =>
    unfold deliverHeader at hd
    split at hd
    · next h7 =>
      obtain rfl := Host.Outcome.next.inj hd
      simp only [if_pos h7, hp]
    · next h7 =>
      simp only [if_neg h7]
      split at hd
      · obtain rfl := Host.Outcome.next.inj hd
        rw [headerReceived_ph, set_seven_size]
      · cases hd
  case rPay =>
    have hi := (h.recv_pay hp).1
    unfold deliverPayload at hd
    split at hd
    · split at hd
      · obtain rfl := Host.Outcome.next.inj hd
        simp only [if_neg (show ¬ s.idx.toNat + 1 < s.hdrb.size.toNat by omega), complete_ph]
      · obtain rfl := Host.Outcome.next.inj hd
        simp only [if_pos (show s.idx.toNat + 1 < s.hdrb.size.toNat by omega), storePayload_ph, hp]
    · cases hd
  all_goals
    obtain rfl := Host.Outcome.next.inj hd
    simp [hp]

theorem unescape_ph {s t : State} {p : Byte} (h : Invariant s) (hp : s.ph = .dec ∨ s.ph = .rHdr ∨ s.ph = .rPay)
    (ht : unescape p s = .next t) : t.ph = phaseTaken s p := by
  rw [unescape_takes] at ht
  unfold phaseTaken
  cases hk : s.takes p with
  | none =>
    rw [hk] at ht
    obtain rfl := Host.Outcome.next.inj ht
    rcases hp with hp | hp | hp <;> simp [hp]
  | some o =>
    cases o with
    | none =>
      rw [hk] at ht
      obtain rfl := Host.Outcome.next.inj ht
      rcases hp with hp | hp | hp <;> simp [hp]
    | some b =>
      rw [hk] at ht
      rw [deliver_ph (invariant_escp h hp false) ht]
      rcases hp with hp | hp | hp <;> simp [hp]

theorem receive_ph {s t : State} {p : Byte} (h : Invariant s)
    (hp : s.ph = .dec ∨ s.ph = .rWait ∨ s.ph = .rHdr ∨ s.ph = .rPay ∨ s.ph = .flush) (ht : receive p s = .next t) :
    t.ph = phaseTaken s p := by
  by_cases hu : s.ph = .dec ∨ s.ph = .rHdr ∨ s.ph = .rPay
  · rw [receive_unescapes hu] at ht
    exact unescape_ph h hu ht
  · unfold receive at ht
    obtain hw | hf : s.ph = .rWait ∨ s.ph = .flush := by tauto
    · simp only [hw] at ht
      obtain rfl := Host.Outcome.next.inj ht
      simp only [phaseTaken, hw, firstByte]
      split <;> rfl
    · simp only [hf] at ht
      obtain rfl := Host.Outcome.next.inj ht
      simp only [phaseTaken, hf]

/-- A put byte leaves the phase, or ends it as the operation's `advance` says (`40_framing_codec.md` R120). -/
theorem txEscape_ph {s : State} {cur : Byte} {adv : State → State} {after : Phase}
    (h : ∀ l, (adv { s with txlog := l, escp := false }).ph = after) :
    (txEscape cur adv s).ph = if s.finishes cur then after else s.ph := by
  rcases txEscape_cases cur adv s with ⟨hf, he⟩ | ⟨hf, b, he⟩
  · rw [he, hf]; rfl
  · rw [he, hf, h]; rfl

theorem hdrAdvance_ph (s : State) :
    (hdrAdvance s).ph = if s.idx.toNat < 7 then s.ph else if s.txsize = 0 then .sClose else .sPay := by
  unfold hdrAdvance
  split
  · rfl
  · split <;> rfl

theorem payAdvance_ph (s : State) :
    (payAdvance s).ph = if s.idx.toNat + 1 < s.txsize.toNat then s.ph else .sClose := by
  unfold payAdvance
  split <;> rfl

/-- The phase after the turn of a phase that takes bytes (`44_control_ops.md` R210). -/
theorem blockStep_takes_ph {s t : State}
    (hp : s.ph = .dec ∨ s.ph = .rWait ∨ s.ph = .rHdr ∨ s.ph = .rPay ∨ s.ph = .flush) (h : Invariant s)
    (hs : blockStep s = .next t) : t.ph = phaseTurn s := by
  cases hq : s.rxq with
  | nil =>
    by_cases hf : s.ph = .flush
    · rw [blockStep_flushEnd hf hq] at hs
      obtain rfl := Host.Outcome.next.inj hs
      simp [phaseTurn, hf, hq]
    · have hw : s.ph = .dec ∨ s.ph = .rWait ∨ s.ph = .rHdr ∨ s.ph = .rPay := by tauto
      rw [blockStep_waits hw hq] at hs
      obtain rfl := Host.Outcome.next.inj hs
      rcases hw with hw | hw | hw | hw <;> simp [phaseTurn, hw, hq]
  | cons p q =>
    rw [blockStep_takes hp hq] at hs
    have ht : t.ph = phaseTaken s p := receive_ph (s := { s with rxq := q }) (invariant_rxq h q) hp hs
    rw [ht]
    rcases hp with hp | hp | hp | hp | hp <;> simp [phaseTurn, phaseTaken, hp, hq]

/-- The block's turn goes from phase to phase as the table says (`44_control_ops.md` R210). -/
theorem blockStep_ph {s t : State} (h : Invariant s) (hs : blockStep s = .next t) : t.ph = phaseTurn s := by
  cases hp : s.ph
  case dec | rWait | rHdr | rPay | flush => exact blockStep_takes_ph (by simp [hp]) h hs
  all_goals simp only [blockStep, hp] at hs
  case idle =>
    obtain rfl := Host.Outcome.next.inj hs
    simp [phaseTurn, hp]
  case enc =>
    obtain rfl := Host.Outcome.next.inj hs
    rw [encbPut, txEscape_ph (after := .idle) (fun _ => rfl)]
    simp [phaseTurn, hp]
  case sHdr =>
    rw [hdrPut, if_pos (h.send_hdr hp)] at hs
    obtain rfl := Host.Outcome.next.inj hs
    rw [txEscape_ph (after := (hdrAdvance s).ph) (fun _ => by simp only [hdrAdvance_ph]), hdrAdvance_ph]
    cases hf : s.finishes (s.txHeader.get s.idx.toNat) <;> simp [phaseTurn, hp, hf]
  case sPay =>
    unfold payPut at hs
    split at hs
    · obtain rfl := Host.Outcome.next.inj hs
      rw [txEscape_ph (after := (payAdvance s).ph) (fun _ => by simp only [payAdvance_ph]), payAdvance_ph]
      cases hf : s.finishes (s.txByte s.idx.toNat) <;> simp [phaseTurn, hp, hf]
    · cases hs
  all_goals
    obtain rfl := Host.Outcome.next.inj hs
    simp [phaseTurn, hp, delimPut, openPut, closePut]

/-! ## The phase after an event -/

/-- A host write to a location other than `CMD` is no transition. -/
theorem hostStore_ph (a : Loc) (v : Word) (s : State) : (hostStore a v s).ph = s.ph := by
  rcases store_cases a v s with ⟨_, h⟩ | ⟨_, _, _, _, _, _, _, h⟩ | ⟨_, _, _, _, _, h⟩ <;> rw [h]

/-- In a legal configuration the timer's 15 bits hold the window, so a tick before it does not wrap (R36, log 21). -/
theorem tmr_succ_toNat {s : State} (h : Invariant s) (hp : s.ph = .rWait) : (s.tmr + 1).toNat = s.tmr.toNat + 1 := by
  have hw := (h.recv_wait hp).1
  have hc := h.cfg_wf
  simp only [Config.wf, Bool.and_eq_true, decide_eq_true_eq] at hc
  rw [BitVec.toNat_add]
  simp
  omega

theorem tick_ph {s : State} (h : Invariant s) :
    (tick s).ph = if s.ph = .rWait ∧ s.rxq = [] ∧ s.tmr.toNat + 1 = s.cfg.rxTimeoutMs then .idle else s.ph := by
  by_cases hw : s.ph = .rWait ∧ s.rxq = []
  · obtain ⟨hp, hq⟩ := hw
    rw [tick_waiting hp hq, tmr_succ_toNat h hp]
    by_cases ht : s.tmr.toNat + 1 = s.cfg.rxTimeoutMs
    · rw [if_pos ht, if_pos ⟨hp, hq, ht⟩, complete_ph]
    · rw [if_neg ht, if_neg (by tauto)]
  · rw [tick_eq_self hw, if_neg (by tauto)]

theorem chanFault_ph (s : State) : (chanFault s).ph = .idle := by
  unfold chanFault
  split
  · rfl
  · next hb => exact (busy_eq_false_iff s).1 (not_busy hb)

/-! ## The obligations -/

/-- Settles O56: each of the eight kinds of step keeps the invariant. -/
theorem stepKeepsInvariant : Obligations.StepKeepsInvariant := by
  intro s t h hs
  have hr (l : List Event) := invariant_inputs h l
  rcases step_cases hs with ⟨u, hu, ht⟩ | ⟨v, rest, -, rfl⟩ | ⟨a, v, rest, -, -, rfl⟩ | ⟨a, rest, -, rfl⟩ |
    ⟨b, rest, -, rfl⟩ | ⟨rest, -, rfl⟩ | ⟨rest, -, rfl⟩ | ⟨rest, -, rfl⟩
  · obtain ⟨l, rfl⟩ := turn_eq hu
    exact invariant_blockStep (hr l) ht
  · split
    · exact invariant_ovr (hr rest) true
    · next hb => exact invariant_accepted (hr rest) ((busy_eq_false_iff s).1 (not_busy hb)) _
  · exact invariant_hostStore (hr rest) a v
  · exact invariant_hostLog (hr rest) _
  · exact invariant_rxq (hr rest) _
  · exact invariant_tick (hr rest)
  · exact invariant_chanFault (hr rest)
  · exact invariant_resetBlock (hr rest)

/-- Settles O57: an event always has its effect, a command too, and the block's turn by the invariant's ranges. -/
theorem noStepStops : Obligations.NoStepStops := by
  intro s h
  cases hin : s.inputs with
  | nil =>
    rw [step_no_input hin]
    exact blockStep_answers h
  | cons e rest =>
    cases e with
    | hostWrite a v =>
      by_cases ha : a = 0x00
      · subst ha
        exact ⟨_, (step_cmd hin).trans (exec_decodeOp _ _)⟩
      · exact ⟨_, step_write hin ha⟩
    | hostRead a => exact ⟨_, step_read hin⟩
    | arrive b => exact ⟨_, step_arrive hin⟩
    | tick => exact ⟨_, step_tick hin⟩
    | chanFault => exact ⟨_, step_chanFault hin⟩
    | reset => exact ⟨_, step_reset hin⟩
    | block =>
      rw [step_block hin]
      exact blockStep_answers (invariant_inputs h rest)

/-- Settles O54: the block's turn is `blockStep_ph`, an accepted command the last field of `accepted_frame`, and each
other event has its row. -/
theorem phaseTransitions : Obligations.PhaseTransitions := by
  intro s t h hs
  rcases step_cases hs with ⟨u, hu, ht⟩ | ⟨v, rest, hin, rfl⟩ | ⟨a, v, rest, hin, ha, rfl⟩ | ⟨a, rest, hin, rfl⟩ |
    ⟨b, rest, hin, rfl⟩ | ⟨rest, hin, rfl⟩ | ⟨rest, hin, rfl⟩ | ⟨rest, hin, rfl⟩
  · unfold State.turn at hu
    split at hu
    · next hin =>
      obtain rfl := Option.some.inj hu
      simp only [hin]
      exact blockStep_ph h ht
    · next rest hin =>
      obtain rfl := Option.some.inj hu
      simp only [hin]
      exact blockStep_ph (s := { s with inputs := rest }) (invariant_inputs h rest) ht
    · cases hu
  all_goals simp only [hin, phaseAfter]
  · by_cases hb : s.busy = true
    · rw [if_pos hb, if_neg (by simp [(busy_eq_true_iff s).1 hb])]
    · have hp := (busy_eq_false_iff s).1 (not_busy hb)
      rw [if_neg hb, if_pos (by simp [hp])]
      exact (accepted_frame (opField v) { s with inputs := rest }).ph
  · rw [if_neg (by tauto)]
    exact hostStore_ph a v _
  · rfl
  · exact tick_ph (invariant_inputs h rest)
  · exact chanFault_ph _
  · rfl

/-- Settles O55: every field of the invariant is a closed comparison on the reset state. -/
theorem resetMeetsInvariant : Obligations.ResetMeetsInvariant := by
  unfold Obligations.ResetMeetsInvariant
  constructor <;> decide

end Sys2Proof.Machine

/-! Codec, checksum and planner laws: what encoding and checksum do to whole sequences (`30_encoding.md` R92 to R95,
`40_framing_codec.md` section 5, `43_checksum.md` section 5), and the erase size of `45_host_session_reference.md`. -/

namespace Sys2Proof

/-! ## Encoded sequences -/

@[simp] theorem decN_zero (q : List Byte) : decN 0 q = some ([], q) := rfl

theorem decN_of_dec1 {n : Nat} {q q' r s : List Byte} {b : Byte} (h : dec1 q = .ok b q')
    (hn : decN n q' = some (s, r)) : decN (n + 1) q = some (b :: s, r) := by simp only [decN, h, hn]

/-- Decoding undoes encoding, a whole sequence (R93, law (a)). -/
theorem decN_encs (s r : List Byte) : decN s.length (encs s ++ r) = some (s, r) := by
  induction s with
  | nil => rfl
  | cons b s ih =>
    rw [encs_cons, List.append_assoc]
    exact decN_of_dec1 (dec1_enc b _) ih

theorem delim_not_mem_enc (b : Byte) : Config.delim ∉ enc b := by
  rcases enc_cases b with ⟨-, h⟩ | ⟨-, h⟩ | ⟨hd, -, h⟩
  · rw [h]; decide
  · rw [h]; decide
  · rw [h, List.mem_singleton]
    exact Ne.symm hd

/-- Law (b), its first half: no delimiter is encoded as itself. -/
theorem delim_not_mem_encs (s : List Byte) : Config.delim ∉ encs s := by
  induction s with
  | nil => exact List.not_mem_nil
  | cons b s ih =>
    rw [encs_cons, List.mem_append]
    exact not_or.2 ⟨delim_not_mem_enc b, ih⟩

/-- An escape byte in a pair is followed by its second byte, wherever the sequence is cut. -/
theorem pair_then_cut {t : Byte} {q l r : List Byte} (ht : t = Config.escDelim ∨ t = Config.escEsc)
    (hq : ∀ l, q = l ++ Config.esc :: r → ∃ t r', r = t :: r' ∧ (t = Config.escDelim ∨ t = Config.escEsc))
    (h : Config.esc :: t :: q = l ++ Config.esc :: r) :
    ∃ t r', r = t :: r' ∧ (t = Config.escDelim ∨ t = Config.escEsc) := by
  match l with
  | [] =>
    obtain rfl := (List.cons.inj h).2
    exact ⟨t, q, rfl, ht⟩
  | [_] =>
    obtain rfl := (List.cons.inj (List.cons.inj h).2).1
    rcases ht with ht | ht <;> exact absurd ht (by decide)
  | _ :: _ :: l => exact hq l (List.cons.inj (List.cons.inj h).2).2

/-- Law (b), its second half: no escape byte stands alone. -/
theorem esc_in_encs_is_a_pair (s l r : List Byte) (h : encs s = l ++ Config.esc :: r) :
    ∃ t r', r = t :: r' ∧ (t = Config.escDelim ∨ t = Config.escEsc) := by
  induction s generalizing l with
  | nil => simp [encs_nil] at h
  | cons b s ih =>
    rw [encs_cons] at h
    rcases enc_cases b with ⟨-, he⟩ | ⟨-, he⟩ | ⟨-, hb, he⟩
    · rw [he] at h
      exact pair_then_cut (.inl rfl) ih h
    · rw [he] at h
      exact pair_then_cut (.inr rfl) ih h
    · rw [he] at h
      cases l with
      | nil => exact absurd (List.cons.inj h).1 hb
      | cons c l => exact ih l (List.cons.inj h).2

/-- How long an encoded sequence is (R95). -/
theorem length_encs (s : List Byte) : (encs s).length = s.length + escapes s := by
  induction s with
  | nil => rfl
  | cons b s ih =>
    rw [encs_cons, List.length_append, length_enc, ih, escapes_cons b s, List.length_cons]
    omega

theorem escapes_le_length (s : List Byte) : escapes s ≤ s.length := List.countP_le_length

/-- Law (c): encoding goes byte by byte. -/
theorem encs_append (s t : List Byte) : encs (s ++ t) = encs s ++ encs t := by
  induction s with
  | nil => rfl
  | cons b s ih => rw [List.cons_append, encs_cons, encs_cons, ih, List.append_assoc]

theorem enc_ne_nil (b : Byte) : enc b ≠ [] := by
  rcases enc_cases b with ⟨-, h⟩ | ⟨-, h⟩ | ⟨-, -, h⟩ <;> simp [h]

/-- Law (d): the first logical byte is what `dec1` reads, and the rest is what it leaves. -/
theorem encs_injective (s t : List Byte) (h : encs s = encs t) : s = t := by
  induction s generalizing t with
  | nil =>
    cases t with
    | nil => rfl
    | cons c t => exact absurd (List.append_eq_nil_iff.1 h.symm).1 (enc_ne_nil c)
  | cons b s ih =>
    cases t with
    | nil => exact absurd (List.append_eq_nil_iff.1 h).1 (enc_ne_nil b)
    | cons c t =>
      have hd : dec1 (encs (b :: s)) = dec1 (encs (c :: t)) := by rw [h]
      rw [encs_cons, encs_cons, dec1_enc, dec1_enc] at hd
      obtain ⟨rfl, hst⟩ := Dec.ok.inj hd
      rw [ih t hst]

/-! ## The checksum of a sequence -/

namespace Machine

/-- The exclusive or of all bytes: what the checksum adds to its initial value (R190). -/
def xorAll (s : List Byte) : Byte := s.foldl (fun a b => a ^^^ b) 0

theorem checksum_eq_xorAll (s : List Byte) : checksum s = Config.ckInit ^^^ (xorAll s).setWidth 32 := checksum_eq_xor s

theorem foldl_xor (s : List Byte) (a : Byte) : s.foldl (fun a b => a ^^^ b) a = a ^^^ xorAll s := by
  have h : s.foldl (fun a b => a ^^^ b) (a ^^^ 0) = a ^^^ s.foldl (fun a b => a ^^^ b) 0 := List.foldl_assoc
  simpa [xorAll] using h

theorem xorAll_append (s t : List Byte) : xorAll (s ++ t) = xorAll s ^^^ xorAll t := by
  rw [xorAll, List.foldl_append, foldl_xor t]
  rfl

theorem xorAll_cons (b : Byte) (s : List Byte) : xorAll (b :: s) = b ^^^ xorAll s := by
  rw [xorAll, List.foldl_cons, foldl_xor]
  simp

theorem xorAll_perm {s t : List Byte} (h : s.Perm t) : xorAll s = xorAll t := by
  induction h with
  | nil => rfl
  | cons b _ ih => rw [xorAll_cons, xorAll_cons, ih]
  | swap b c s => rw [xorAll_cons, xorAll_cons, xorAll_cons, xorAll_cons, ← BitVec.xor_assoc, BitVec.xor_comm c b,
      BitVec.xor_assoc]
  | trans _ _ ih₁ ih₂ => rw [ih₁, ih₂]

/-- Two sequences have the same checksum where their exclusive ors agree: widening a byte loses nothing. -/
theorem checksum_eq_iff (s t : List Byte) : checksum s = checksum t ↔ xorAll s = xorAll t := by
  rw [checksum_eq_xorAll, checksum_eq_xorAll, BitVec.xor_right_inj]
  refine ⟨fun h => ?_, fun h => by rw [h]⟩
  have h8 := congrArg (BitVec.setWidth 8) h
  simpa using h8

theorem checksum_append (s t : List Byte) : checksum (s ++ t) = checksum s ^^^ checksum t ^^^ Config.ckInit := by
  rw [checksum_eq_xorAll, checksum_eq_xorAll s, checksum_eq_xorAll t, xorAll_append, BitVec.setWidth_xor]
  ac_nf
  rw [← BitVec.xor_assoc Config.ckInit Config.ckInit, BitVec.xor_self, BitVec.zero_xor]

theorem checksum_le (s : List Byte) : (checksum s).toNat ≤ 0xFF := by
  have h : (ckFold Config.ckInit (xorAll s)).toNat < 256 := ckFold_byte (by decide) _
  rw [checksum_eq_xorAll]
  exact Nat.le_of_lt_succ h

end Machine

/-! ## The erase size -/

namespace Machine.Session

theorem ceilDiv_mono {a b : Nat} (h : a ≤ b) (d : Nat) : ceilDiv a d ≤ ceilDiv b d :=
  Nat.div_le_div_right (by omega)

/-- The second branch (R235). -/
theorem eraseSize_large {offset size : Nat} (h : 2 * headSectors offset ≤ ceilDiv size sectorSize) :
    eraseSize offset size = (ceilDiv size sectorSize - headSectors offset) * sectorSize := if_neg (Nat.not_lt.2 h)

/-- The first branch, as the document gives it (R235, R236). -/
theorem eraseSize_small {offset size : Nat} (h : ceilDiv size sectorSize < 2 * headSectors offset) :
    eraseSize offset size = ceilDiv (ceilDiv size sectorSize) (2 * sectorSize) := if_pos h

theorem headSectors_le (offset : Nat) : headSectors offset ≤ 16 := Nat.sub_le _ _

theorem ceilDiv_sectorSize_eq_zero_iff (size : Nat) : ceilDiv size sectorSize = 0 ↔ size = 0 := by
  simp only [ceilDiv, sectorSize]
  omega

/-- Fewer than 32 sectors, divided by 8192 and rounded up: one, unless there is none. -/
theorem ceilDiv_few {n : Nat} (h : n < 32) : ceilDiv n (2 * sectorSize) = if n = 0 then 0 else 1 := by
  simp only [ceilDiv, sectorSize]
  split <;> omega

end Machine.Session

/-! ## The obligations -/

/-- Settles O6. -/
theorem codecRoundTrip : Obligations.CodecRoundTrip := decN_encs

/-- Settles O7: each law by induction on the sequence, its length from `length_encs`. -/
theorem encodingIsCompleteShortInjective : Obligations.EncodingIsCompleteShortInjective := by
  refine ⟨delim_not_mem_encs, esc_in_encs_is_a_pair, fun s => ?_, encs_append, encs_injective⟩
  have hk := escapes_le_length s
  rw [length_encs]
  omega

/-- Settles O8: between its two delimiters a frame is one encoded sequence. -/
theorem frameLength : Obligations.FrameLength := by
  intro h p
  have hk := escapes_le_length (h.toList ++ p)
  have h8 : (h.toList ++ p).length = 8 + p.length := by rw [List.length_append]; rfl
  have hlen : (frame h p).length = 2 + 8 + p.length + escapes (h.toList ++ p) := by
    rw [frame, List.length_cons, List.length_append, length_encs, h8, List.length_singleton]
    omega
  exact ⟨hlen, by omega, by omega, encs (h.toList ++ p), rfl, delim_not_mem_encs _, esc_in_encs_is_a_pair _⟩

/-- Settles O11: a checksum is its initial value and the exclusive or of its bytes, and of two sequences that differ in
one byte the others cancel. -/
theorem checksumLaws : Obligations.ChecksumLaws := by
  refine ⟨Machine.checksum_append, Machine.checksum_le, fun s t h => ?perm, fun s t b c hbc h => hbc ?one⟩
  case perm => exact (Machine.checksum_eq_iff s t).2 (Machine.xorAll_perm h)
  case one =>
    have hx := (Machine.checksum_eq_iff _ _).1 h
    rw [Machine.xorAll_append, Machine.xorAll_append, Machine.xorAll_cons, Machine.xorAll_cons, BitVec.xor_right_inj,
      BitVec.xor_left_inj] at hx
    exact hx

/-- Settles O58: rounding up is monotone, and below 32 sectors the first branch only tells none from some. -/
theorem eraseSizeMonotone : Obligations.EraseSizeMonotone := by
  refine ⟨fun offset a b hab ha => ?second, fun offset a ha => ?first⟩
  case second =>
    have hm := Machine.Session.ceilDiv_mono hab Machine.Session.sectorSize
    rw [Machine.Session.eraseSize_large ha, Machine.Session.eraseSize_large (ha.trans hm)]
    exact Nat.mul_le_mul_right _ (Nat.sub_le_sub_right hm _)
  case first =>
    have hh := Machine.Session.headSectors_le offset
    rw [Machine.Session.eraseSize_small ha, Machine.Session.ceilDiv_few (by omega)]
    simp only [Machine.Session.ceilDiv_sectorSize_eq_zero_iff]

end Sys2Proof

/-! The instructions as steps (`10_state.md` R41, R44; `30_encoding.md` R90 to R107): which instruction a step runs,
what each wire symbol and the header do in every phase, and that a pair or a header taken byte by byte is its meaning. -/

namespace Sys2Proof.Machine

/-! ## The step that runs a decoded word -/

/-- The turn that completes a symbol runs it, or the header the symbol completes (log 6, log 7). -/
theorem step_symbol {s t : State} {p : Byte} {q : List Byte} {i j : Instr} (hs : s.turn = some t)
    (hp : t.ph = .dec ∨ t.ph = .rWait ∨ t.ph = .rHdr ∨ t.ph = .rPay) (hq : t.rxq = p :: q)
    (hd : decode t.cfg (symbolAt t p) = .ok i)
    (hw : withHeader { t with rxq := q } (i, { t with rxq := q }) = some (j, { t with rxq := q })) :
    step s = exec j { t with rxq := q } := by
  have hdec : decoded t.cfg (symbolAt t p) { t with rxq := q } = some (i, { t with rxq := q }) := by rw [decoded, hd]
  rw [step_turn hs, blockStep_receives hp hq]
  exact (exec_symbol (s := { t with rxq := q }) hp hdec hw).symm

theorem symbolAt_rWait {t : State} (h : t.ph = .rWait) (p : Byte) : symbolAt t p = .wire [p] :=
  if_neg fun hc => hc.2 h

theorem symbolAt_unescapes {t : State} (h : t.ph = .dec ∨ t.ph = .rHdr ∨ t.ph = .rPay) (p : Byte) :
    symbolAt t p = .wire (if t.escp then [Config.esc, p] else [p]) := by
  have hn : t.ph ≠ .rWait := by rcases h with h | h | h <;> simp [h]
  cases he : t.escp <;> simp [symbolAt, he, hn]

/-- Settles O1: a write to `CMD` or `TXCMD` runs its word, and a turn that takes the last byte of a symbol runs the
symbol (`step_symbol`), in `R_HDR` at index 7 the header. -/
theorem stepRunsTheDecodedInstruction : Obligations.StepRunsTheDecodedInstruction := by
  refine fun s => ⟨fun v rest i h hd => ?cmd, fun v rest i h hd => ?code, fun t p q i hs hp hq hd => ?first,
    fun t p q i hs hp hq hd hn => ?symbol, fun t p q i b j hs hp h7 hq hd hb hj => ?header⟩
  case cmd =>
    obtain rfl := Except.ok.inj hd
    exact step_cmd h
  case code =>
    rw [step_write h (by decide), ← setWidth_txcmd]
    exact (exec_decodeCode hd { s with inputs := rest } rfl).symm
  case first =>
    exact step_symbol hs (.inr (.inl hp)) hq (by rw [symbolAt_rWait hp, hd]) (if_neg (by simp [hp]))
  case symbol =>
    refine step_symbol hs (by tauto) hq (by rw [symbolAt_unescapes hp, hd]) ?_
    by_cases h7 : t.ph = .rHdr ∧ t.idx = 7
    · rw [withHeader, if_pos h7, hn h7.1 h7.2]
    · rw [withHeader, if_neg h7]
  case header =>
    refine step_symbol hs (by simp [hp]) hq (by rw [symbolAt_unescapes (by simp [hp]), hd]) ?_
    rw [withHeader, if_pos ⟨hp, h7⟩, hb]
    simp only [decoded, hj]

/-- Settles O2: a turn is the byte step whether or not it completes a symbol, and each event has its rule. -/
theorem decodedStepsEqualByteSteps : Obligations.DecodedStepsEqualByteSteps := by
  intro s
  cases hin : s.inputs with
  | nil => exact step_no_input hin
  | cons e rest =>
    cases e with
    | hostWrite a v =>
      by_cases ha : a = 0x00
      · subst ha
        exact step_cmd hin
      · simp only [if_neg ha]
        exact step_write hin ha
    | hostRead a => exact step_read hin
    | arrive b => exact step_arrive hin
    | tick => exact step_tick hin
    | chanFault => exact step_chanFault hin
    | reset => exact step_reset hin
    | block => exact step_block hin

/-! ## Commands -/

/-- Settles O14. -/
theorem commandsWhileBusyAreDropped : Obligations.CommandsWhileBusyAreDropped := by
  intro s v hb
  rw [exec_decodeOp, if_pos hb]

/-- Settles O15: on a channel without fault each code starts as its row of `commandStart` says. -/
theorem byteOperationsStart : Obligations.ByteOperationsStart := by
  intro s hb hc
  have start (op : BitVec 4) : exec (decodeOp op) s = .next (commandStart op (accept op s)) := by
    rw [exec_decodeOp_idle hb, accepted_clear hc]
  exact ⟨start 0x1, start 0x2, start 0x3, start 0x7⟩

/-- A command code written while idle is what `TXCMD` holds (`20_memory.md` R62). -/
theorem loadCommandCode_idle {s : State} (hb : s.busy = false) (code : Byte) :
    loadCommandCode code s = .next { s with txcmd := code } := by
  have hw : (code.setWidth 32).setWidth 8 = code := by simp
  rw [loadCommandCode, hostStore, if_neg (by simp [hb])]
  exact congrArg (fun c => Host.Outcome.next { s with txcmd := c }) hw

theorem loadCommandCode_busy {s : State} (hb : s.busy = true) (code : Byte) :
    loadCommandCode code s = .next { s with ovr := true } := by rw [loadCommandCode, hostStore_busy hb]

/-- Settles O22: each of the nine rows is `loadCommandCode` of its code. -/
theorem commandCodesLoadTxcmd : Obligations.CommandCodesLoadTxcmd := by
  refine fun s => ⟨fun hb => ?idle, fun hb i hi => ?busy⟩
  case idle =>
    have load := loadCommandCode_idle hb
    exact ⟨load _, load _, load _, load _, load _, load _, load _, load _, load _⟩
  case busy =>
    have drop := loadCommandCode_busy hb
    simp only [List.mem_cons, List.not_mem_nil, or_false] at hi
    rcases hi with rfl | rfl | rfl | rfl | rfl | rfl | rfl | rfl | rfl <;> exact drop _

/-! ## The symbols that stand for a byte -/

/-- A symbol that stands for a byte: the byte itself, run as that byte received, or a pair, run by its second byte
(R90). -/
theorem byteSymbol_cases {c : Config} {i : Instr} {b : Byte} {bytes : List Byte} (hw : i.wellFormed = true)
    (hb : logicalByte i = some b) (he : encode c i = .wire bytes) :
    (bytes = [b] ∧ b ≠ Config.esc ∧ (i = .wireEnd ↔ b = Config.delim) ∧ i ≠ .escEnd ∧ i ≠ .escEsc ∧
      ∀ s, exec i s = receive b s) ∨
    (∃ t, bytes = [Config.esc, t] ∧ unpair t = some b ∧ i ≠ .wireEnd ∧ ∀ s, exec i s = receivePair t s) := by
  unfold logicalByte at hb
  split at hb
  · next p =>
    obtain rfl := Option.some.inj hb
    obtain rfl := Encoded.wire.inj he
    obtain ⟨hd, hn⟩ := (checkLit_iff p).1 hw
    exact .inl ⟨rfl, hn, by simp [hd], by simp, by simp, fun _ => rfl⟩
  · obtain rfl := Option.some.inj hb
    obtain rfl := Encoded.wire.inj he
    exact .inl ⟨rfl, esc_ne_delim.symm, by simp, by simp, by simp, fun _ => rfl⟩
  · obtain rfl := Option.some.inj hb
    obtain rfl := Encoded.wire.inj he
    exact .inr ⟨_, rfl, unpair_escDelim, by simp, fun _ => rfl⟩
  · obtain rfl := Option.some.inj hb
    obtain rfl := Encoded.wire.inj he
    exact .inr ⟨_, rfl, unpair_escEsc, by simp, fun _ => rfl⟩
  · cases hb

/-- In a phase that unescapes a byte is delivered by its symbol, `ESCP` 0 (R121). -/
theorem receive_delivers {s : State} {b : Byte} (hp : s.ph = .dec ∨ s.ph = .rHdr ∨ s.ph = .rPay) (he : s.escp = false)
    (hb : b ≠ Config.esc) : receive b s = deliver b { s with escp := false } := by
  rw [receive_unescapes hp, unescape, if_neg (by simp [he]), if_neg hb, ← he]

theorem receivePair_delivers {s : State} {t b : Byte} (hp : s.ph = .dec ∨ s.ph = .rHdr ∨ s.ph = .rPay)
    (hb : unpair t = some b) : receivePair t s = deliver b { s with escp := false } := by
  rw [receivePair_unescapes hp, unescapePair, hb]

/-- The phases in which received bytes wait: `IDLE` and those of transmission (R47). -/
theorem receive_keeps {s : State} (h : s.ph = .idle ∨ s.ph.transmits = true) (p : Byte) :
    receive p s = .next { s with rxq := p :: s.rxq } := by
  unfold receive
  cases hp : s.ph <;> simp_all [Phase.transmits]

theorem receivePair_keeps {s : State} (h : s.ph = .idle ∨ s.ph.transmits = true) (t : Byte) :
    receivePair t s = .next { s with rxq := Config.esc :: t :: s.rxq } := by
  unfold receivePair
  cases hp : s.ph <;> simp_all [Phase.transmits]

theorem receive_rWait {s : State} (h : s.ph = .rWait) (p : Byte) : receive p s = .next (firstByte p s) := by
  simp only [receive, h]

theorem receivePair_rWait {s : State} (h : s.ph = .rWait) (t : Byte) :
    receivePair t s = .next (complete .framing { s with rxq := t :: s.rxq }) := by simp only [receivePair, h]

theorem receive_flush {s : State} (h : s.ph = .flush) (p : Byte) : receive p s = .next s := by simp only [receive, h]

theorem receivePair_flush {s : State} (h : s.ph = .flush) (t : Byte) : receivePair t s = .next s := by
  simp only [receivePair, h]

/-! ## Delivery, one equation for each place it stores to -/

theorem deliver_dec {s : State} (h : s.ph = .dec) (b : Byte) :
    deliver b s = .next (complete .none { s with data := b.setWidth 32 }) := by simp only [deliver, h]

theorem deliver_header_byte {s : State} (h : s.ph = .rHdr) (hi : s.idx.toNat < 7) (b : Byte) :
    deliver b s = .next { s with hdrb := s.hdrb.set s.idx.toNat b, idx := s.idx + 1 } := by
  simp only [deliver, h, deliverHeader, if_pos hi]

theorem deliver_header_out {s : State} (h : s.ph = .rHdr) (hi : 7 < s.idx.toNat) (b : Byte) :
    deliver b s = .fault .headerIndex := by
  simp only [deliver, h, deliverHeader]
  rw [if_neg (by omega), if_neg (by omega)]

theorem deliver_payload_byte {s : State} (h : s.ph = .rPay) (hi : s.idx.toNat < s.cfg.rxbufDepth)
    (hz : s.idx.toNat + 1 ≠ s.hdrb.size.toNat) (b : Byte) :
    deliver b s = .next { storePayload b s with idx := s.idx + 1 } := by
  simp only [deliver, h, deliverPayload, if_pos hi, if_neg hz]

theorem deliver_payload_last {s : State} (h : s.ph = .rPay) (hi : s.idx.toNat < s.cfg.rxbufDepth)
    (hz : s.idx.toNat + 1 = s.hdrb.size.toNat) (b : Byte) :
    deliver b s = .next (complete .none { storePayload b s with rxv := true }) := by
  simp only [deliver, h, deliverPayload, if_pos hi, if_pos hz]

theorem deliver_payload_out {s : State} (h : s.ph = .rPay) (hi : s.cfg.rxbufDepth ≤ s.idx.toNat) (b : Byte) :
    deliver b s = .fault .rxbufIndex := by
  simp only [deliver, h, deliverPayload, if_neg (Nat.not_lt.2 hi)]

/-- Settles O23: where bytes are unescaped the symbol delivers its byte, and elsewhere its bytes are compared, discarded
or kept. -/
theorem symbolsDeliverTheirByte : Obligations.SymbolsDeliverTheirByte := by
  intro s i b bytes hw hb he hesc
  have hsym := byteSymbol_cases hw hb he
  have delivers (hp : s.ph = .dec ∨ s.ph = .rHdr ∨ s.ph = .rPay) : exec i s = deliver b { s with escp := false } := by
    rcases hsym with ⟨-, hn, -, h₁, h₂, hx⟩ | ⟨t, -, ht, -, hx⟩
    · have hno : s.escp = false := by
        cases hs : s.escp
        · rfl
        · rcases hesc hs with h | h
          · exact absurd h h₁
          · exact absurd h h₂
      rw [hx, receive_delivers hp hno hn]
    · rw [hx, receivePair_delivers hp ht]
  refine ⟨fun hp => ?dec, fun hp hi => ?opens, fun hp hi => ?noFrame, fun hp hi => ?headerByte, fun hp hi => ?header,
    fun hp hi hz => ?payload, fun hp hi hz => ?last, fun hp => ?flush, fun hp => ?waits, fun hp hi => ?headerOut,
    fun hp hi => ?payloadOut⟩
  case dec => exact (delivers (.inl hp)).trans (deliver_dec (s := { s with escp := false }) hp b)
  case opens =>
    rcases hsym with ⟨-, -, hd, -, -, hx⟩ | ⟨t, -, -, hn, -⟩
    · rw [hx, receive_rWait hp, firstByte, if_pos (hd.1 hi)]
    · exact absurd hi hn
  case noFrame =>
    rcases hsym with ⟨rfl, -, hd, -, -, hx⟩ | ⟨t, rfl, -, -, hx⟩
    · rw [hx, receive_rWait hp, firstByte, if_neg (mt hd.2 hi)]
      rfl
    · rw [hx, receivePair_rWait hp]
      rfl
  case headerByte =>
    exact (delivers (.inr (.inl hp))).trans (deliver_header_byte (s := { s with escp := false }) hp hi b)
  case header => rw [exec_header_last hp hi, delivers (.inr (.inl hp))]
  case payload =>
    exact (delivers (.inr (.inr hp))).trans (deliver_payload_byte (s := { s with escp := false }) hp hi hz b)
  case last =>
    exact (delivers (.inr (.inr hp))).trans (deliver_payload_last (s := { s with escp := false }) hp hi hz b)
  case flush =>
    rcases hsym with ⟨-, -, -, -, -, hx⟩ | ⟨t, -, -, -, hx⟩
    · rw [hx, receive_flush hp]
    · rw [hx, receivePair_flush hp]
  case waits =>
    rcases hsym with ⟨rfl, -, -, -, -, hx⟩ | ⟨t, rfl, -, -, hx⟩
    · rw [hx, receive_keeps hp]
      rfl
    · rw [hx, receivePair_keeps hp]
      rfl
  case headerOut =>
    exact (delivers (.inr (.inl hp))).trans (deliver_header_out (s := { s with escp := false }) hp hi b)
  case payloadOut =>
    exact (delivers (.inr (.inr hp))).trans (deliver_payload_out (s := { s with escp := false }) hp hi b)

/-- Settles O24: a second byte that completes no symbol fails where bytes are unescaped; elsewhere the pair is compared,
discarded or kept like any other. -/
theorem badEscapeIsFraming : Obligations.BadEscapeIsFraming := by
  refine fun s t ht => ⟨fun hp => ?_, fun hp => receivePair_rWait hp t, fun hp => receivePair_flush hp t,
    fun hp => receivePair_keeps hp t⟩
  have hx : exec (.escBad t) s = receivePair t s := rfl
  rw [hx, receivePair_unescapes hp, unescapePair, (unpair_eq_none_iff t).2 ((checkEscBad_iff t).1 ht)]
  rfl

/-! ## The header -/

theorem exec_header_rHdr {s : State} (h : s.ph = .rHdr) (d c : Byte) (z : Half) (v : Word) :
    exec (.header d c z v) s =
      .next (headerReceived { s with hdrb := HdrBytes.ofFields d c z v, escp := false, idx := 7 }) := by
  simp only [exec, execHeader, h]

theorem exec_header_waits {s : State} (h : s.ph ≠ .rHdr) (d c : Byte) (z : Half) (v : Word) :
    exec (.header d c z v) s = .next { s with rxq := encs (HdrBytes.ofFields d c z v).toList ++ s.rxq } := by
  simp only [exec, execHeader]
  split
  case h_1 hp => exact absurd hp h
  all_goals rfl

theorem headerReceived_bufsmall {s : State} (h : s.rxcap.toNat < s.hdrb.size.toNat) :
    headerReceived s = complete .bufsmall s := if_pos h

theorem headerReceived_empty {s : State} (h : s.hdrb.size = 0) :
    headerReceived s = complete .none { s with rxv := true } := by
  rw [headerReceived, if_neg (by simp [h]), if_pos h]

theorem headerReceived_payload {s : State} (h : s.hdrb.size ≠ 0) (hz : s.hdrb.size.toNat ≤ s.rxcap.toNat) :
    headerReceived s = { s with ph := .rPay, idx := 0 } := by
  rw [headerReceived, if_neg (Nat.not_lt.2 hz), if_neg h]

/-- Settles O25: the capacity check reads the size the header was serialised from. -/
theorem headerChecksCapacity : Obligations.HeaderChecksCapacity := by
  intro s d c z v
  have hsize := HdrBytes.ofFields_size d c z v
  refine ⟨fun hp hz => ?_, fun hp hz => ?_, fun hp hz hc => ?_, fun hp => exec_header_waits hp d c z v⟩
  · rw [exec_header_rHdr hp, headerReceived_bufsmall (by simpa only [hsize] using hz)]
    rfl
  · rw [exec_header_rHdr hp, headerReceived_empty (by simpa only [hsize] using hz)]
    rfl
  · rw [exec_header_rHdr hp, headerReceived_payload (by simpa only [hsize] using hz) (by simpa only [hsize] using hc)]

/-! ## Pairs and headers byte by byte -/

/-- In a phase that unescapes, a pair that decodes runs as its second byte taken (R121). -/
theorem exec_decoded_pair {c : Config} {t : Byte} {i : Instr} (hd : decode c (.wire [Config.esc, t]) = .ok i)
    {s : State} (hp : s.ph = .dec ∨ s.ph = .rHdr ∨ s.ph = .rPay) : exec i s = unescapePair t s := by
  have hdec : decoded c (.wire [Config.esc, t]) s = some (i, s) := by rw [decoded, hd]
  rw [(symbol_pair hdec).2.2, receivePair_unescapes hp]

/-- The turn of a phase that unescapes (R121). -/
theorem step_unescapes {s t : State} {p : Byte} {q : List Byte} (hs : s.turn = some t)
    (hp : t.ph = .dec ∨ t.ph = .rHdr ∨ t.ph = .rPay) (hq : t.rxq = p :: q) :
    step s = unescape p { t with rxq := q } := by
  rw [step_turn hs, blockStep_receives (by tauto) hq]
  exact receive_unescapes (s := { t with rxq := q }) hp p

/-- Settles O26: the escape byte is taken and remembered, its second byte completes the pair. -/
theorem pairRunsByteByByte : Obligations.PairRunsByteByByte := by
  refine ⟨fun s t q hs hp he hq => ?first, fun s t p q i hs hp he hq hd => ?second,
    fun s t r i hin hp he hq hd => ?both⟩
  case first => rw [step_unescapes hs hp hq, unescape, if_neg (by simp [he]), if_pos rfl]
  case second =>
    rw [step_unescapes hs hp hq, unescape, if_pos he]
    exact (exec_decoded_pair (s := { t with rxq := q }) hd hp).symm
  case both =>
    rw [stepRun_pair hin hp he hq]
    exact (exec_decoded_pair (s := { s with rxq := r }) hd hp).symm

end Sys2Proof.Machine

namespace Sys2Proof.HdrBytes

/-- Two headers with the same eight bytes are the same. -/
theorem ext_get {h k : HdrBytes} (hk : ∀ i, i < 8 → h.get i = k.get i) : h = k := by
  obtain ⟨h0, h1, h2, h3, h4, h5, h6, h7⟩ := h
  obtain ⟨k0, k1, k2, k3, k4, k5, k6, k7⟩ := k
  simp only [mk.injEq]
  exact ⟨hk 0 (by decide), hk 1 (by decide), hk 2 (by decide), hk 3 (by decide), hk 4 (by decide), hk 5 (by decide),
    hk 6 (by decide), hk 7 (by decide)⟩

theorem toList_getD (h : HdrBytes) {i : Nat} (hi : i < 8) : h.toList.getD i 0 = h.get i := by
  rw [List.getD_eq_getElem?_getD, toList_get h hi, Option.getD_some]

end Sys2Proof.HdrBytes

namespace Sys2Proof.Machine

/-- The first `n` header bytes, the eighth not among them (`42_packet_rx.md` R165). -/
theorem stepRun_header_from_zero {n : Nat} {s : State} {bytes r : List Byte} (hin : s.inputs = []) (hp : s.ph = .rHdr)
    (he : s.escp = false) (hi : s.idx = 0) (hn : n ≤ 7) (hd : decN n s.rxq = some (bytes, r)) :
    ∃ h : HdrBytes, stepRun (s.rxq.length - r.length) s =
        .next { s with hdrb := h, idx := BitVec.ofNat 16 n, rxq := r } ∧
      ∀ i, i < 8 → h.get i = if i < n then bytes.getD i 0 else s.hdrb.get i := by
  obtain ⟨h, hrun, hget⟩ := stepRun_header_prefix n hin hp he (by simpa [hi] using hn) hd
  exact ⟨h, by simpa [hi] using hrun, fun i h8 => by simpa [hi] using hget i h8⟩

/-- Seven bytes in place and the eighth written are the header they spell. -/
theorem set_seven_eq {h k : HdrBytes} {first : List Byte} {b : Byte} (hf : first.length = 7)
    (happ : h.toList = first ++ [b]) (hk : ∀ i, i < 7 → k.get i = first.getD i 0) : k.set 7 b = h := by
  refine HdrBytes.ext_get fun i h8 => ?_
  rw [← h.toList_getD h8, happ]
  by_cases h7 : i = 7
  · subst h7
    rw [HdrBytes.get_set_same _ le_rfl]
    simp [List.getD_eq_getElem?_getD, hf]
  · have hlt : i < 7 := by omega
    rw [HdrBytes.get_set_other _ le_rfl hlt.le h7, hk i hlt]
    simp [List.getD_eq_getElem?_getD, List.getElem?_append, hf, hlt]

/-- The block takes a whole header and checks the capacity (R165, R166). -/
theorem stepRun_header {s : State} {h : HdrBytes} {r : List Byte} (hin : s.inputs = []) (hp : s.ph = .rHdr)
    (he : s.escp = false) (hi : s.idx = 0) (hd : decN 8 s.rxq = some (h.toList, r)) :
    stepRun (s.rxq.length - r.length) s = .next (headerReceived { s with hdrb := h, idx := 7, rxq := r }) := by
  obtain ⟨first, q, last, h7, h1, happ⟩ := decN_add (m := 7) (n := 1) hd
  obtain ⟨b, q', s', hb, h0, rfl⟩ := decN_succ h1
  obtain ⟨rfl, rfl⟩ := Prod.mk.inj (Option.some.inj h0)
  obtain ⟨hle, hf⟩ := decN_shorter h7
  obtain ⟨k, hk, hget⟩ := stepRun_header_from_zero hin hp he hi le_rfl h7
  have hset : k.set 7 b = h := set_seven_eq hf happ fun i h7 => (hget i (by omega)).trans (if_pos h7)
  obtain ⟨-, hlast⟩ := stepRun_logical (s := { s with hdrb := k, idx := 7, rxq := q }) hin (.inr (.inl hp)) he hb
  rw [← tsub_add_tsub_cancel hle (dec1_shorter hb).le]
  refine (stepRun_add hk _).trans (hlast.trans ?_)
  rw [deliver_eighth (by exact hp) rfl, hset]

/-- Settles O27: the encoding of a header decodes to its eight bytes. -/
theorem headerRunsByteByByte : Obligations.HeaderRunsByteByByte := by
  intro s h r hin hp he hi hq
  have hd : decN 8 s.rxq = some (h.toList, r) := by rw [hq]; exact decN_encs h.toList r
  have hrun := stepRun_header hin hp he hi hd
  rw [hq, List.length_append, Nat.add_sub_cancel] at hrun
  rw [hrun, exec_header_rHdr (s := { s with rxq := r }) hp, HdrBytes.ofFields_fields, ← he]

/-! ## `Reset` and `STATUS` -/

/-- Settles O42: the step of `Reset` is `resetBlock`, which writes `State.reset`'s fields; its empty buffers read as the
free bytes of the new epoch. -/
theorem resetValues : Obligations.ResetValues := by
  intro s rest h
  have hsize : State.reset.hdrb.size = 0 := by decide
  have hvalue : State.reset.hdrb.value = 0 := by decide
  refine ⟨_, step_reset h, rfl, rfl, rfl, rfl, rfl, rfl, fun i hi => ?_, rfl, rfl, hsize, hvalue, rfl, rfl, rfl, rfl,
    rfl, rfl, rfl, rfl, rfl, rfl, rfl, rfl, rfl, rfl, rfl, rfl, rfl, rfl, fun i => ⟨rfl, rfl⟩, rfl⟩
  interval_cases i <;> rfl

/-! ## The `STATUS` view -/

/-- The word `STATUS` assembles from its nine flags and the outcome code (`10_state.md` R26). -/
def statusWord (busy done rxv ckok rspok ovr chf rxav : Bool) (err : BitVec 3) :
    BitVec (21 + 1 + 1 + 1 + 1 + 1 + 1 + 3 + 1 + 1) :=
  0#21 ++ BitVec.ofBool rxav ++ BitVec.ofBool chf ++ BitVec.ofBool ovr ++ BitVec.ofBool rspok ++
    BitVec.ofBool ckok ++ BitVec.ofBool rxv ++ err ++ BitVec.ofBool done ++ BitVec.ofBool busy

theorem status_eq_statusWord (s : State) :
    s.status = statusWord s.busy s.done s.rxv s.ckok s.rspok s.ovr s.chf s.rxav s.err.code := rfl

theorem statusWord_bits (busy done rxv ckok rspok ovr chf rxav : Bool) (err : BitVec 3) :
    let w := statusWord busy done rxv ckok rspok ovr chf rxav err
    w.getLsbD 0 = busy ∧ w.getLsbD 1 = done ∧ w.getLsbD 5 = rxv ∧ w.getLsbD 6 = ckok ∧ w.getLsbD 7 = rspok ∧
      w.getLsbD 8 = ovr ∧ w.getLsbD 9 = chf ∧ w.getLsbD 10 = rxav := by
  simp only [statusWord, BitVec.getLsbD_append]
  simp

theorem statusWord_err (busy done rxv ckok rspok ovr chf rxav : Bool) (err : BitVec 3) :
    (statusWord busy done rxv ckok rspok ovr chf rxav err).extractLsb' 2 3 = err := by
  ext i hi
  rw [BitVec.getElem_extractLsb']
  simp only [statusWord, BitVec.getLsbD_append]
  simp
  interval_cases i <;> simp

theorem statusWord_high (busy done rxv ckok rspok ovr chf rxav : Bool) (err : BitVec 3) :
    (statusWord busy done rxv ckok rspok ovr chf rxav err).extractLsb' 11 21 = 0 := by
  ext i hi
  rw [BitVec.getElem_extractLsb']
  simp only [statusWord, BitVec.getLsbD_append]
  repeat rw [if_neg (by omega)]
  simp

theorem rxav_eq_decide (s : State) : s.rxav = decide (s.rxq ≠ []) := by
  unfold State.rxav
  cases s.rxq <;> rfl

/-- Settles O44: `STATUS` is `statusWord` of the flags, whose bits are read one by one. -/
theorem statusLayout : Obligations.StatusLayout := by
  intro s
  rw [status_eq_statusWord]
  obtain ⟨h0, h1, h5, h6, h7, h8, h9, h10⟩ :=
    statusWord_bits s.busy s.done s.rxv s.ckok s.rspok s.ovr s.chf s.rxav s.err.code
  refine ⟨h0, h1, ?_, h5, h6, h7, h8, h9, h10.trans (rxav_eq_decide s), statusWord_high _ _ _ _ _ _ _ _ _⟩
  rw [statusWord_err]
  cases s.err <;> rfl

end Sys2Proof.Machine

/-! Rules about the whole machine: who writes what (`10_state.md` sections 2 to 5, `20_memory.md` sections 1, 6, 9 and
11). -/

namespace Sys2Proof.Machine

/-! ## The three kinds of step that are no `Reset` -/

/-- What an event that is neither the block's turn, nor an accepted command, nor `Reset` does to the state. -/
structure EventFrame (s t : State) : Prop where
  epoch : t.epoch = s.epoch
  hdrb : t.hdrb = s.hdrb
  rxcnt : t.rxcnt = s.rxcnt
  cksum : t.cksum = s.cksum
  rxv : t.rxv = s.rxv
  ckok : t.ckok = s.ckok
  rspok : t.rspok = s.rspok
  rxbuf : t.rxbuf = s.rxbuf
  txlog : t.txlog = s.txlog
  tmr : t.tmr = s.tmr ∨ (s.ph = .rWait ∧ s.rxq = [] ∧ ∃ rest, s.inputs = .tick :: rest)
  rxq : t.rxq = s.rxq ∨ ∃ b rest, s.inputs = .arrive b :: rest ∧ t.rxq = s.rxq ++ [b]
  txbuf : t.txbuf = s.txbuf ∨
    ∃ a v i b, s.writes a v ∧ a.toNat = 0x10000 + i ∧ i < s.cfg.txbufDepth ∧ t.txbuf = s.txbuf.store i b
  operands : s.busy = true → t.txdir = s.txdir ∧ t.txcmd = s.txcmd ∧ t.txsize = s.txsize ∧ t.txval = s.txval ∧
    t.rxcap = s.rxcap ∧ t.data = s.data
  ends : s.busy = true → t.ph = .idle → t.err ≠ .none

/-- An event that leaves the block busy or finds it idle, and writes only the environment's part and `OVR`. -/
theorem EventFrame.of_env {s : State} (i : List Event) (q : List Byte) (o : Bool) (l : List Word)
    (hq : q = s.rxq ∨ ∃ b rest, s.inputs = .arrive b :: rest ∧ q = s.rxq ++ [b]) :
    EventFrame s (s.withEnv i q o l s.tmr) := by
  constructor
  case tmr | txbuf => exact .inl rfl
  case rxq => exact hq
  case operands => exact fun _ => ⟨rfl, rfl, rfl, rfl, rfl, rfl⟩
  case ends => exact fun hb hp => absurd hp ((busy_eq_true_iff s).1 hb)
  all_goals rfl

theorem EventFrame.of_hostStore {s : State} {a : Loc} {v : Word} {rest : List Event}
    (hin : s.inputs = .hostWrite a v :: rest) : EventFrame s (hostStore a v { s with inputs := rest }) := by
  rcases store_cases a v { s with inputs := rest } with
    ⟨_, h⟩ | ⟨hb, _, _, _, _, _, _, h⟩ | ⟨hb, i, b, ha, hi, h⟩ <;> rw [h]
  · exact EventFrame.of_env rest s.rxq true s.hostLog (.inl rfl)
  all_goals
    have hb : s.busy = false := hb
    constructor
    case tmr | rxq => exact .inl rfl
    case operands | ends => simp [hb]
  case txbuf => exact .inl rfl
  case txbuf => exact .inr ⟨a, v, i, b, ⟨hb, rest, hin⟩, ha, hi, rfl⟩
  all_goals rfl

theorem EventFrame.of_tick {s : State} {rest : List Event} (hin : s.inputs = .tick :: rest) :
    EventFrame s (tick { s with inputs := rest }) := by
  by_cases hw : s.ph = .rWait ∧ s.rxq = []
  · rw [tick_waiting (s := { s with inputs := rest }) hw.1 hw.2]
    split
    all_goals
      constructor
      case tmr => exact .inr ⟨hw.1, hw.2, rest, hin⟩
      case rxq | txbuf => exact .inl rfl
      case operands => exact fun _ => ⟨rfl, rfl, rfl, rfl, rfl, rfl⟩
      case ends => simp [hw.1]
    all_goals rfl
  · rw [tick_eq_self (s := { s with inputs := rest }) hw]
    exact EventFrame.of_env rest s.rxq s.ovr s.hostLog (.inl rfl)

theorem EventFrame.of_chanFault (s : State) (rest : List Event) :
    EventFrame s (chanFault { s with inputs := rest }) := by
  unfold chanFault
  split
  all_goals
    constructor
    case tmr | rxq | txbuf => exact .inl rfl
    case operands => exact fun _ => ⟨rfl, rfl, rfl, rfl, rfl, rfl⟩
    case ends => simp_all
  all_goals rfl

/-- Every step is `Reset`, the block's turn, an accepted command, or an event with `EventFrame`. -/
theorem step_kinds {s t : State} (hs : step s = .next t) :
    (s.resets ∧ ∃ rest, t = resetBlock { s with inputs := rest }) ∨
    (s.turn ≠ none ∧ ∃ l, blockStep { s with inputs := l } = .next t) ∨
    (∃ v rest, s.inputs = .hostWrite 0x00 v :: rest ∧ s.busy = false ∧
      t = accepted (opField v) { s with inputs := rest }) ∨
    EventFrame s t := by
  rcases step_cases hs with ⟨u, hu, ht⟩ | ⟨v, rest, hin, rfl⟩ | ⟨a, v, rest, hin, -, rfl⟩ | ⟨a, rest, -, rfl⟩ |
    ⟨b, rest, hin, rfl⟩ | ⟨rest, hin, rfl⟩ | ⟨rest, -, rfl⟩ | ⟨rest, hin, rfl⟩
  · obtain ⟨l, rfl⟩ := turn_eq hu
    exact .inr (.inl ⟨by simp [hu], l, ht⟩)
  · by_cases hb : s.busy = true
    · rw [if_pos hb]
      exact .inr (.inr (.inr (EventFrame.of_env rest s.rxq true s.hostLog (.inl rfl))))
    · rw [if_neg hb]
      exact .inr (.inr (.inl ⟨v, rest, hin, not_busy hb, rfl⟩))
  · exact .inr (.inr (.inr (EventFrame.of_hostStore hin)))
  · exact .inr (.inr (.inr (EventFrame.of_env rest s.rxq s.ovr _ (.inl rfl))))
  · exact .inr (.inr (.inr (EventFrame.of_env rest _ s.ovr s.hostLog (.inr ⟨b, rest, hin, rfl⟩))))
  · exact .inr (.inr (.inr (EventFrame.of_tick hin)))
  · exact .inr (.inr (.inr (EventFrame.of_chanFault s rest)))
  · exact .inl ⟨⟨rest, hin⟩, rest, rfl⟩

/-! ## The obligations -/

/-- Settles O49: of the three kinds of step, the turn writes `HDRB` and `RXCNT` in their phases, an accepted command the
elements of its code, and an event only `TMR`. -/
theorem onlyTheirOperationsWrite : Obligations.OnlyTheirOperationsWrite := by
  intro s t hs hr
  rcases step_kinds hs with ⟨h, -⟩ | ⟨-, l, ht⟩ | ⟨v, rest, hin, hb, rfl⟩ | hf
  · exact absurd h hr
  · have hf := (block_frame ht).1
    exact ⟨fun h => absurd hf.cksum h, fun h => absurd hf.ckok h, fun h => absurd hf.rspok h,
      fun h => of_not_not fun hp => h (hf.hdrb hp), fun h => .inl (of_not_not fun hp => h (hf.rxcnt hp)),
      fun h => absurd hf.tmr h⟩
  · have hf := accepted_frame (opField v) { s with inputs := rest }
    have hacc {op : BitVec 4} (hop : opField v = op) : s.accepts op := ⟨hb, v, rest, hin, hop⟩
    exact ⟨fun h => (hf.cksum h).imp hacc hacc, fun h => hacc (hf.ckok h), fun h => hacc (hf.rspok h),
      fun h => absurd hf.hdrb h, fun h => .inr (hacc (hf.rxcnt h)), fun h => .inr (hacc (hf.tmr h))⟩
  · exact ⟨fun h => absurd hf.cksum h, fun h => absurd hf.ckok h, fun h => absurd hf.rspok h,
      fun h => absurd hf.hdrb h, fun h => absurd hf.rxcnt h, fun h => .inl (hf.tmr.resolve_left h)⟩

/-- Settles O50: the turn can only set `RXV`, as it ends a RECV with `NONE`, an accepted command can only clear it, as
RECV starts, and an event leaves it. -/
theorem validFlag : Obligations.ValidFlag := by
  intro s t hs
  refine ⟨fun h1 h0 => ?cleared, fun h0 h1 => ?set, fun ⟨hb, v, rest, hin, hop⟩ hp => ?starts,
    fun hp hi he hr _ => ?ends⟩
  case cleared =>
    rcases step_kinds hs with ⟨h, -⟩ | ⟨-, l, ht⟩ | ⟨v, rest, hin, hb, rfl⟩ | hf
    · exact .inl h
    · rcases (block_frame ht).1.rxv with h | ⟨h, -⟩ <;> simp [h, h1] at h0
    · rcases (accepted_frame (opField v) { s with inputs := rest }).rxv with h | ⟨hop, hp, -⟩
      · exact absurd (h1.symm.trans (h.symm.trans h0)) (by decide)
      · exact .inr ⟨⟨hb, v, rest, hin, hop⟩, hp⟩
    · simp [hf.rxv, h1] at h0
  case set =>
    rcases step_kinds hs with ⟨-, rest, rfl⟩ | ⟨hn, l, ht⟩ | ⟨v, rest, hin, hb, rfl⟩ | hf
    · cases h1
    · rcases (block_frame ht).1.rxv with h | ⟨-, hp, hi, he⟩
      · simp [h, h0] at h1
      · exact ⟨hp, hi, he, hn⟩
    · rcases (accepted_frame (opField v) { s with inputs := rest }).rxv with h | ⟨-, -, h⟩
      · exact absurd (h0.symm.trans (h.symm.trans h1)) (by decide)
      · simp [h] at h1
    · simp [hf.rxv, h0] at h1
  case starts =>
    rw [step_cmd hin, exec_decodeOp_idle (by exact hb)] at hs
    obtain rfl := Host.Outcome.next.inj hs
    exact (accepted_frame (opField v) { s with inputs := rest }).wait hp
  case ends =>
    have hbusy : s.busy = true := (busy_eq_true_iff s).2 fun h => by simp [h, Phase.ofRecv] at hp
    rcases step_kinds hs with ⟨h, -⟩ | ⟨-, l, ht⟩ | ⟨v, rest, hin, hb, rfl⟩ | hf
    · exact absurd h hr
    · exact (block_frame ht).2 hp hi he
    · simp [hbusy] at hb
    · exact absurd he (hf.ends hbusy hi)

/-- Settles O51: a busy block accepts no command and stores no write, and its turn writes `DATA` in `DEC` only. -/
theorem operandsStableWhileBusy : Obligations.OperandsStableWhileBusy := by
  intro s t hs hbusy hr
  rcases step_kinds hs with ⟨h, -⟩ | ⟨-, l, ht⟩ | ⟨v, rest, hin, hb, rfl⟩ | hf
  · exact absurd h hr
  · have hf := (block_frame ht).1
    exact ⟨hf.txdir, hf.txcmd, hf.txsize, hf.txval, hf.rxcap, txByte_congr hf.txbuf hf.epoch, hf.data⟩
  · simp [hbusy] at hb
  · obtain ⟨h1, h2, h3, h4, h5, h6⟩ := hf.operands hbusy
    rcases hf.txbuf with h | ⟨a, v, i, b, hw, -⟩
    · exact ⟨h1, h2, h3, h4, h5, txByte_congr h hf.epoch, fun _ => h6⟩
    · simp [hw.1] at hbusy

/-- A `TXBUF` that is the old one with one byte written, or the old one, reads alike at every other index. -/
theorem txByte_of_store {s t : State} {i : Nat} {b : Byte} (he : t.epoch = s.epoch)
    (h : t.txbuf = s.txbuf.store i b) {j : Nat} (hj : j ≠ i) : t.txByte j = s.txByte j := by
  rw [State.txByte, State.txByte, h, he, Memory.lookup_store_other _ b hj]

theorem rxByte_of_store {s t : State} {i : Nat} {b : Byte} (he : t.epoch = s.epoch)
    (h : t.rxbuf = s.rxbuf.store i b) {j : Nat} (hj : j ≠ i) : t.rxByte j = s.rxByte j := by
  rw [State.rxByte, State.rxByte, h, he, Memory.lookup_store_other _ b hj]

/-- Settles O52: only a stored write touches `TXBUF` and only the turn in `R_PAY` touches `RXBUF`, each one byte. -/
theorem bufferBytesChangeOnlyWhereWritten : Obligations.BufferBytesChangeOnlyWhereWritten := by
  intro s t hs hr j
  rcases step_kinds hs with ⟨h, -⟩ | ⟨hn, l, ht⟩ | ⟨v, rest, hin, hb, rfl⟩ | hf
  · exact absurd h hr
  · have hf := (block_frame ht).1
    refine ⟨.inl (txByte_congr hf.txbuf hf.epoch j), ?_⟩
    rcases hf.rxbuf with h | ⟨hp, hi, b, h⟩
    · exact .inl (rxByte_congr h hf.epoch j)
    · by_cases hj : j = s.idx.toNat
      · subst hj
        exact .inr ⟨hp, rfl, hi, hn⟩
      · exact .inl (rxByte_of_store hf.epoch h hj)
  · have hf := accepted_frame (opField v) { s with inputs := rest }
    exact ⟨.inl (txByte_congr hf.txbuf hf.epoch j), .inl (rxByte_congr hf.rxbuf hf.epoch j)⟩
  · refine ⟨?_, .inl (rxByte_congr hf.rxbuf hf.epoch j)⟩
    rcases hf.txbuf with h | ⟨a, v, i, b, hw, ha, hi, h⟩
    · exact .inl (txByte_congr h hf.epoch j)
    · by_cases hj : j = i
      · subst hj
        exact .inr ⟨a, v, hw, ha, hi⟩
      · exact .inl (txByte_of_store hf.epoch h hj)

/-- Settles O53: the turn takes one byte at the head or puts one at the end, `Arrive` adds one, and nothing else moves
either stream. -/
theorem streamsMoveOneByteInOrder : Obligations.StreamsMoveOneByteInOrder := by
  intro s t hs
  rcases step_kinds hs with ⟨-, rest, rfl⟩ | ⟨hn, l, ht⟩ | ⟨v, rest, hin, hb, rfl⟩ | hf
  · exact ⟨.inl rfl, .inl rfl⟩
  · have hf := (block_frame ht).1
    exact ⟨hf.rxq.imp_right fun ⟨hp, ht, hq⟩ => .inr ⟨(busy_eq_true_iff s).2 hp, ht, hn, hq⟩,
      hf.txlog.imp_right fun ⟨hp, hb⟩ => ⟨hp, hn, hb⟩⟩
  · have hf := accepted_frame (opField v) { s with inputs := rest }
    exact ⟨.inl hf.rxq, .inl hf.txlog⟩
  · exact ⟨hf.rxq.imp_right .inl, .inl hf.txlog⟩

end Sys2Proof.Machine

/-! Whole operations from the host's write to completion: the byte operations, the timed wait, and the host's scripts
(`40_framing_codec.md`, `42_packet_rx.md` R162, R178, `43_checksum.md` section 5). -/

namespace Sys2Proof.Machine

/-! ## From the write to `CMD` -/

/-- An idle block runs a write to `CMD` as acceptance and start, on a channel without fault (`10_state.md` R44). -/
theorem step_accepts {s : State} {v : Word} {op : BitVec 4} {rest : List Event} (hb : s.busy = false)
    (hc : s.chf = false) (hin : s.inputs = .hostWrite 0x00 v :: rest) (hop : opField v = op) :
    step s = .next (commandStart op (accept op { s with inputs := rest })) := by
  have hclear := accepted_clear (s := { s with inputs := rest }) hc op
  rw [step_cmd hin, hop, exec_decodeOp_idle (s := { s with inputs := rest }) hb, hclear]

/-- A run that begins with that write. -/
theorem stepRun_accepts {s : State} {v : Word} {op : BitVec 4} {rest : List Event} (hb : s.busy = false)
    (hc : s.chf = false) (hin : s.inputs = .hostWrite 0x00 v :: rest) (hop : opField v = op) (n : Nat) :
    stepRun (1 + n) s = stepRun n (commandStart op (accept op { s with inputs := rest })) := by
  rw [Nat.add_comm, stepRun_one (step_accepts hb hc hin hop)]

/-! ## ENCB and TXDELIM -/

/-- ENCB from its phase: the encoding of `DATA[7:0]`, then complete (`40_framing_codec.md` R124). -/
theorem stepRun_enc {s : State} (hin : s.inputs = []) (hp : s.ph = .enc) (he : s.escp = false) :
    stepRun (enc s.dataByte).length s = .next (complete .none { s with txlog := s.txlog ++ enc s.dataByte }) := by
  refine stepRun_escaped he ?_ ?_
  · rw [step_no_input hin]
    simp only [blockStep, hp, encbPut]
  · rw [step_no_input (s := { s with txlog := s.txlog ++ [Config.esc], escp := true }) hin]
    simp only [blockStep, hp, encbPut]
    rfl

/-- Settles O28. -/
theorem byteTransmitRuns : Obligations.ByteTransmitRuns := by
  refine ⟨fun s v hb hc hin hop => ?encb, fun s v hb hc hin hop => ?txdelim⟩
  case encb =>
    rw [stepRun_accepts hb hc hin hop]
    exact stepRun_enc (s := commandStart 0x1 (accept 0x1 { s with inputs := [] })) rfl rfl rfl
  case txdelim =>
    rw [show 2 = 1 + 1 from rfl, stepRun_accepts hb hc hin hop, stepRun_single, step_no_input rfl]
    rfl

/-! ## DECB -/

/-- `dec1` answers `Err` on an escape byte with a bad second byte, and on nothing else (R93). -/
theorem dec1_eq_err {q r : List Byte} (h : dec1 q = .err r) : ∃ t, q = Config.esc :: t :: r ∧ unpair t = none := by
  match q with
  | [] => cases h
  | [p] =>
    rw [dec1] at h
    split at h <;> cases h
  | p :: t :: q =>
    rw [dec1] at h
    split at h
    · next hp =>
      cases hu : unpair t with
      | some b => simp [hu] at h
      | none =>
        simp only [hu] at h
        exact ⟨t, by rw [hp, Dec.err.inj h], hu⟩
    · cases h

/-- `dec1` asks for more on the empty sequence and on an escape byte alone (R93). -/
theorem dec1_eq_more {q : List Byte} (h : dec1 q = .more) : q = [] ∨ q = [Config.esc] := by
  match q with
  | [] => exact .inl rfl
  | [p] =>
    rw [dec1] at h
    split at h
    · next hp => exact .inr (by rw [hp])
    · cases h
  | p :: t :: q =>
    rw [dec1] at h
    split at h
    · cases hu : unpair t <;> simp [hu] at h
    · cases h

/-- A bad pair is taken and fails (`40_framing_codec.md` R121). -/
theorem stepRun_bad_pair {s : State} {t : Byte} {r : List Byte} (hin : s.inputs = [])
    (hp : s.ph = .dec ∨ s.ph = .rHdr ∨ s.ph = .rPay) (he : s.escp = false) (hq : s.rxq = Config.esc :: t :: r)
    (hu : unpair t = none) :
    stepRun (s.rxq.length - r.length) s = .next (complete .framing { s with rxq := r }) := by
  rw [show s.rxq.length - r.length = 2 by rw [hq]; simp; omega, stepRun_pair hin hp he hq, unescapePair, hu]
  rfl

/-- A phase that awaits a byte and has none stays as it is, however many turns it gets (log 17). -/
theorem stepRun_waits {s : State} (hin : s.inputs = []) (hp : s.ph = .dec ∨ s.ph = .rWait ∨ s.ph = .rHdr ∨ s.ph = .rPay)
    (hq : s.rxq = []) (n : Nat) : stepRun n s = .next s := by
  induction n with
  | zero => rfl
  | succ n ih =>
    have hs : step s = .next s := by rw [step_no_input hin, blockStep_waits hp hq]
    rw [stepRun_one hs, ih]

/-- Where `dec1` asks for more, what there is of the symbol is taken, and the phase waits (log 17). -/
theorem stepRun_more {s : State} (hin : s.inputs = []) (hp : s.ph = .dec ∨ s.ph = .rHdr ∨ s.ph = .rPay)
    (he : s.escp = false) (hd : dec1 s.rxq = .more) (n : Nat) :
    stepRun (s.rxq.length + n) s = .next { s with escp := !s.rxq.isEmpty, rxq := [] } := by
  have hp' : s.ph = .dec ∨ s.ph = .rWait ∨ s.ph = .rHdr ∨ s.ph = .rPay := by tauto
  rcases dec1_eq_more hd with hq | hq
  · have hs : s = { s with escp := false, rxq := [] } := by rw [← he, ← hq]
    have hw := stepRun_waits hin hp' hq n
    simp only [hq, List.length_nil, Nat.zero_add, List.isEmpty_nil, Bool.not_true, ← hs, hw]
  · have hw := stepRun_waits (s := { s with rxq := [], escp := true }) hin hp' rfl n
    simp only [hq, List.length_singleton, List.isEmpty_cons, Bool.not_false]
    rw [Nat.add_comm, stepRun_one (step_takes_escape hin hp he hq), hw]

/-- Settles O29, by the three answers of `dec1`; `More` leaves an empty queue, the escape byte taken if there was
one. -/
theorem decbRun : Obligations.DecbRun := by
  intro s v hb hc hin hop
  let u : State := commandStart 0x2 (accept 0x2 { s with inputs := [] })
  have hdec : u.ph = .dec ∨ u.ph = .rHdr ∨ u.ph = .rPay := .inl rfl
  refine ⟨fun b r hd => ?ok, fun r hd => ?err, fun hd k => ?more⟩
  case ok =>
    rw [stepRun_accepts hb hc hin hop]
    exact (stepRun_logical (s := u) rfl hdec rfl hd).2
  case err =>
    obtain ⟨t, hq, hu⟩ := dec1_eq_err hd
    rw [stepRun_accepts hb hc hin hop]
    exact stepRun_bad_pair (s := u) rfl hdec rfl hq hu
  case more =>
    rw [Nat.add_assoc, stepRun_accepts hb hc hin hop]
    exact stepRun_more (s := u) rfl hdec rfl hd k

/-! ## RXFLUSH -/

/-- The flush takes one byte a turn, then ends (`42_packet_rx.md` R178). -/
theorem stepRun_flush (q : List Byte) {s : State} (hin : s.inputs = []) (hp : s.ph = .flush) (hq : s.rxq = q) :
    stepRun (q.length + 1) s = .next (complete .none { s with rxq := [] }) := by
  induction q generalizing s with
  | nil => rw [List.length_nil, Nat.zero_add, stepRun_single, step_no_input hin, blockStep_flushEnd hp hq, ← hq]
  | cons p q ih =>
    have hs : step s = .next { s with rxq := q } := by
      rw [step_no_input hin, blockStep_takes (by tauto) hq, receive_flush (by exact hp)]
    rw [List.length_cons, stepRun_one hs]
    exact ih (s := { s with rxq := q }) hin hp rfl

/-- Settles O30. -/
theorem flushRun : Obligations.FlushRun := by
  refine ⟨fun s t hs hp => ⟨fun p q hq => ?takes, fun hq => ?ends⟩, fun s v hb hc hin hop => ?run⟩
  case takes => rw [step_turn hs, blockStep_takes (by tauto) hq, receive_flush (by exact hp)]
  case ends =>
    rw [step_turn hs, blockStep_flushEnd hp hq]
    rfl
  case run =>
    rw [Nat.add_assoc, stepRun_accepts hb hc hin hop]
    exact stepRun_flush s.rxq (s := commandStart 0x7 (accept 0x7 { s with inputs := [] })) rfl rfl rfl

/-! ## Ticks -/

/-- Ticks do nothing to a phase that does not count them (`10_state.md` R46). -/
theorem stepRun_ticks_idle (n : Nat) {s : State} (hp : s.ph ≠ .rWait) (hin : s.inputs = List.replicate n .tick) :
    stepRun n s = .next { s with inputs := [] } := by
  induction n generalizing s with
  | zero =>
    have hs : s = { s with inputs := [] } := congrArg (fun l => { s with inputs := l }) hin
    exact congrArg Host.Outcome.next hs
  | succ n ih =>
    obtain ⟨-, -, hrests⟩ := tickCountsTheWindow s (List.replicate n .tick) hin
    rw [stepRun_one (hrests (.inl hp))]
    exact ih (s := { s with inputs := List.replicate n .tick }) hp rfl

/-- Settles O38. -/
theorem waitsForEver : Obligations.WaitsForEver := by
  intro s n m hp hq hin
  rw [stepRun_add (stepRun_ticks_idle n (by rcases hp with h | h | h <;> simp [h]) hin)]
  exact stepRun_waits (s := { s with inputs := [] }) rfl (by simpa using by tauto) hq m

/-- Ticks before the window's last are counted (R46). -/
theorem stepRun_ticks_counted (n : Nat) {s : State} {rest : List Event} (hp : s.ph = .rWait) (hq : s.rxq = [])
    (hin : s.inputs = List.replicate n .tick ++ rest) (hn : s.tmr.toNat + n < s.cfg.rxTimeoutMs)
    (hw : s.cfg.rxTimeoutMs < 32768) :
    stepRun n s = .next { s with inputs := rest, tmr := s.tmr + BitVec.ofNat 15 n } := by
  induction n generalizing s with
  | zero =>
    have hs : s = { s with inputs := rest } := congrArg (fun l => { s with inputs := l }) hin
    rw [show s.tmr + BitVec.ofNat 15 0 = s.tmr from BitVec.add_zero _]
    exact congrArg Host.Outcome.next hs
  | succ n ih =>
    have hidx : (s.tmr + 1).toNat = s.tmr.toNat + 1 := by
      rw [BitVec.toNat_add]
      simp
      omega
    obtain ⟨-, hcounts, -⟩ := tickCountsTheWindow s (List.replicate n Event.tick ++ rest) hin
    have hrest := ih (s := { s with inputs := List.replicate n .tick ++ rest, tmr := s.tmr + 1 }) hp hq rfl
      (by simp only [hidx]; omega) hw
    rw [stepRun_one (hcounts hp hq (by omega)), hrest]
    simp [BitVec.add_assoc, BitVec.ofNat_add, BitVec.add_comm (1#15)]

/-- Settles O34: RECV starts the timer at 0, every tick but the last is counted, and the last ends the window. -/
theorem recvTimesOutExactly : Obligations.RecvTimesOutExactly := by
  intro s v n hwf hb hc hz hq hop hin
  simp only [Config.wf, Bool.and_eq_true, decide_eq_true_eq] at hwf
  obtain ⟨⟨-, hT1, hT2⟩, -⟩ := hwf
  let u : State := { accept 0x5 { s with inputs := List.replicate n .tick } with
    rxv := false, rxcnt := 0, tmr := 0, ph := .rWait }
  have hstart : commandStart 0x5 (accept 0x5 { s with inputs := List.replicate n .tick }) = u := recvStart_fits hz
  rw [stepRun_accepts hb hc hin hop, hstart]
  refine ⟨fun hn => ?before, fun hn => ?last⟩
  case before =>
    have hrun := stepRun_ticks_counted n (s := u) (rest := []) rfl hq (by simp [u]) (by simpa [u] using hn) hT2
    simpa [u] using hrun
  case last =>
    obtain ⟨m, rfl⟩ : ∃ m, n = m + 1 := ⟨n - 1, by omega⟩
    have hrun := stepRun_ticks_counted m (s := u) (rest := [.tick]) rfl hq (by simp [u, List.replicate_succ'])
      (by simp [u]; omega) hT2
    have hlast : (u.tmr + BitVec.ofNat 15 m + 1).toNat = s.cfg.rxTimeoutMs := by
      simp [u]
      omega
    obtain ⟨hends, -, -⟩ := tickCountsTheWindow { u with inputs := [.tick], tmr := u.tmr + BitVec.ofNat 15 m } [] rfl
    rw [stepRun_add hrun, stepRun_single, hends rfl hq hlast]
    simp [u, BitVec.ofNat_add]

/-! ## The host's scripts -/

/-- The byte the host writes to `DATA` in a script is the one ENCB encodes and CKUPD folds (`10_state.md` R21). -/
@[simp] theorem extract_widened_byte (b : Byte) : BitVec.extractLsb' 0 8 (b.setWidth 32) = b := by
  rw [← BitVec.setWidth_eq_extractLsb' (by decide)]
  simp

/-- The script's write of a byte to `DATA` (R62). -/
theorem step_write_data {s : State} {b : Byte} {rest : List Event} (hb : s.busy = false)
    (hin : s.inputs = Script.wr 0x02 (b.setWidth 32) :: rest) :
    step s = .next { s with inputs := rest, data := b.setWidth 32 } :=
  step_write_idle hin (by decide) hb

/-- A block that has ended its operations: idle, the last outcome `NONE`, the coming events `rest`. -/
structure Ended (t : State) (rest : List Event) : Prop where
  ph : t.ph = .idle
  err : t.err = .none
  inputs : t.inputs = rest

theorem Ended.busy {t : State} {rest : List Event} (h : Ended t rest) : t.busy = false :=
  (busy_eq_false_iff t).2 h.ph

/-- `WR DATA, b; CKUPD` folds one byte (`43_checksum.md` R193). -/
theorem stepRun_fold {s : State} {b : Byte} {rest : List Event} (hb : s.busy = false)
    (hin : s.inputs = Script.wr 0x02 (b.setWidth 32) :: Script.issue 0x9 :: rest) :
    ∃ t, stepRun 2 s = .next t ∧ Ended t rest ∧ t.cksum = ckFold s.cksum b := by
  let u : State := { s with inputs := rest, data := b.setWidth 32 }
  have hfold : step { s with inputs := Script.issue 0x9 :: rest, data := b.setWidth 32 } =
      .next (complete .none { accept 0x9 u with cksum := ckFold u.cksum u.dataByte }) := by
    rw [step_cmd rfl, opField_cmdWord]
    exact exec_ckupd_idle (s := u) hb
  refine ⟨_, (stepRun_one (step_write_data hb hin) 1).trans ((stepRun_single _).trans hfold), ⟨rfl, rfl, rfl⟩, ?_⟩
  simp [u, State.dataByte]

theorem ckFoldAll_cons (b : Byte) (bytes : List Byte) :
    Script.ckFoldAll (b :: bytes) =
      [Script.wr 0x02 (b.setWidth 32), Script.issue 0x9] ++ Script.ckFoldAll bytes := rfl

theorem stepRun_foldAll (bytes : List Byte) {s : State} (hs : Ended s (Script.ckFoldAll bytes)) :
    ∃ t, stepRun (Script.ckFoldAll bytes).length s = .next t ∧ Ended t [] ∧ t.cksum = bytes.foldl ckFold s.cksum := by
  induction bytes generalizing s with
  | nil => exact ⟨s, rfl, hs, rfl⟩
  | cons b bytes ih =>
    obtain ⟨t, ht, hend, hck⟩ := stepRun_fold (rest := Script.ckFoldAll bytes) hs.busy hs.inputs
    obtain ⟨u, hu, huend, huck⟩ := ih hend
    refine ⟨u, ?_, huend, by rw [huck, hck, List.foldl_cons]⟩
    rw [ckFoldAll_cons, List.length_append]
    exact stepRun_trans ht hu

/-- Settles O37: CKINIT starts the fold, and each `WR DATA; CKUPD` is one byte of it. -/
theorem checksumOfABlock : Obligations.ChecksumOfABlock := by
  intro s bytes hb hin
  have hinit : step s = .next (complete .none
      { accept 0x8 { s with inputs := Script.ckFoldAll bytes } with cksum := Config.ckInit }) := by
    rw [step_cmd hin, opField_cmdWord]
    exact exec_ckinit_idle (s := { s with inputs := Script.ckFoldAll bytes }) hb
  obtain ⟨t, ht, hend, hck⟩ := stepRun_foldAll bytes (s := complete .none
      { accept 0x8 { s with inputs := Script.ckFoldAll bytes } with cksum := Config.ckInit }) ⟨rfl, rfl, rfl⟩
  exact ⟨t, (stepRun_one hinit _).trans ht, hck, hend.err, hend.ph, hend.inputs⟩

/-- ENCB in two turns: a pair takes both, a literal one, and the other finds the block idle (log 17). -/
theorem stepRun_enc_two_turns {s : State} {rest : List Event} (hin : s.inputs = .block :: .block :: rest)
    (hp : s.ph = .enc) (he : s.escp = false) :
    stepRun 2 s = .next (complete .none { s with inputs := rest, txlog := s.txlog ++ enc s.dataByte }) := by
  have turn {u : State} {l : List Event} (hu : u.inputs = .block :: l) (hup : u.ph = .enc) :
      step u = .next (txEscape u.dataByte (complete .none) { u with inputs := l }) := by
    rw [step_block hu]
    simp only [blockStep, hup, encbPut]
    rfl
  have pair (h : s.dataByte = Config.delim ∨ s.dataByte = Config.esc) :
      stepRun 2 s = .next (complete .none { s with
        inputs := rest
        txlog := s.txlog ++ [Config.esc] ++
          [if s.dataByte = Config.delim then Config.escDelim else Config.escEsc] }) := by
    have h1 := turn hin hp
    rw [txEscape_first _ (by exact he) h] at h1
    have h2 := turn (u := { s with inputs := .block :: rest, txlog := s.txlog ++ [Config.esc], escp := true }) rfl hp
    rw [txEscape_second _ rfl] at h2
    exact (stepRun_one h1 1).trans ((stepRun_single _).trans h2)
  rcases enc_cases s.dataByte with ⟨h, henc⟩ | ⟨h, henc⟩ | ⟨hd, hc, henc⟩
  · rw [pair (.inl h), henc, if_pos h]
    simp
  · rw [pair (.inr h), henc, if_neg (by rw [h]; exact esc_ne_delim)]
    simp
  · have h1 := turn hin hp
    rw [txEscape_literal _ (by exact he) hd hc] at h1
    have h2 := step_block
      (s := complete .none { s with inputs := .block :: rest, txlog := s.txlog ++ [s.dataByte] }) rfl
    rw [henc]
    exact (stepRun_one h1 1).trans ((stepRun_single _).trans h2)

/-- `WR DATA, b; ENCB; WAIT` appends the encoding of `b` (`40_framing_codec.md` R124). -/
theorem stepRun_encodes {s : State} {b : Byte} {rest : List Event} (hb : s.busy = false) (hc : s.chf = false)
    (hin : s.inputs = Script.wr 0x02 (b.setWidth 32) :: Script.issue 0x1 :: .block :: .block :: rest) :
    ∃ t, stepRun 4 s = .next t ∧ Ended t rest ∧ t.chf = false ∧ t.txlog = s.txlog ++ enc b := by
  let u : State := { s with inputs := Script.issue 0x1 :: .block :: .block :: rest, data := b.setWidth 32 }
  have hstart := step_accepts (s := u) hb hc rfl (opField_cmdWord 0x1)
  have hturns := stepRun_enc_two_turns
    (s := commandStart 0x1 (accept 0x1 { u with inputs := .block :: .block :: rest })) rfl rfl rfl
  refine ⟨_, (stepRun_one (step_write_data hb hin) 3).trans ((stepRun_one hstart 2).trans hturns),
    ⟨rfl, rfl, rfl⟩, hc, ?_⟩
  show s.txlog ++ enc (BitVec.extractLsb' 0 8 (b.setWidth 32)) = s.txlog ++ enc b
  rw [extract_widened_byte]

theorem encAll_cons (b : Byte) (bytes : List Byte) :
    Script.encAll (b :: bytes) =
      [Script.wr 0x02 (b.setWidth 32), Script.issue 0x1, .block, .block] ++ Script.encAll bytes := rfl

theorem stepRun_encodesAll (bytes : List Byte) {s : State} {rest : List Event} (hc : s.chf = false)
    (hs : Ended s (Script.encAll bytes ++ rest)) :
    ∃ t, stepRun (Script.encAll bytes).length s = .next t ∧ Ended t rest ∧ t.chf = false ∧
      t.txlog = s.txlog ++ encs bytes := by
  induction bytes generalizing s with
  | nil => exact ⟨s, rfl, hs, hc, (List.append_nil _).symm⟩
  | cons b bytes ih =>
    obtain ⟨t, ht, hend, hct, hlog⟩ := stepRun_encodes (rest := Script.encAll bytes ++ rest) hs.busy hc hs.inputs
    obtain ⟨u, hu, huend, hcu, hulog⟩ := ih hct hend
    refine ⟨u, ?_, huend, hcu, by rw [hulog, hlog, encs_cons, List.append_assoc]⟩
    rw [encAll_cons, List.length_append]
    exact stepRun_trans ht hu

/-- TXDELIM and its turn append one delimiter (R131). -/
theorem stepRun_delimits {s : State} {rest : List Event} (hb : s.busy = false) (hc : s.chf = false)
    (hin : s.inputs = Script.issue 0x3 :: .block :: rest) :
    ∃ t, stepRun 2 s = .next t ∧ Ended t rest ∧ t.chf = false ∧ t.txlog = s.txlog ++ [Config.delim] := by
  have hstart := step_accepts hb hc hin (opField_cmdWord 0x3)
  have hturn := step_block (s := commandStart 0x3 (accept 0x3 { s with inputs := .block :: rest })) rfl
  exact ⟨_, (stepRun_one hstart 1).trans ((stepRun_single _).trans hturn), ⟨rfl, rfl, rfl⟩, hc, rfl⟩

/-- Settles O36: a delimiter, the encoding of the header and payload byte by byte, a delimiter. -/
theorem frameWrappedByHand : Obligations.FrameWrappedByHand := by
  intro s h p hb hc hin
  obtain ⟨t, ht, hend, hct, htlog⟩ := stepRun_delimits hb hc hin
  obtain ⟨u, hu, huend, hcu, hulog⟩ := stepRun_encodesAll (h.toList ++ p) hct hend
  obtain ⟨w, hw, hwend, -, hwlog⟩ := stepRun_delimits (rest := []) huend.busy hcu huend.inputs
  have hlen : (Script.frameByHand h p).length = 2 + ((Script.encAll (h.toList ++ p)).length + 2) := by
    simp only [Script.frameByHand, List.length_cons, List.length_append, List.length_nil]
    omega
  refine ⟨w, ?_, ?_, hwend.ph, hwend.err, hwend.inputs⟩
  · rw [hlen]
    exact stepRun_trans ht (stepRun_trans hu hw)
  · rw [hwlog, hulog, htlog]
    simp [frame]

end Sys2Proof.Machine

/-! SEND and RECV from the host's write to completion (`41_packet_tx.md` section 1, `42_packet_rx.md` section 1), the
packet round trip, and operations with other events in between (`20_memory.md` R71, R75). -/

namespace Sys2Proof.Machine

/-! ## One turn of a transmission -/

/-- The logical byte a phase with an escaper is putting (`40_framing_codec.md` R120, `41_packet_tx.md` R142). -/
def State.current (s : State) : Option Byte :=
  match s.ph with
  | .enc => some s.dataByte
  | .sHdr => some (s.txHeader.get s.idx.toNat)
  | .sPay => some (s.txByte s.idx.toNat)
  | .idle | .dec | .dlm | .sOpen | .sClose | .rWait | .rHdr | .rPay | .flush => none

/-- How the operation advances when that byte is done (R124, R143, R144). -/
def State.advance (s : State) : State → State :=
  match s.ph with
  | .sHdr => hdrAdvance
  | .sPay => payAdvance
  | .enc | .idle | .dec | .dlm | .sOpen | .sClose | .rWait | .rHdr | .rPay | .flush => complete .none

theorem current_cases {t : State} {cur : Byte} (hc : t.current = some cur) :
    (t.ph = .enc ∧ t.dataByte = cur) ∨ (t.ph = .sHdr ∧ t.txHeader.get t.idx.toNat = cur) ∨
      (t.ph = .sPay ∧ t.txByte t.idx.toNat = cur) := by
  unfold State.current at hc
  cases hp : t.ph <;> simp_all

/-- The turn of a phase with an escaper is the escaper's for the logical byte. -/
theorem blockStep_current {t : State} {cur : Byte} (h : Invariant t) (hc : t.current = some cur) :
    blockStep t = .next (txEscape cur t.advance t) := by
  rcases current_cases hc with ⟨hp, rfl⟩ | ⟨hp, rfl⟩ | ⟨hp, rfl⟩ <;> simp only [blockStep, State.advance, hp]
  · rfl
  · rw [hdrPut, if_pos (h.send_hdr hp)]
  · have hi := h.send_pay hp
    have hz := h.send_fits (by simp [hp, Phase.ofSend])
    rw [payPut, if_pos (by omega)]

/-- An escape is pending only inside the pair of a byte that needs one. -/
theorem current_needs_escape {t : State} {cur : Byte} (h : Invariant t) (hc : t.current = some cur)
    (he : t.escp = true) : cur = Config.delim ∨ cur = Config.esc := by
  have hleg := h.escp_legal he
  unfold State.escpLegal at hleg
  rcases current_cases hc with ⟨hp, rfl⟩ | ⟨hp, rfl⟩ | ⟨hp, rfl⟩ <;> simpa [needsEscape, hp] using hleg

/-- A byte is done with its second byte, or with itself where it needs no escape (R120). -/
theorem txEscape_done {t : State} {cur p : Byte} (adv : State → State)
    (h : (t.escp = true ∧ p = if cur = Config.delim then Config.escDelim else Config.escEsc) ∨
      (t.escp = false ∧ cur ≠ Config.delim ∧ cur ≠ Config.esc ∧ p = cur)) :
    txEscape cur adv t = adv { t with txlog := t.txlog ++ [p], escp := false } := by
  rcases h with ⟨he, rfl⟩ | ⟨he, hd, hc, rfl⟩
  · exact txEscape_second adv he
  · rw [txEscape_literal adv he hd hc, ← he]

theorem hdrAdvance_next {s : State} (h : s.idx.toNat < 7) : hdrAdvance s = { s with idx := s.idx + 1 } := if_pos h

theorem hdrAdvance_empty {s : State} (h : s.idx = 7) (hz : s.txsize = 0) :
    hdrAdvance s = { s with ph := .sClose, idx := 0 } := by
  rw [hdrAdvance, if_neg (by simp [h]), if_pos hz]

theorem hdrAdvance_payload {s : State} (h : s.idx = 7) (hz : s.txsize ≠ 0) :
    hdrAdvance s = { s with ph := .sPay, idx := 0 } := by
  rw [hdrAdvance, if_neg (by simp [h]), if_neg hz]

theorem payAdvance_next {s : State} (h : s.idx.toNat + 1 < s.txsize.toNat) :
    payAdvance s = { s with idx := s.idx + 1 } := if_pos h

theorem payAdvance_last {s : State} (h : s.idx.toNat + 1 = s.txsize.toNat) :
    payAdvance s = { s with ph := .sClose } := if_neg (by omega)

/-- Settles O59: the three delimiters are put by their own rules; elsewhere the turn is the escaper's for the current
byte, which puts the escape byte or finishes the byte and advances. -/
theorem transmitTurn : Obligations.TransmitTurn := by
  intro s t hs ht
  have h : Invariant t := by
    obtain ⟨l, rfl⟩ := turn_eq ht
    exact invariant_inputs hs l
  rw [step_turn ht]
  refine ⟨fun hp => ?dlm, fun hp => ?opens, fun hp => ?closes, fun cur hcur => ?byte, h.send_hdr, h.send_pay⟩
  case dlm | opens | closes =>
    simp only [blockStep, hp]
    rfl
  case byte =>
    have hc : t.current = some cur := by
      rcases hcur with ⟨hp, rfl⟩ | ⟨hp, hget⟩ | ⟨hp, rfl⟩
      · simp only [State.current, hp]
        rfl
      · have h7 := h.send_hdr hp
        simp only [State.current, hp]
        exact (HdrBytes.toList_get t.txHeader (by omega)).symm.trans hget
      · simp only [State.current, hp]
    rw [blockStep_current h hc]
    refine ⟨current_needs_escape h hc, fun he hn => by rw [txEscape_first _ he hn]; rfl, fun p hpd => ?_⟩
    rw [txEscape_done t.advance hpd]
    refine ⟨fun hp => ?enc, fun hp hi => ?next, fun hp hi hz => ?empty, fun hp hi hz => ?payload, fun hp hi => ?more,
      fun hp hi => ?last⟩
    all_goals simp only [State.advance, hp]
    case enc => rfl
    case next => rw [hdrAdvance_next (by exact hi)]
    case empty => rw [hdrAdvance_empty (by exact hi) (by exact hz)]
    case payload => rw [hdrAdvance_payload (by exact hi) (by exact hz)]
    case more => rw [payAdvance_next (by exact hi)]
    case last => rw [payAdvance_last (by exact hi)]

/-! ## SEND -/

theorem length_txPayload (s : State) : s.txPayload.length = s.txsize.toNat := by simp [State.txPayload]

/-- The turns SEND takes: one for each delimiter and one for each byte of the encoding (R95, `41_packet_tx.md` R147). -/
theorem send_turns (s : State) :
    2 + 8 + s.txsize.toNat + escapes (s.txHeader.toList ++ s.txPayload) =
      (1 + (encs (s.txHeader.toList ++ s.txPayload)).length) + 1 := by
  rw [length_encs, List.length_append, length_txPayload, show s.txHeader.toList.length = 8 from rfl]
  omega

/-- SEND's header and payload, from its first header byte to the closing delimiter's turn (R143, R144). -/
theorem stepRun_header_and_payload {s : State} (hin : s.inputs = []) (hp : s.ph = .sHdr) (he : s.escp = false)
    (hi : s.idx = 0) (hz : s.txsize.toNat ≤ s.cfg.txbufDepth) :
    ∃ i, stepRun (encs (s.txHeader.toList ++ s.txPayload)).length s =
      .next { s with txlog := s.txlog ++ encs (s.txHeader.toList ++ s.txPayload), ph := .sClose, idx := i } := by
  have hhdr := stepRun_header_rest 7 hin hp he (by simp [hi])
  have hdrop : s.txHeader.toList.drop s.idx.toNat = s.txHeader.toList := by rw [hi]; rfl
  rw [hdrop] at hhdr
  rw [encs_append, List.length_append]
  by_cases h0 : s.txsize = 0
  · have hpay : s.txPayload = [] := by simp [State.txPayload, h0]
    rw [if_pos h0] at hhdr
    refine ⟨0, ?_⟩
    rw [hpay, encs_nil, List.length_nil, Nat.add_zero, hhdr, List.append_nil]
  · obtain ⟨n, hn⟩ : ∃ n, s.txsize.toNat = n + 1 :=
      Nat.exists_eq_succ_of_ne_zero fun h => h0 (BitVec.eq_of_toNat_eq h)
    have hpay : (List.range' 0 (n + 1)).map s.txByte = s.txPayload := by
      rw [State.txPayload, hn, List.range_eq_range']
    rw [if_neg h0] at hhdr
    have hrest := stepRun_payload_rest n
      (s := { s with txlog := s.txlog ++ encs s.txHeader.toList, ph := .sPay, idx := 0 }) hin rfl he
      (by simp [hn]) hz
    have htx (l : List Byte) : State.txByte { s with txlog := l, ph := .sPay, idx := 0 } = s.txByte := rfl
    simp only [htx, show (0 : Half).toNat = 0 from rfl, hpay] at hrest
    exact ⟨_, (stepRun_trans hhdr hrest).trans (by rw [List.append_assoc])⟩

/-- SEND's first delimiter, header and payload, up to the closing delimiter's turn. -/
theorem stepRun_until_close {s : State} (hin : s.inputs = []) (hp : s.ph = .sOpen) (he : s.escp = false)
    (hz : s.txsize.toNat ≤ s.cfg.txbufDepth) :
    ∃ i, stepRun (1 + (encs (s.txHeader.toList ++ s.txPayload)).length) s =
      .next { s with
        txlog := s.txlog ++ Config.delim :: encs (s.txHeader.toList ++ s.txPayload), ph := .sClose, idx := i } := by
  have hopen := step_opens hin hp
  obtain ⟨i, hi⟩ := stepRun_header_and_payload
    (s := { s with txlog := s.txlog ++ [Config.delim], ph := .sHdr, idx := 0 }) hin rfl he rfl hz
  refine ⟨i, ?_⟩
  rw [Nat.add_comm, stepRun_one hopen]
  exact hi.trans (by rw [List.append_assoc]; rfl)

/-- Settles O31: acceptance, the run up to the closing delimiter, alone or with harmless events in between, and the
closing delimiter's turn. -/
theorem sendEmitsTheFrame : Obligations.SendEmitsTheFrame := by
  intro s v hb hc hz hop
  have hstart (l : List Event) : commandStart 0x4 (accept 0x4 { s with inputs := l }) =
      { accept 0x4 { s with inputs := l } with ph := .sOpen } := sendStart_fits hz
  rw [send_turns]
  refine ⟨fun hin => ?alone, fun evs rest hin he hcount => ?between⟩
  case alone =>
    obtain ⟨i, hi⟩ := stepRun_until_close (s := { accept 0x4 { s with inputs := [] } with ph := .sOpen }) rfl rfl rfl hz
    refine ⟨i, ?_⟩
    rw [stepRun_accepts hb hc hin hop, hstart]
    refine (stepRun_add hi 1).trans ((stepRun_single _).trans ((step_closes rfl rfl).trans ?_))
    simp only [List.append_assoc]
    rfl
  case between =>
    let u : State := { accept 0x4 { s with inputs := evs ++ .block :: rest } with ph := .sOpen }
    obtain ⟨i, hi⟩ := stepRun_until_close (s := u.withEnv [] [] false [] 0) rfl rfl rfl hz
    have hturns : evs.count .block = 1 + (encs (s.txHeader.toList ++ s.txPayload)).length := by omega
    obtain ⟨l, hl, hpre⟩ := stepRun_transmits evs (s := u) he rfl rfl (hturns ▸ hi) rfl
    let w : State := { u with
      inputs := rest, txlog := s.txlog ++ Config.delim :: encs (s.txHeader.toList ++ s.txPayload), ph := .sClose,
      idx := i, rxq := s.rxq ++ arrivals evs, ovr := s.ovr || evs.any Event.isWrite, hostLog := l }
    refine ⟨closePut w, ?_, ?_, hpre⟩
    · rw [Nat.add_assoc, stepRun_accepts hb hc hin hop, hstart, stepRun_add hl, stepRun_single]
      exact step_block rfl
    · simp only [closePut, complete, serPut, w, List.append_assoc]
      rfl

/-! ## RECV -/

/-- RECV as it starts, nothing coming from outside (`42_packet_rx.md` R161). -/
def State.recvStarted (s : State) : State :=
  { accept 0x5 { s with inputs := [] } with rxv := false, rxcnt := 0, tmr := 0, ph := .rWait }

/-- RECV behind its opening delimiter, `q` to come (R163). -/
def State.recvOpened (s : State) (q : List Byte) : State := { s.recvStarted with ph := .rHdr, rxq := q }

theorem stepRun_recv_starts {s : State} {v : Word} (hb : s.busy = false) (hc : s.chf = false)
    (hz : s.rxcap.toNat ≤ s.cfg.rxbufDepth) (hin : s.inputs = [.hostWrite 0x00 v]) (hop : opField v = 0x5) (n : Nat) :
    stepRun (1 + n) s = stepRun n s.recvStarted := by
  have hstart : commandStart 0x5 (accept 0x5 { s with inputs := [] }) = s.recvStarted := recvStart_fits hz
  rw [stepRun_accepts hb hc hin hop, hstart]

/-- The turn that takes RECV's first byte (R163). -/
theorem step_first_byte {s : State} {p : Byte} {q : List Byte} (hq : s.rxq = p :: q) :
    step s.recvStarted = .next (firstByte p { s.recvStarted with rxq := q }) := by
  have hr := blockStep_takes (s := s.recvStarted) (.inr (.inl rfl)) hq
  rw [step_no_input rfl, hr, receive_rWait rfl]

theorem stepRun_recv_opens {s : State} {v : Word} {q : List Byte} (hb : s.busy = false) (hc : s.chf = false)
    (hz : s.rxcap.toNat ≤ s.cfg.rxbufDepth) (hin : s.inputs = [.hostWrite 0x00 v]) (hop : opField v = 0x5)
    (hq : s.rxq = Config.delim :: q) (n : Nat) : stepRun (2 + n) s = stepRun n (s.recvOpened q) := by
  have hone : step s.recvStarted = .next (s.recvOpened q) := step_first_byte hq
  rw [show 2 + n = 1 + (n + 1) by omega, stepRun_recv_starts hb hc hz hin hop, stepRun_one hone]

/-- The first `n` payload bytes, the last not among them (R167). -/
theorem stepRun_payload_from_zero {n : Nat} {s : State} {bytes r : List Byte} (hin : s.inputs = []) (hp : s.ph = .rPay)
    (he : s.escp = false) (hi : s.idx = 0) (hc : s.rxcnt = 0) (hn : n < s.hdrb.size.toNat)
    (hz : s.hdrb.size.toNat ≤ s.cfg.rxbufDepth) (hd : decN n s.rxq = some (bytes, r)) :
    ∃ m : Memory, stepRun (s.rxq.length - r.length) s =
        .next { s with rxbuf := m, rxcnt := BitVec.ofNat 16 n, idx := BitVec.ofNat 16 n, rxq := r } ∧
      ∀ i, m.lookup i = if i < n then some (bytes.getD i 0) else s.rxbuf.lookup i := by
  obtain ⟨m, hrun, hlookup⟩ := stepRun_payload_prefix n hin hp he (hc.trans hi.symm) (by simpa [hi] using hn) hz hd
  exact ⟨m, by simpa [hi] using hrun, fun i => by simpa [hi] using hlookup i⟩

/-- A whole payload is stored, and RECV completes (R167). -/
theorem stepRun_payload {s : State} {p r : List Byte} (hin : s.inputs = []) (hp : s.ph = .rPay) (he : s.escp = false)
    (hi : s.idx = 0) (hc : s.rxcnt = 0) (h0 : s.hdrb.size ≠ 0) (hz : s.hdrb.size.toNat ≤ s.cfg.rxbufDepth)
    (hd : decN s.hdrb.size.toNat s.rxq = some (p, r)) :
    ∃ m i, stepRun (s.rxq.length - r.length) s =
        .next (complete .none { s with rxbuf := m, rxcnt := s.hdrb.size, idx := i, rxv := true, rxq := r }) ∧
      ∀ k, Memory.lookup m k = if k < s.hdrb.size.toNat then some (p.getD k 0) else s.rxbuf.lookup k := by
  obtain ⟨n, hn⟩ : ∃ n, s.hdrb.size.toNat = n + 1 :=
    Nat.exists_eq_succ_of_ne_zero fun h => h0 (BitVec.eq_of_toNat_eq h)
  have hlt := s.hdrb.size.isLt
  rw [hn] at hd
  obtain ⟨first, q, last, hfirst, hlast, rfl⟩ := decN_add hd
  obtain ⟨b, q', s', hb, hnil, rfl⟩ := decN_succ hlast
  obtain ⟨rfl, rfl⟩ := Prod.mk.inj (Option.some.inj hnil)
  obtain ⟨m, hm, hlookup⟩ := stepRun_payload_from_zero hin hp he hi hc (by omega) hz hfirst
  have hidx : (BitVec.ofNat 16 n).toNat = n := by
    rw [BitVec.toNat_ofNat, Nat.mod_eq_of_lt (by omega)]
  obtain ⟨-, hone⟩ := stepRun_logical
    (s := { s with rxbuf := m, rxcnt := BitVec.ofNat 16 n, idx := BitVec.ofNat 16 n, rxq := q })
    hin (.inr (.inr hp)) he hb
  rw [deliver_payload_last (by exact hp) (by simp only [hidx]; omega) (by simp only [hidx]; omega)] at hone
  obtain ⟨hle, hf⟩ := decN_shorter hfirst
  have hsize : BitVec.ofNat 16 n + 1 = s.hdrb.size := by
    apply BitVec.eq_of_toNat_eq
    rw [BitVec.toNat_add, hidx, hn]
    simp
    omega
  refine ⟨m.store n b, BitVec.ofNat 16 n, ?_, fun k => ?_⟩
  · rw [← tsub_add_tsub_cancel hle (dec1_shorter hb).le, stepRun_add hm, hone]
    simp only [storePayload, hsize, hidx]
  · by_cases hk : k = n
    · subst hk
      rw [Memory.lookup_store_same, if_pos (by omega)]
      simp [List.getD_eq_getElem?_getD, ← hf]
    · rw [Memory.lookup_store_other _ _ hk, hlookup k, hn]
      by_cases hkn : k < n
      · rw [if_pos hkn, if_pos (by omega)]
        simp [List.getD_eq_getElem?_getD, List.getElem?_append, hf, hkn]
      · rw [if_neg hkn, if_neg (by omega)]

/-- RECV with its header taken and its payload to come (R166). -/
def State.recvPayload (s : State) (h : HdrBytes) (q : List Byte) : State :=
  { s.recvStarted with ph := .rPay, hdrb := h, rxq := q }

/-- RECV from its opening delimiter to its payload, or to its end where there is none (R165, R166). -/
theorem stepRun_recv_header {s : State} {h : HdrBytes} {q r : List Byte} (hd : decN 8 q = some (h.toList, r)) :
    stepRun (q.length - r.length) (s.recvOpened q) =
      .next (headerReceived { s.recvOpened r with hdrb := h, idx := 7 }) :=
  stepRun_header (s := s.recvOpened q) rfl rfl rfl rfl hd

theorem stepRun_recv_to_payload {s : State} {h : HdrBytes} {q r : List Byte} (hd : decN 8 q = some (h.toList, r))
    (h0 : h.size ≠ 0) (hz : h.size.toNat ≤ s.rxcap.toNat) :
    stepRun (q.length - r.length) (s.recvOpened q) = .next (s.recvPayload h r) :=
  (stepRun_recv_header hd).trans
    (congrArg Host.Outcome.next (headerReceived_payload (s := { s.recvOpened r with hdrb := h, idx := 7 }) h0 hz))

/-- A buffer read after bytes `0` to `n - 1` have been written. -/
theorem rxByte_of_lookup {s t : State} {p : List Byte} {n : Nat} (he : t.epoch = s.epoch)
    (hl : ∀ k, t.rxbuf.lookup k = if k < n then some (p.getD k 0) else s.rxbuf.lookup k) (k : Nat) :
    t.rxByte k = if k < n then p.getD k 0 else s.rxByte k := by
  rw [State.rxByte, hl, he]
  split <;> rfl

/-- Settles O32: the delimiter, the header, and the payload unless it is empty. -/
theorem recvDeliversThePacket : Obligations.RecvDeliversThePacket := by
  intro s v q q' r p h hb hc hz hin hop hq hhdr hsize hpay
  have hle := (decN_shorter hhdr).1
  have hle' := (decN_shorter hpay).1
  rw [stepRun_recv_opens hb hc hz hin hop hq]
  by_cases h0 : h.size = 0
  · rw [h0] at hpay
    obtain ⟨rfl, rfl⟩ := Prod.mk.inj (Option.some.inj hpay)
    have hend := headerReceived_empty (s := { s.recvOpened q' with hdrb := h, idx := 7 }) h0
    refine ⟨_, (stepRun_recv_header hhdr).trans (congrArg Host.Outcome.next hend), fun i => ?_, ?_⟩
    · rw [if_neg (by simp [h0])]
      exact rxByte_congr rfl rfl i
    · rw [h0]
      rfl
  · obtain ⟨m, i, hrun, hlookup⟩ :=
      stepRun_payload (s := s.recvPayload h q') rfl rfl rfl rfl rfl h0 (hsize.trans hz) hpay
    refine ⟨complete .none { s.recvPayload h r with rxbuf := m, rxcnt := h.size, idx := i, rxv := true }, ?_,
      rxByte_of_lookup rfl hlookup, rfl⟩
    rw [← tsub_add_tsub_cancel hle hle', stepRun_add (stepRun_recv_to_payload hhdr h0 hsize)]
    exact hrun

/-- A run up to a bad pair, and the pair: RECV fails (`42_packet_rx.md` R171). -/
theorem stepRun_to_bad_pair {s u : State} {j : Nat} {q bytes r : List Byte} {t : Byte}
    (hd : decN j q = some (bytes, Config.esc :: t :: r)) (hu : unpair t = none)
    (hrun : stepRun (q.length - (Config.esc :: t :: r).length) s = .next u) (hin : u.inputs = [])
    (hp : u.ph = .dec ∨ u.ph = .rHdr ∨ u.ph = .rPay) (he : u.escp = false) (hq : u.rxq = Config.esc :: t :: r) :
    stepRun (q.length - r.length) s = .next (complete .framing { u with rxq := r }) := by
  have hbad := stepRun_bad_pair hin hp he hq hu
  rw [hq] at hbad
  rw [← tsub_add_tsub_cancel (decN_shorter hd).1 (show r.length ≤ (Config.esc :: t :: r).length by simp; omega)]
  exact (stepRun_add hrun _).trans hbad

/-- A bad pair in place of header byte `j` ends RECV; the bytes before it are in `HDRB`. -/
theorem stepRun_recv_header_fails {s : State} {j : Nat} {q bytes r : List Byte} {t : Byte} (hj : j < 8)
    (hd : decN j q = some (bytes, Config.esc :: t :: r)) (hu : unpair t = none) :
    ∃ k : HdrBytes, stepRun (q.length - r.length) (s.recvOpened q) =
        .next (complete .framing { s.recvOpened r with hdrb := k, idx := BitVec.ofNat 16 j }) ∧
      ∀ i, i < 8 → k.get i = if i < j then bytes.getD i 0 else s.hdrb.get i := by
  obtain ⟨k, hk, hget⟩ := stepRun_header_from_zero (s := s.recvOpened q) rfl rfl rfl rfl (by omega) hd
  exact ⟨k, stepRun_to_bad_pair hd hu hk rfl (.inr (.inl rfl)) rfl rfl, hget⟩

/-- A bad pair in place of payload byte `j` ends RECV; the bytes before it are stored. -/
theorem stepRun_recv_payload_fails {s : State} {h : HdrBytes} {j : Nat} {q p r : List Byte} {t : Byte}
    (hj : j < h.size.toNat) (hz : h.size.toNat ≤ s.cfg.rxbufDepth) (hd : decN j q = some (p, Config.esc :: t :: r))
    (hu : unpair t = none) :
    ∃ m : Memory, stepRun (q.length - r.length) (s.recvPayload h q) =
        .next (complete .framing
          { s.recvPayload h r with rxbuf := m, rxcnt := BitVec.ofNat 16 j, idx := BitVec.ofNat 16 j }) ∧
      ∀ i, m.lookup i = if i < j then some (p.getD i 0) else s.rxbuf.lookup i := by
  obtain ⟨m, hm, hlookup⟩ := stepRun_payload_from_zero (s := s.recvPayload h q) rfl rfl rfl rfl rfl hj hz hd
  exact ⟨m, stepRun_to_bad_pair hd hu hm rfl (.inr (.inr rfl)) rfl rfl, hlookup⟩

/-- Settles O33: each failure is reached by the runs of success up to it. -/
theorem recvFailures : Obligations.RecvFailures := by
  intro s v hb hc hz hin hop
  refine ⟨fun c q hq hne => ?noFrame, fun q j bytes t r hq hj hd hu => ?header, fun q h r hq hd hcap => ?bufsmall,
    fun q h q' j p t r hq hhdr hsize hj hd hu => ?payload⟩
  case noFrame =>
    have hone := step_first_byte hq
    rw [firstByte, if_neg hne] at hone
    rw [show 2 = 1 + 1 from rfl, stepRun_recv_starts hb hc hz hin hop, stepRun_single, hone]
    rfl
  case header =>
    obtain ⟨k, hrun, hget⟩ := stepRun_recv_header_fails (s := s) hj hd hu
    exact ⟨_, (stepRun_recv_opens hb hc hz hin hop hq _).trans hrun, hget, rfl⟩
  case bufsmall =>
    rw [stepRun_recv_opens hb hc hz hin hop hq, stepRun_recv_header hd,
      headerReceived_bufsmall (s := { s.recvOpened r with hdrb := h, idx := 7 }) hcap]
    rfl
  case payload =>
    have hle := (decN_shorter hhdr).1
    have hle' : r.length ≤ q'.length := by
      have hcons := (decN_shorter hd).1
      simp only [List.length_cons] at hcons
      omega
    obtain ⟨m, hrun, hlookup⟩ := stepRun_recv_payload_fails (s := s) hj (hsize.trans hz) hd hu
    have h0 : h.size ≠ 0 := by
      rintro h0
      simp [h0] at hj
    refine ⟨complete .framing
      { s.recvPayload h r with rxbuf := m, rxcnt := BitVec.ofNat 16 j, idx := BitVec.ofNat 16 j }, ?_,
      rxByte_of_lookup rfl hlookup, rfl⟩
    rw [stepRun_recv_opens hb hc hz hin hop hq, ← tsub_add_tsub_cancel hle hle',
      stepRun_add (stepRun_recv_to_payload hhdr h0 hsize)]
    exact hrun

/-! ## The packet round trip -/

/-- What a frame's inside decodes to: the header, then the payload, the closing delimiter left (R94, log 16). -/
theorem decN_frame (h : HdrBytes) (p : List Byte) :
    decN 8 (encs (h.toList ++ p) ++ [Config.delim]) = some (h.toList, encs p ++ [Config.delim]) := by
  rw [encs_append, List.append_assoc]
  exact decN_encs h.toList _

theorem txHeader_size (s : State) : s.txHeader.size = s.txsize := HdrBytes.ofFields_size _ _ _ _

/-- Bytes `0` to `n - 1` of a buffer, read after they have been written. -/
theorem map_rxByte_range {t : State} {p : List Byte} (h : ∀ i, i < p.length → t.rxByte i = p.getD i 0) :
    (List.range p.length).map t.rxByte = p := by
  refine List.ext_getElem (by simp) fun i hi hip => ?_
  rw [List.getElem_map, List.getElem_range, h i hip, List.getD_eq_getElem _ _ hip]

/-- Settles O35: `sendEmitsTheFrame` gives the bytes, and `recvDeliversThePacket` takes them, since a frame's inside
decodes to its header and payload. -/
theorem packetRoundTrip : Obligations.PacketRoundTrip := by
  intro s v w hb hc hz hcap hbuf hv hw hin
  obtain ⟨i, hsend⟩ := (sendEmitsTheFrame s v hb hc hz hv).1 hin
  let t : State := { s with
    inputs := [], op := 0x4, done := true, err := .none, ph := .idle, escp := false, idx := i,
    txlog := s.txlog ++ frame s.txHeader s.txPayload }
  let q : List Byte := encs (s.txHeader.toList ++ s.txPayload) ++ [Config.delim]
  have hlen := length_txPayload s
  have hpay : decN s.txHeader.size.toNat (encs s.txPayload ++ [Config.delim]) = some (s.txPayload, [Config.delim]) := by
    rw [txHeader_size, ← hlen]
    exact decN_encs s.txPayload _
  obtain ⟨u, hrun, hbytes, hu⟩ := recvDeliversThePacket
    { t with rxq := Config.delim :: q, inputs := [.hostWrite 0x00 w] } w q (encs s.txPayload ++ [Config.delim])
    [Config.delim] s.txPayload s.txHeader rfl hc hbuf rfl hw rfl (decN_frame _ _)
    (by rw [txHeader_size]; exact hcap) hpay
  rw [txHeader_size] at hbytes hu
  have hrx : u.rxPayload = s.txPayload := by
    have hcnt : u.rxcnt = s.txsize := by rw [hu]
    rw [State.rxPayload, hcnt, ← hlen]
    exact map_rxByte_range fun k hk => (hbytes k).trans (if_pos (by omega))
  refine ⟨_, _, t, u, frame s.txHeader s.txPayload, hsend, rfl, rfl, rfl, rfl, rfl, hrun, ?_⟩
  rw [hu] at hrx ⊢
  exact ⟨rfl, rfl, rfl, rfl, rfl, rfl, rfl, txHeader_size s, HdrBytes.ofFields_value _ _ _ _, hrx, rfl⟩

/-! ## Operations with other events in between -/

/-- Settles O60: acceptance is the same in the other environment, the run in between takes its bytes from those that
arrive too, and the last turn finds the rest of them. -/
theorem interleavedRunsAgree : Obligations.InterleavedRunsAgree := by
  intro s u t v evs rest hb he hin hbusy hrun hlast ht
  let a : State := accepted (opField v) { s with inputs := evs ++ .block :: rest }
  have hstart : step s = .next a := by
    rw [step_cmd hin, exec_decodeOp_idle (s := { s with inputs := evs ++ .block :: rest }) hb]
  have hframe := accepted_frame (opField v) { s with inputs := evs ++ .block :: rest }
  have hrun' : stepRun evs.length a = .next u := by rwa [Nat.add_comm, stepRun_one hstart] at hrun
  have hbusy' (k : Nat) (w : State) (hk : k ≤ evs.length) (hw : stepRun k a = .next w) : w.busy = true :=
    hbusy k w hk (by rw [Nat.add_comm, stepRun_one hstart, hw])
  obtain ⟨taken, k, hk, hq, hu, halone⟩ := stepRun_interleaved evs he hframe.inputs hrun' hbusy'
  have hub : u.busy = true := hbusy' evs.length u le_rfl hrun'
  rw [step_block hu] at hlast
  obtain ⟨piece, hpiece, ⟨-, hsame, -⟩ | hturn⟩ := blockStep_withEnv (s := { u with inputs := rest }) hub hlast
  · rw [hsame] at ht
    exact absurd (hub.symm.trans ht) (by decide)
  · refine ⟨(block_frame hlast).1.inputs, 1 + (k + 1), by omega, ?_⟩
    have hqueue : s.rxq ++ arrivals evs = taken ++ (piece ++ t.rxq) := by
      rw [← show u.rxq = piece ++ t.rxq from hpiece, ← hq]
      exact congrArg (· ++ arrivals evs) hframe.rxq.symm
    have hone : step { s with inputs := [.hostWrite 0x00 v], rxq := s.rxq ++ arrivals evs } =
        .next (a.withEnv [] (taken ++ (piece ++ t.rxq)) s.ovr s.hostLog (if opField v = 0x5 then 0 else s.tmr)) := by
      rw [step_cmd rfl, exec_decodeOp_idle (by exact hb), ← hqueue]
      exact congrArg Host.Outcome.next (accepted_withEnv (opField v) { s with inputs := evs ++ .block :: rest } []
        (s.rxq ++ arrivals evs) s.ovr s.hostLog (hbusy' 0 a (Nat.zero_le _) rfl))
    have hend := (step_no_input rfl).trans
      (hturn [] t.rxq s.ovr s.hostLog (if opField v = 0x5 then 0 else s.tmr) fun _ => rfl)
    rw [Nat.add_comm, stepRun_one hone]
    exact stepRun_trans (halone _ _ _ _) ((stepRun_single _).trans hend)

end Sys2Proof.Machine
